-- ==== Sys2Proof/Word.lean ====
section
/-! DEFINITION. The widths the engine works in: bytes, 32-bit words and byte strings (spec/00_scope.md rules R11, R12). -/

namespace Sys2Proof

/-- A byte, 0 .. 255, with arithmetic modulo 256 (R11; the index arithmetic of R40 is this one). -/
abbrev Byte := BitVec 8

/-- A 32-bit word: registers, DMEM addresses and command words. -/
abbrev Word := BitVec 32

/-- A finite byte string; `x[n]` counts from 0, `++` is the spec's `‖` and `[]` its `ε` (R12). -/
abbrev Bytes := List Byte

end Sys2Proof
end

