-- ==== Sys2Proof/Syntax.lean ====
section
/-! DEFINITION. The commands: one constructor per row of the opcode map (spec/30_encoding.md rule R115), and the fields of a command word (R110). -/

namespace Sys2Proof

/-- A command. The operands of a command are fixed by its opcode (R114); only IMM8 is carried. -/
inductive Instr where
  /-- NOP, OP 0x00 (R330). -/
  | nop
  /-- SP_INIT, OP 0x01 (R170). -/
  | spInit
  /-- SP_ABSORB, OP 0x02 (R171). -/
  | spAbsorb
  /-- SP_ABSORB_IMM, OP 0x03, IMM8 = the byte absorbed (R172). -/
  | spAbsorbImm (b : Byte)
  /-- SP_ABSORB_STOP, OP 0x04 (R173). -/
  | spAbsorbStop
  /-- SP_SHUFFLE, OP 0x05 (R174). -/
  | spShuffle
  /-- SP_SQUEEZE, OP 0x06 (R175). -/
  | spSqueeze
  /-- SP_DRIP, OP 0x07 (R176). -/
  | spDrip
  /-- HASH, OP 0x10, IMM8 = output length (R191). -/
  | hash (r : Byte)
  /-- KEYID, OP 0x11 (R193). -/
  | keyid
  /-- AEAD_SEAL, OP 0x20, IMM8 = tag length (R213). -/
  | aeadSeal (r : Byte)
  /-- AEAD_OPEN, OP 0x21, IMM8 = tag length (R214). -/
  | aeadOpen (r : Byte)
  /-- B85_ENC, OP 0x30 (R257). -/
  | b85Enc
  /-- B85_DEC, OP 0x31 (R258). -/
  | b85Dec
  /-- KR_LOAD, OP 0x40 (R278). -/
  | krLoad
  /-- KR_LOOKUP, OP 0x41 (R279). -/
  | krLookup
  /-- KR_CLEAR, OP 0x42 (R280). -/
  | krClear
  /-- FRAME_AAD, OP 0x50 (R310). -/
  | frameAad
  /-- FRAME_SEAL, OP 0x51 (R312). -/
  | frameSeal
  /-- FRAME_PARSE, OP 0x52 (R321). -/
  | frameParse
  deriving DecidableEq, Repr

/-- The three fields of a command word: OP = c[7:0], IMM8 = c[15:8], RSV = c[31:16] (R110). -/
structure CmdFields where
  op : Byte
  imm8 : Byte
  rsv : BitVec 16
  deriving DecidableEq, Repr

end Sys2Proof
end

