-- ==== Sys2Proof/WellFormed.lean ====
section
/-! DEFINITION. Which fields make a command word: the three decode checks of R116 and R117, in their order. An `Instr` needs no check of its own: its immediates are bytes by type, so a length of 256 or more (U7) is not an instruction. -/

namespace Sys2Proof

/-- The OP values of the opcode map (R115) that take no immediate: IMM8 is "—". -/
def plainOps : List Byte :=
  [0x00, 0x01, 0x02, 0x04, 0x05, 0x06, 0x07, 0x11, 0x30, 0x31, 0x40, 0x41, 0x42, 0x50, 0x51, 0x52]

/-- The OP values of the opcode map (R115) whose IMM8 is an operand. -/
def immOps : List Byte := [0x03, 0x10, 0x20, 0x21]

namespace CmdFields

/-- The OP is in the opcode map (R116). -/
def legalOp (f : CmdFields) : Bool := plainOps.contains f.op || immOps.contains f.op

/-- RSV is 0 (R117). -/
def rsvClear (f : CmdFields) : Bool := f.rsv == 0

/-- IMM8 is 0 where the opcode takes none (R117). -/
def immClear (f : CmdFields) : Bool := immOps.contains f.op || f.imm8 == 0

/-- The fields are those of a command of R115. -/
def wellFormed (f : CmdFields) : Bool := f.legalOp && f.rsvClear && f.immClear

end CmdFields

end Sys2Proof
end

