-- ==== Sys2Proof/Decode.lean ====
section
/-! DEFINITION. The decoder and the encoder of command words (spec/30_encoding.md rules R110, R111, R115 to R118), and the decoder as the host's table numbers bits. -/

namespace Sys2Proof

/-- How a word fails to decode (R118): the two error completions of the decode checks. -/
inductive DecodeError where
  /-- OP is not in the opcode map (R116). -/
  | illegalCommand
  /-- A legal OP with RSV ≠ 0, or with IMM8 ≠ 0 where it takes none (R117). -/
  | reservedField
  deriving DecidableEq, Repr

/-- OP = c[7:0] (R110). -/
def opOf (c : Word) : Byte := c.extractLsb' 0 8

/-- IMM8 = c[15:8], unsigned and never scaled (R110, R111). -/
def imm8Of (c : Word) : Byte := c.extractLsb' 8 8

/-- RSV = c[31:16] (R110). -/
def rsvOf (c : Word) : BitVec 16 := c.extractLsb' 16 16

/-- The three fields of a word together. -/
def fieldsOf (c : Word) : CmdFields := { op := opOf c, imm8 := imm8Of c, rsv := rsvOf c }

/-- What the opcode map gives an OP: a command without an immediate, or one made from IMM8. -/
inductive OpRow where
  | plain (i : Instr)
  | immediate (mk : Byte → Instr)

/-- The opcode map (R115). -/
def opcodeRow (op : Byte) : Option OpRow :=
  match op.toNat with
  | 0x00 => some (.plain .nop)
  | 0x01 => some (.plain .spInit)
  | 0x02 => some (.plain .spAbsorb)
  | 0x03 => some (.immediate .spAbsorbImm)
  | 0x04 => some (.plain .spAbsorbStop)
  | 0x05 => some (.plain .spShuffle)
  | 0x06 => some (.plain .spSqueeze)
  | 0x07 => some (.plain .spDrip)
  | 0x10 => some (.immediate .hash)
  | 0x11 => some (.plain .keyid)
  | 0x20 => some (.immediate .aeadSeal)
  | 0x21 => some (.immediate .aeadOpen)
  | 0x30 => some (.plain .b85Enc)
  | 0x31 => some (.plain .b85Dec)
  | 0x40 => some (.plain .krLoad)
  | 0x41 => some (.plain .krLookup)
  | 0x42 => some (.plain .krClear)
  | 0x50 => some (.plain .frameAad)
  | 0x51 => some (.plain .frameSeal)
  | 0x52 => some (.plain .frameParse)
  | _ => none

/-- The decoder, total on all words (R118): first OP legality, then RSV, then IMM8 (R117). -/
def decode (c : Word) : Except DecodeError Instr :=
  match opcodeRow (opOf c) with
  | none => .error .illegalCommand
  | some row =>
    if rsvOf c ≠ 0 then .error .reservedField
    else
      match row with
      | .immediate mk => .ok (mk (imm8Of c))
      | .plain i => if imm8Of c ≠ 0 then .error .reservedField else .ok i

/-- The word `(IMM8 << 8) | OP` (R115). -/
def commandWord (op imm8 : Byte) : Word := (0 : BitVec 16) ++ imm8 ++ op

/-- The word of a command (R115). -/
def encode (i : Instr) : Word :=
  match i with
  | .nop => commandWord 0x00 0
  | .spInit => commandWord 0x01 0
  | .spAbsorb => commandWord 0x02 0
  | .spAbsorbImm b => commandWord 0x03 b
  | .spAbsorbStop => commandWord 0x04 0
  | .spShuffle => commandWord 0x05 0
  | .spSqueeze => commandWord 0x06 0
  | .spDrip => commandWord 0x07 0
  | .hash r => commandWord 0x10 r
  | .keyid => commandWord 0x11 0
  | .aeadSeal r => commandWord 0x20 r
  | .aeadOpen r => commandWord 0x21 r
  | .b85Enc => commandWord 0x30 0
  | .b85Dec => commandWord 0x31 0
  | .krLoad => commandWord 0x40 0
  | .krLookup => commandWord 0x41 0
  | .krClear => commandWord 0x42 0
  | .frameAad => commandWord 0x50 0
  | .frameSeal => commandWord 0x51 0
  | .frameParse => commandWord 0x52 0

/-- The command word that an instruction of `nbits` bits numbered as the opcode table numbers them stands
for: a command is one 32-bit word written whole to REG.CMD, so no byte order enters; every bit above `nbits`
is 0. -/
def tableWord (nbits w : Nat) : Word := BitVec.ofNat 32 (w % 2 ^ nbits)

/-- The instruction the decoder reads from a word of the opcode table. -/
def decodeTableWord (nbits w : Nat) : Option Instr :=
  match decode (tableWord nbits w) with
  | .ok i => some i
  | .error _ => none

end Sys2Proof
end

