-- ==== Sys2Proof/Config.lean ====
section
/-! DEFINITION. The parameters of the engine: the fixed ones of R9, the open ones of R10, and the free values of U1. -/

namespace Sys2Proof

/-- The open build-time parameters (R10, U4). Every value of this type is admitted, and every admitted
value is a value of this type: a size `n` of a domain `1 .. 2^k` is held as `n - 1`. -/
structure Params where
  /-- B85_VARIANT, 0 to 5 (R241). -/
  b85Variant : Fin 6
  /-- The highest DMEM address: DMEM_BYTES - 1. -/
  dmemTop : BitVec 32
  /-- KR_MAX_ENTRIES - 1. -/
  krTop : BitVec 16
  /-- KEY_MAX_BYTES - 1. -/
  keyTop : BitVec 16
  deriving DecidableEq, Repr, Inhabited

namespace Params

/-- DMEM_BYTES, 1 to 2^32 (R10). -/
def dmemBytes (p : Params) : Nat := p.dmemTop.toNat + 1

/-- KR_MAX_ENTRIES, 1 to 2^16 (R10). -/
def krMaxEntries (p : Params) : Nat := p.krTop.toNat + 1

/-- KEY_MAX_BYTES, 1 to 2^16 (R10). -/
def keyMaxBytes (p : Params) : Nat := p.keyTop.toNat + 1

end Params

namespace Config

/-- The build parameters of the machine that `State.reset` describes. No body: a claim holds for every
admitted value or names the one it assumes (R10, U4; log entry 1). -/
opaque params : Params

/-- The byte that the `n`-th read of a DMEM byte without a value draws (R46, U1). No body: any byte
(log entry 2). -/
opaque dmemDraw : Nat → Byte

/-- REG_BASE: where the REG window sits in the host's own address map. The platform's: no rule of the engine
reads it (R93; log entry 1). -/
opaque regBase : Nat

/-- DMEM_BASE: where DMEM sits in the host's own address map. The platform's: no rule of the engine reads it
(R93; log entry 1). -/
opaque dmemBase : Nat

/-- NONCE_BYTES (R9). -/
def nonceBytes : Nat := 12

/-- KEYID_BYTES (R9). -/
def keyIdBytes : Nat := 8

/-- KEYID_TEXT_BYTES (R9). -/
def keyIdTextBytes : Nat := 10

/-- PROTO_TAG_BYTES (R9), as the byte AbsorbLen absorbs. -/
def protoTagBytes : Byte := 32

/-- SCOPE_FIELD, the 5-byte string `scope` (R9). -/
def scopeField : Bytes := [0x73, 0x63, 0x6F, 0x70, 0x65]

/-- FIELD_SEP, the byte `/` (R9). -/
def fieldSep : Byte := 0x2F

/-- The constant of REG.ID: "SPZ" and version 1 (R31). -/
def idValue : Word := 0x53505A01

end Config

end Sys2Proof
end

