-- ==== Sys2Proof/Machine/State.lean ====
section
/-! DEFINITION. The state of the engine as plain data (spec/10_state.md), the inputs of the host agent, the reasons a step stops, and the state after reset (spec/70_reset_and_hazards.md rule R380). -/

namespace Sys2Proof.Machine

/-- DMEM: the bytes the host or the engine has written since reset, by strictly rising address. An unlisted
address has no value (R46): a read of it is a draw. -/
abbrev Memory := List Host.Cell

/-- The Spritz state (R40). `S` holds `S[0..255]` in the byte packing of its own readback window REG.SP_S
(R38), the 64 words end to end: `S[v]` is bits `[8v+7:8v]` (log entry 7). -/
structure Sponge where
  S : BitVec 2048
  i : Byte
  j : Byte
  k : Byte
  z : Byte
  a : Byte
  w : Byte
  deriving DecidableEq, Repr

/-- `S[v] = v` for every `v`. -/
def identityBox : BitVec 2048 :=
  (List.range 256).foldr (fun v box => box <<< 8 ||| BitVec.ofNat 2048 v) 0

/-- The initial value of the Spritz state (R40, R150). -/
def Sponge.init : Sponge :=
  { S := identityBox, i := 0, j := 0, k := 0, z := 0, a := 0, w := 1 }

/-- A valid entry of the keyring store; `klen` is the length of `key` (R42). -/
structure KeyEntry where
  id : Bytes
  key : Bytes
  deriving DecidableEq, Repr

/-- The keyring store: its valid entries `E[0 .. KR_COUNT-1]` in order, and KR_CUR (R42). KR_COUNT is the
number of entries; the entries at and past it are zeroed and nothing can read them. -/
structure Keyring where
  entries : List KeyEntry
  cur : Nat
  deriving DecidableEq, Repr

/-- The empty store: KR_COUNT = 0, KR_CUR = 0, every entry zeroed (R42). -/
def Keyring.empty : Keyring := { entries := [], cur := 0 }

/-- A descriptor register pair (R37). -/
structure Desc where
  addr : Word
  len : Word
  deriving DecidableEq, Repr

/-- The widths of a host access: 1, 2 or 4 bytes (R82). -/
inductive AccessSize where
  | byte
  | half
  | word
  deriving DecidableEq, Repr

/-- One access of the host (R30, R82): a register read or write at an offset of the 4096-byte REG window,
or a DMEM read or write at a 32-bit address. -/
inductive HostAccess where
  | regRead (off : BitVec 12) (size : AccessSize)
  | regWrite (off : BitVec 12) (size : AccessSize) (v : Word)
  | memRead (addr : Word) (size : AccessSize)
  | memWrite (addr : Word) (size : AccessSize) (v : Word)
  deriving DecidableEq, Repr

/-- Whose turn it is in the one total order of host and engine steps (R88): the engine's, the host's with
the access it makes, or the platform asserting reset (R380). -/
inductive Turn where
  | engine
  | host (access : HostAccess)
  | reset
  deriving DecidableEq, Repr

/-- The state. The last three fields are the model's own: they carry the environment (R30, R88) and count
the draws of U1. STATUS.BUSY is `pend.isSome` (R44) and STATUS.ERR is `ecode ≠ 0` (R33). -/
structure State where
  /-- The build parameters (R10); nothing changes them. -/
  params : Params
  /-- PEND: `none` is (0, 0) and `some c` is (1, c) (R44). -/
  pend : Option Word
  /-- STATUS.DONE (R33). -/
  done : Bool
  /-- STATUS.WERR (R33). -/
  werr : Bool
  /-- STATUS.ECODE (R33). -/
  ecode : Byte
  /-- REG.RES0 (R34). -/
  res0 : Word
  /-- REG.RES1 (R34). -/
  res1 : Word
  /-- The descriptor registers D[0] to D[7] (R37). -/
  desc : Vector Desc 8
  /-- The Spritz state (R40). -/
  sponge : Sponge
  /-- The keyring store (R42). -/
  keyring : Keyring
  /-- The data memory (R46, R80). -/
  dmem : Memory
  /-- How many reads of a byte without a value have been made (log entry 2). -/
  draws : Nat
  /-- The turns to come: an input (log entry 3). -/
  agenda : List Turn
  /-- The values the host's reads have returned, the latest first: an output (log entry 3). -/
  hostReads : List Word
  deriving DecidableEq, Repr

/-- Why the machine stands still. -/
inductive Fault where
  /-- Raised by the engine's step when PEND.valid = 0: "The engine has no step when PEND.valid = 0" (R113).
  The machine is idle and waits for a turn of the host. Safe: no transition is invented. -/
  | noCommandPending
  deriving DecidableEq, Repr

/-- Why the model gives no meaning to what it was asked. -/
inductive Refusal where
  /-- An instruction that has no meaning in `exec`. No arm raises it. Safe. -/
  | notModelled (mnemonic : String)
  /-- Raised for a host access that breaks R82. R384 and U3 give it no step: "it is not among the host's
  transitions". Safe. -/
  | hostAccessViolation
  deriving DecidableEq, Repr

/-- The reset table of R380, for given build parameters; no turn has been taken. -/
def State.resetWith (p : Params) : State :=
  { params := p
    pend := none
    done := false
    werr := false
    ecode := 0
    res0 := 0
    res1 := 0
    desc := Vector.replicate 8 { addr := 0, len := 0 }
    sponge := Sponge.init
    keyring := Keyring.empty
    dmem := []
    draws := 0
    agenda := []
    hostReads := [] }

/-- The machine right after reset, with the build parameters left open (R380, R10). -/
def State.reset : State := State.resetWith Config.params

end Sys2Proof.Machine
end

