-- ==== Sys2Proof/Machine/Ops.lean ====
section
/-! DEFINITION. The shared operations: DMEM bytes (spec/20_memory.md), the entries of S, and how a command starts and completes (R112, R345, R347 to R349). -/

namespace Sys2Proof.Machine

/-- What a command's meaning answers. -/
abbrev StepOutcome := Host.Outcome State Fault Refusal

/-! ### DMEM -/

/-- The canonical form: addresses strictly rising. No entry can equal what an unlisted address reads as,
which is no value. -/
def Memory.wf : Memory → Bool
  | [] => true
  | [_] => true
  | c :: c' :: rest => decide (c.1 < c'.1) && Memory.wf (c' :: rest)

/-- The byte at an address, or `none` when nothing has written it since reset (R46, R80). -/
def Memory.read : Memory → Nat → Option Byte
  | [], _ => none
  | c :: rest, a => if c.1 = a then some c.2 else Memory.read rest a

/-- Write one byte, and change no other (R80). -/
def Memory.write : Memory → Nat → Byte → Memory
  | [], a, b => [(a, b)]
  | c :: rest, a, b =>
    if a < c.1 then (a, b) :: c :: rest
    else if a = c.1 then (a, b) :: rest
    else c :: Memory.write rest a b

/-- MemWrite (R13): the bytes `bs` at `a`, `a+1`, ... -/
def Memory.writeBytes : Memory → Nat → Bytes → Memory
  | m, _, [] => m
  | m, a, b :: bs => Memory.writeBytes (Memory.write m a b) (a + 1) bs

/-- MemRead (R13) of `n` bytes at `a`, with the number of draws made so far: each byte that has no value
draws one of its own, and the draw does not make it written (R46, U1). -/
def memRead (m : Memory) : Nat → Nat → Nat → Bytes × Nat
  | _, 0, d => ([], d)
  | a, n + 1, d =>
    match Memory.read m a with
    | some b => let r := memRead m (a + 1) n d; (b :: r.1, r.2)
    | none => let r := memRead m (a + 1) n (d + 1); (Config.dmemDraw d :: r.1, r.2)

/-! ### The registers S[0..255] -/

/-- `S[p]` (R38, R40). -/
def boxGet (S : BitVec 2048) (p : Byte) : Byte := S.extractLsb' (8 * p.toNat) 8

/-- `S` with `S[p] <- v`. -/
def boxSet (S : BitVec 2048) (p v : Byte) : BitVec 2048 :=
  (S &&& ~~~(0xFF#2048 <<< (8 * p.toNat))) ||| (v.setWidth 2048 <<< (8 * p.toNat))

/-- `S[p]` of a Spritz state. -/
def Sponge.at (g : Sponge) (p : Byte) : Byte := boxGet g.S p

/-- `Swap(S[p], S[q])`, which is no change when `p = q` (R150 to R163). -/
def Sponge.swap (g : Sponge) (p q : Byte) : Sponge :=
  { g with S := boxSet (boxSet g.S p (g.at q)) q (g.at p) }

/-! ### Error kinds -/

/-- The error kinds of R341, without OK. -/
inductive ErrorKind where
  /-- Never raised by the engine: a host-only kind (R343). -/
  | keyMaterialUnreadable
  | noUsableKeys
  | lookupFailure
  | invalidEncoding
  | malformedMessage
  | authenticationFailure
  | illegalCommand
  | reservedField
  | addressRange
  | overlap
  | destTooSmall
  | badLength
  | capacityExceeded
  | invalidHeaderList
  deriving DecidableEq, Repr

/-- The ECODE of an error kind (R341). -/
def errorCode : ErrorKind → Byte
  | .keyMaterialUnreadable => 0x01
  | .noUsableKeys => 0x02
  | .lookupFailure => 0x03
  | .invalidEncoding => 0x04
  | .malformedMessage => 0x05
  | .authenticationFailure => 0x06
  | .illegalCommand => 0x10
  | .reservedField => 0x11
  | .addressRange => 0x12
  | .overlap => 0x13
  | .destTooSmall => 0x14
  | .badLength => 0x15
  | .capacityExceeded => 0x16
  | .invalidHeaderList => 0x17

/-! ### The lifecycle of a command -/

/-- Command start (R112): PEND takes the word, which is BUSY = 1; DONE, ERR, ECODE, RES0 and RES1 clear;
WERR and all else stay. -/
def State.startCommand (s : State) (c : Word) : State :=
  { s with pend := some c, done := false, ecode := 0, res0 := 0, res1 := 0 }

/-- The end of a command's step (R345, R349): BUSY falls with PEND, DONE rises, and the code and results
are recorded. WERR is unchanged. -/
def State.finish (s : State) (code : Byte) (res0 res1 : Word) : State :=
  { s with pend := none, done := true, ecode := code, res0 := res0, res1 := res1 }

/-- Error completion (R345): the engine's one way to report an error. No state is saved and no control
moves (R340, R353). -/
def State.raise (s : State) (e : ErrorKind) : State := s.finish (errorCode e) 0 0

/-- The address a descriptor names (R37). -/
def State.regionAddr (s : State) (n : Fin 8) : Nat := s.desc[n].addr.toNat

/-- The length a descriptor names (R37); the capacity of a destination. -/
def State.regionLen (s : State) (n : Fin 8) : Nat := s.desc[n].len.toNat

/-- Commit the MemWrites of an outcome (R14, R349), each the bytes written at the start of a destination
region; the bytes past them stay (R86). -/
def State.commit (s : State) (writes : List (Fin 8 × Bytes)) : State :=
  { s with dmem := writes.foldl (fun m w => m.writeBytes (s.regionAddr w.1) w.2) s.dmem }

/-- Success completion (R349) of the outcome `complete(res0, res1, writes)`. -/
def State.complete (s : State) (res0 res1 : Word) (writes : List (Fin 8 × Bytes)) : State :=
  (s.commit writes).finish 0 res0 res1

/-- Scrub (R348): the last action of a high-level command that reached the Spritz state. -/
def State.scrub (s : State) : State := { s with sponge := Sponge.init }

/-- `KRStore <- E, cur` (R278). -/
def State.setKeyring (s : State) (k : Keyring) : State := { s with keyring := k }

/-- `KRStore <- empty` (R280, R314). -/
def State.clearKeyring (s : State) : State := s.setKeyring Keyring.empty

/-- The reset the platform asserts (R380): every piece of state takes its reset value and a pending command
is abandoned. The build parameters stay, and so do the model's own inputs, outputs and draw count. -/
def State.reassertReset (s : State) : State :=
  { State.resetWith s.params with draws := s.draws, agenda := s.agenda, hostReads := s.hostReads }

end Sys2Proof.Machine
end

