-- ==== Sys2Proof/Machine/Flags.lean ====
section
/-! DEFINITION. The flags: STATUS and its fields (R33, R45), and what a host write to STATUS clears. -/

namespace Sys2Proof.Machine

/-- STATUS.BUSY always equals PEND.valid (R44). -/
def State.busy (s : State) : Bool := s.pend.isSome

/-- STATUS.ERR: 1 when and only when ECODE ≠ 0 (R33). -/
def State.err (s : State) : Bool := decide (s.ecode ≠ 0)

/-- REG.STATUS as read (R33): ECODE in bits 15:8, then WERR, ERR, DONE and BUSY in bits 3 to 0; the
reserved bits read 0. -/
def State.statusWord (s : State) : Word :=
  (0 : BitVec 16) ++ s.ecode ++ (0 : BitVec 4) ++ BitVec.ofBool s.werr ++ BitVec.ofBool s.err ++
    BitVec.ofBool s.done ++ BitVec.ofBool s.busy

/-- A host write to STATUS (R33): bit 1 clears DONE and bit 3 clears WERR, busy or not; a 0 leaves the bit,
and every other bit is ignored. -/
def State.writeStatus (s : State) (v : Word) : State :=
  { s with done := s.done && !v.getLsbD 1, werr := s.werr && !v.getLsbD 3 }

end Sys2Proof.Machine
end

