-- ==== Sys2Proof/Machine/Operands.lean ====
section
/-! DEFINITION. The one operand form: DMEM regions named by descriptors (R37, R114), their checks (R84, R85) and their reads (R13, R86). -/

namespace Sys2Proof.Machine

/-- The region check (R84): `ADDR + LEN ≤ DMEM_BYTES`, exact, with no wrap. -/
def regionInRange (s : State) (n : Fin 8) : Bool :=
  decide (s.regionAddr n + s.regionLen n ≤ s.params.dmemBytes)

/-- Two regions overlap: both have LEN > 0 and they share an address (R85). -/
def regionsOverlap (s : State) (m n : Fin 8) : Bool :=
  decide (0 < s.regionLen m) && decide (0 < s.regionLen n) &&
    (decide (s.regionAddr m < s.regionAddr n + s.regionLen n) &&
      decide (s.regionAddr n < s.regionAddr m + s.regionLen m))

/-- The operand checks of a command, in the order of R346: AddressRange for every descriptor it uses, then
Overlap of a destination with a source or with another destination. -/
def operandError (s : State) (srcs dsts : List (Fin 8)) : Option ErrorKind :=
  if (srcs ++ dsts).all (regionInRange s) then
    if dsts.any (fun d => srcs.any (regionsOverlap s d) || dsts.any (fun e => d != e && regionsOverlap s d e)) then
      some .overlap
    else none
  else some .addressRange

/-- A command over its operands: an operand check that fails is the command's error completion, and
nothing else changes (R346, R347). -/
def withOperands (s : State) (srcs dsts : List (Fin 8)) (body : StepOutcome) : StepOutcome :=
  match operandError s srcs dsts with
  | some e => .next (s.raise e)
  | none => body

/-- `Region(n)` (R13): the bytes a read of the region gives now. -/
def State.region (s : State) (n : Fin 8) : Bytes :=
  (memRead s.dmem (s.regionAddr n) (s.regionLen n) s.draws).1

/-- The state after that read: the draws it made are spent (U1). Nothing the spec names changes. -/
def State.afterRead (s : State) (n : Fin 8) : State :=
  { s with draws := (memRead s.dmem (s.regionAddr n) (s.regionLen n) s.draws).2 }

end Sys2Proof.Machine
end

