-- ==== Sys2Proof/Machine/HostPort.lean ====
section
/-! DEFINITION. The host's side of the engine: the register window (spec/10_state.md rules R31 to R39) and the DMEM port (spec/20_memory.md rules R80 to R83). -/

namespace Sys2Proof.Machine

/-- The registers of the REG window by name; every other offset is reserved (R39). -/
inductive RegName where
  | id
  | cmd
  | status
  | res0
  | res1
  | krCount
  | krCur
  | spIjkz
  | spAw
  | descAddr (n : Fin 8)
  | descLen (n : Fin 8)
  | spS (m : Fin 64)
  | reserved
  deriving DecidableEq, Repr

/-- The register map (R31 to R39), for the offset of an aligned word. -/
def regAt (off : Nat) : RegName :=
  if off = 0x000 then .id
  else if off = 0x004 then .cmd
  else if off = 0x008 then .status
  else if off = 0x00C then .res0
  else if off = 0x010 then .res1
  else if off = 0x014 then .krCount
  else if off = 0x018 then .krCur
  else if off = 0x01C then .spIjkz
  else if off = 0x020 then .spAw
  else if 0x040 ≤ off ∧ off < 0x080 then
    if (off - 0x040) % 8 = 0 then .descAddr (Fin.ofNat 8 ((off - 0x040) / 8))
    else .descLen (Fin.ofNat 8 ((off - 0x040) / 8))
  else if 0x100 ≤ off ∧ off < 0x200 then .spS (Fin.ofNat 64 ((off - 0x100) / 4))
  else .reserved

/-- REG.SP_IJKZ (R36): i, j, k, z from the low byte up. -/
def Sponge.ijkz (g : Sponge) : Word := g.z ++ g.k ++ g.j ++ g.i

/-- REG.SP_AW (R36): a, then w; the rest reads 0. -/
def Sponge.aw (g : Sponge) : Word := (0 : BitVec 16) ++ g.w ++ g.a

/-- Word `m` of REG.SP_S (R38): `S[4m + b]` in byte `b`, the lowest first. -/
def Sponge.window (g : Sponge) (m : Fin 64) : Word :=
  g.at (BitVec.ofNat 8 (4 * m.val + 3)) ++ g.at (BitVec.ofNat 8 (4 * m.val + 2)) ++
    g.at (BitVec.ofNat 8 (4 * m.val + 1)) ++ g.at (BitVec.ofNat 8 (4 * m.val))

/-- REG.KR_CUR (R35): 0 when the store is empty. -/
def Keyring.curWord (kr : Keyring) : Word :=
  if kr.entries.length = 0 then 0 else BitVec.ofNat 32 kr.cur

/-- What a read of a register returns; no read has a side effect (R81). CMD and the reserved offsets read 0
(R32, R39). -/
def State.readReg (s : State) (r : RegName) : Word :=
  match r with
  | .id => Config.idValue
  | .cmd => 0
  | .status => s.statusWord
  | .res0 => s.res0
  | .res1 => s.res1
  | .krCount => BitVec.ofNat 32 s.keyring.entries.length
  | .krCur => s.keyring.curWord
  | .spIjkz => s.sponge.ijkz
  | .spAw => s.sponge.aw
  | .descAddr n => s.desc[n].addr
  | .descLen n => s.desc[n].len
  | .spS m => s.sponge.window m
  | .reserved => 0

/-- A write that BUSY turns away (R32, R37): WERR is set and nothing else changes. -/
def State.whenIdle (s s' : State) : State := if s.busy then { s with werr := true } else s'

/-- What a write to a register does (R81): CMD starts a command (R32, R112), STATUS clears its W1C bits (R33),
a descriptor register takes the value (R37); every other write is ignored. -/
def State.writeReg (s : State) (r : RegName) (v : Word) : State :=
  match r with
  | .cmd => s.whenIdle (s.startCommand v)
  | .status => s.writeStatus v
  | .descAddr n => s.whenIdle { s with desc := s.desc.set n { s.desc[n] with addr := v } }
  | .descLen n => s.whenIdle { s with desc := s.desc.set n { s.desc[n] with len := v } }
  | .id => s
  | .res0 => s
  | .res1 => s
  | .krCount => s
  | .krCur => s
  | .spIjkz => s
  | .spAw => s
  | .spS _ => s
  | .reserved => s

/-- The bytes of an access (R82). -/
def accessBytes (size : AccessSize) : Nat :=
  match size with
  | .byte => 1
  | .half => 2
  | .word => 4

/-- The lowest `n` bytes of a word, the lowest first (R83). -/
def bytesLe : Nat → Word → Bytes
  | 0, _ => []
  | n + 1, v => v.setWidth 8 :: bytesLe n (v >>> 8)

/-- The word of a little-endian byte string, widened with zeros (R83). -/
def wordLe : Bytes → Word
  | [] => 0
  | b :: bs => (wordLe bs <<< 8) ||| b.setWidth 32

/-- The accesses R82 allows: REG by aligned words, DMEM aligned to the size and below DMEM_BYTES. -/
def accessAllowed (s : State) (a : HostAccess) : Bool :=
  match a with
  | .regRead off size => decide (size = .word) && decide (off.toNat % 4 = 0)
  | .regWrite off size _ => decide (size = .word) && decide (off.toNat % 4 = 0)
  | .memRead addr size =>
    decide (addr.toNat % accessBytes size = 0) && decide (addr.toNat + accessBytes size ≤ s.params.dmemBytes)
  | .memWrite addr size _ =>
    decide (addr.toNat % accessBytes size = 0) && decide (addr.toNat + accessBytes size ≤ s.params.dmemBytes)

/-- The state with one more value returned to the host. -/
def State.answer (s : State) (v : Word) : State := { s with hostReads := v :: s.hostReads }

/-- The effect of an allowed access. -/
def State.access (s : State) (a : HostAccess) : State :=
  match a with
  | .regRead off _ => s.answer (s.readReg (regAt off.toNat))
  | .regWrite off _ v => s.writeReg (regAt off.toNat) v
  | .memRead addr size =>
    let r := memRead s.dmem addr.toNat (accessBytes size) s.draws
    State.answer { s with draws := r.2 } (wordLe r.1)
  | .memWrite addr size v =>
    { s with dmem := s.dmem.writeBytes addr.toNat (bytesLe (accessBytes size) v) }

/-- The host's step (R30, R82): an access that breaks R82 is not among its transitions (R384). -/
def hostStep (a : HostAccess) (s : State) : StepOutcome :=
  if accessAllowed s a then .next (s.access a) else .refused .hostAccessViolation

end Sys2Proof.Machine
end

