-- ==== Sys2Proof/Machine/Spritz.lean ====
section
/-! DEFINITION. The internal procedures of the permutation sponge (spec/40_spritz_core.md rules R150 to R163), each a total function of the Spritz state (R165). -/

namespace Sys2Proof.Machine

/-- Update (R151): each line uses the values the lines above it wrote. -/
def update (g : Sponge) : Sponge :=
  let i := g.i + g.w
  let j := g.k + g.at (g.j + g.at i)
  let k := i + g.k + g.at j
  Sponge.swap { g with i := i, j := j, k := k } i j

/-- Output (R152): the byte returned is the new `z`. -/
def output (g : Sponge) : Sponge :=
  { g with z := g.at (g.j + g.at (g.i + g.at (g.z + g.k))) }

/-- `r` Updates in a row. -/
def updates : Nat → Sponge → Sponge
  | 0, g => g
  | r + 1, g => updates r (update g)

/-- NextW (R155): for N = 256 and odd `w`, `w + 2` modulo 256. -/
def nextW (w : Byte) : Byte := w + 2

/-- Whip (R153). -/
def whip (r : Nat) (g : Sponge) : Sponge :=
  let h := updates r g
  { h with w := nextW h.w }

/-- One turn of Crush's loop (R154): put the mirror-image entries `S[v]`, `S[255 - v]` in order. -/
def crushAt (g : Sponge) (v : Nat) : Sponge :=
  if g.at (BitVec.ofNat 8 v) > g.at (BitVec.ofNat 8 (255 - v)) then
    g.swap (BitVec.ofNat 8 v) (BitVec.ofNat 8 (255 - v))
  else g

/-- Crush (R154). -/
def crush (g : Sponge) : Sponge := (List.range 128).foldl crushAt g

/-- Shuffle (R156). -/
def shuffle (g : Sponge) : Sponge :=
  { whip 512 (crush (whip 512 (crush (whip 512 g)))) with a := 0 }

/-- AbsorbNibble (R158), for a nibble `0 ≤ x ≤ 15`: the shuffle, at `a = 128` exactly, comes before the swap. -/
def absorbNibble (g : Sponge) (x : Byte) : Sponge :=
  let h := if g.a = 128 then shuffle g else g
  { h.swap h.a (128 + x) with a := h.a + 1 }

/-- AbsorbByte (R157): the low nibble first. -/
def absorbByte (g : Sponge) (b : Byte) : Sponge :=
  absorbNibble (absorbNibble g (b % 16)) (b / 16)

/-- Absorb (R159): the first byte first. -/
def absorb (g : Sponge) (bs : Bytes) : Sponge := bs.foldl absorbByte g

/-- AbsorbLen (R160): a length 0 .. 255 is absorbed as one byte. -/
def absorbLen (g : Sponge) (r : Byte) : Sponge := absorbByte g r

/-- AbsorbStop (R161): one nibble position without a swap. -/
def absorbStop (g : Sponge) : Sponge :=
  let h := if g.a = 128 then shuffle g else g
  { h with a := h.a + 1 }

/-- The shuffle that Drip and Squeeze start with: when `a > 0` (R162, R163). -/
def settle (g : Sponge) : Sponge := if g.a > 0 then shuffle g else g

/-- Drip (R162): the byte is `z` of the state it leaves. -/
def drip (g : Sponge) : Byte × Sponge :=
  let h := output (update (settle g))
  (h.z, h)

/-- `r` Drips in a row, their bytes in order. -/
def drips : Nat → Sponge → Bytes × Sponge
  | 0, g => ([], g)
  | r + 1, g =>
    let d := drip g
    let rest := drips r d.2
    (d.1 :: rest.1, rest.2)

/-- Squeeze (R163): it shuffles first when `a > 0`, even for `r = 0`. -/
def squeeze (r : Nat) (g : Sponge) : Bytes × Sponge := drips r (settle g)

end Sys2Proof.Machine
end

