-- ==== Sys2Proof/Machine/Aead.lean ====
section
/-! DEFINITION. The AEAD and its commands (spec/42_aead.md): addition of the keystream modulo 256, with the AAD absorbed before it (C1, C2). -/

namespace Sys2Proof.Machine

/-- The state after the key, the nonce and the AAD are absorbed, each with its stop (R210, R212). -/
def aeadKeyed (k z h : Bytes) : Sponge :=
  absorbStop (absorb (absorbStop (absorb (absorbStop (absorb Sponge.init k)) z)) h)

/-- Keystream(K, Z, H, n) (R211). -/
def keystream (k z h : Bytes) (n : Nat) : Bytes := (squeeze n (aeadKeyed k z h)).1

/-- The tag over a ciphertext `c`: the keystream of its length is squeezed first (R210, R212). -/
def aeadTag (k z h c : Bytes) (r : Byte) : Bytes :=
  (squeeze r.toNat (absorbLen (absorbStop (absorb (squeeze c.length (aeadKeyed k z h)).2 c)) r)).1

/-- SealCore (R210): ciphertext, then tag. -/
def sealCore (k z h m : Bytes) (r : Byte) : Bytes :=
  let c := List.zipWith (· + ·) m (keystream k z h m.length)
  c ++ aeadTag k z h c r

/-- TagEqual (R215): the OR of the XOR of all byte pairs, with no early exit. -/
def tagEqual (t u : Bytes) : Bool :=
  (List.zipWith (· ^^^ ·) t u).foldl (· ||| ·) 0 == 0

/-- OpenCore (R212): `none` is AuthFail, for a short input and for a tag that differs alike. -/
def openCore (k z h x : Bytes) (r : Byte) : Option Bytes :=
  if x.length < r.toNat then none
  else
    let c := x.take (x.length - r.toNat)
    let t := x.drop (x.length - r.toNat)
    if tagEqual t (aeadTag k z h c r) then
      some (List.zipWith (· - ·) c (keystream k z h c.length))
    else none

/-- AEAD_SEAL (R213). -/
def execAeadSeal (r : Byte) (s : State) : StepOutcome :=
  withOperands s [0, 1, 2, 3] [4] <|
    if s.regionLen 1 ≠ Config.nonceBytes then .next (s.raise .badLength)
    else if s.regionLen 3 + r.toNat > s.regionLen 4 then .next (s.raise .destTooSmall)
    else
      let k := s.region 0
      let s1 := s.afterRead 0
      let z := s1.region 1
      let s2 := s1.afterRead 1
      let h := s2.region 2
      let s3 := s2.afterRead 2
      let m := s3.region 3
      let s4 := s3.afterRead 3
      .next (s4.complete (BitVec.ofNat 32 (s.regionLen 3 + r.toNat)) 0 [(4, sealCore k z h m r)]).scrub

/-- AEAD_OPEN (R214): DestTooSmall only when the input is long enough to hold its tag; a failed opening
writes nothing and still scrubs (R348). -/
def execAeadOpen (r : Byte) (s : State) : StepOutcome :=
  withOperands s [0, 1, 2, 3] [4] <|
    if s.regionLen 1 ≠ Config.nonceBytes then .next (s.raise .badLength)
    else if s.regionLen 3 ≥ r.toNat ∧ s.regionLen 3 - r.toNat > s.regionLen 4 then .next (s.raise .destTooSmall)
    else
      let k := s.region 0
      let s1 := s.afterRead 0
      let z := s1.region 1
      let s2 := s1.afterRead 1
      let h := s2.region 2
      let s3 := s2.afterRead 2
      let x := s3.region 3
      let s4 := s3.afterRead 3
      match openCore k z h x r with
      | none => .next (s4.raise .authenticationFailure).scrub
      | some m => .next (s4.complete (BitVec.ofNat 32 m.length) 0 [(4, m)]).scrub

end Sys2Proof.Machine
end

