-- ==== Sys2Proof/Machine/Base85.lean ====
section
/-! DEFINITION. The base-85 codec and its commands (spec/43_base85.md). -/

namespace Sys2Proof.Machine

/-- The symbol of digit 4 under a B85_VARIANT (R241). -/
def symbolFour (v : Fin 6) : Byte :=
  match v with
  | 0 | 1 => 0x27
  | 2 | 3 => 0x28
  | 4 | 5 => 0x29

/-- The symbol of digit 6 under a B85_VARIANT (R241). -/
def symbolSix (v : Fin 6) : Byte :=
  match v with
  | 0 | 2 | 4 => 0x2B
  | 1 | 3 | 5 => 0x2C

/-- The 85 symbols, digit 0 first (R240): the two open ones in their places, then the runs `0` to `[`,
`^` to `|`, and `~`. -/
def alphabet (v : Fin 6) : Bytes :=
  [0x21, 0x23, 0x25, 0x26, symbolFour v, 0x2A, symbolSix v, 0x2D, 0x2E] ++
    (List.range 44).map (fun d => BitVec.ofNat 8 (0x30 + d)) ++
    (List.range 31).map (fun d => BitVec.ofNat 8 (0x5E + d)) ++ [0x7E]

/-- Sym(d), for a digit `0 ≤ d ≤ 84` (R242). -/
def sym (v : Fin 6) (d : Nat) : Byte := (alphabet v).getD d 0

/-- Digit(c): `none` when `c` is not in the alphabet (R242). -/
def digit (v : Fin 6) (c : Byte) : Option Nat := (alphabet v).idxOf? c

/-- The integer whose big-endian representation is a byte string (R12). -/
def beValue (bs : Bytes) : Nat := bs.foldl (fun n b => n * 256 + b.toNat) 0

/-- The `n`-byte big-endian representation of an integer (R12). -/
def bytesBe : Nat → Nat → Bytes
  | 0, _ => []
  | n + 1, v => BitVec.ofNat 8 (v / 256 ^ n) :: bytesBe n v

/-- The five base-85 digits of a value below 2^32, most significant first (R250). -/
def digits85 (v : Nat) : List Nat :=
  [v / 85 ^ 4, v / 85 ^ 3 % 85, v / 85 ^ 2 % 85, v / 85 % 85, v % 85]

/-- One group of 1 to 4 bytes: zero-padded, big-endian, cut to one symbol more than it has bytes (R250, R251). -/
def encodeGroup (v : Fin 6) (g : Bytes) : Bytes :=
  ((digits85 (beValue (g ++ List.replicate (4 - g.length) 0))).take (g.length + 1)).map (sym v)

/-- Enc85 (R250): groups of 4 bytes from the start. -/
def enc85 (v : Fin 6) : Bytes → Bytes
  | a :: b :: c :: d :: rest => encodeGroup v [a, b, c, d] ++ enc85 v rest
  | [] => []
  | tail => encodeGroup v tail

/-- The length of Enc85 of `n` bytes (R252); EL of R311. -/
def encodedLength (n : Nat) : Nat := 5 * (n / 4) + (if n % 4 = 0 then 0 else n % 4 + 1)

/-- The length of Dec85 of `n` symbols, `n mod 5 ≠ 1` (R254). -/
def decodedLength (n : Nat) : Nat := 4 * (n / 5) + (if n % 5 = 0 then 0 else n % 5 - 1)

/-- The value of five digits, most significant first (R253). -/
def value85 (ds : List Nat) : Nat := ds.foldl (fun n d => n * 85 + d) 0

/-- The digits of a run of symbols, `none` when one is outside the alphabet (R253). -/
def symbolDigits (v : Fin 6) : Bytes → Option (List Nat)
  | [] => some []
  | c :: cs =>
    match digit v c, symbolDigits v cs with
    | some d, some ds => some (d :: ds)
    | _, _ => none

/-- One group of 2 to 5 symbols: padded with the top digit, and rejected for a byte outside the alphabet
(R253) or a value of 2^32 or more (R255). -/
def decodeGroup (v : Fin 6) (q : Bytes) : Option Bytes :=
  match symbolDigits v q with
  | none => none
  | some ds =>
    let n := value85 (ds ++ List.replicate (5 - q.length) 84)
    if n ≥ 2 ^ 32 then none else some ((bytesBe 4 n).take (q.length - 1))

/-- The groups of Dec85 in order, the first failure ending the decoding (R253). -/
def decodeGroups (v : Fin 6) : Bytes → Option Bytes
  | a :: b :: c :: d :: e :: rest =>
    match decodeGroup v [a, b, c, d, e] with
    | none => none
    | some g => (decodeGroups v rest).map (g ++ ·)
  | [] => some []
  | tail => decodeGroup v tail

/-- Dec85 (R253): `none` is InvalidEncoding. A dangling single symbol fails (R254). -/
def dec85 (v : Fin 6) (t : Bytes) : Option Bytes :=
  if t.length % 5 = 1 then none else decodeGroups v t

/-- B85_ENC (R257). -/
def execB85Enc (s : State) : StepOutcome :=
  withOperands s [0] [1] <|
    let n := encodedLength (s.regionLen 0)
    if n > s.regionLen 1 then .next (s.raise .destTooSmall)
    else
      .next ((s.afterRead 0).complete (BitVec.ofNat 32 n) 0 [(1, enc85 s.params.b85Variant (s.region 0))])

/-- B85_DEC (R258): the length checks come before the symbol check. -/
def execB85Dec (s : State) : StepOutcome :=
  withOperands s [0] [1] <|
    if s.regionLen 0 % 5 = 1 then .next (s.raise .invalidEncoding)
    else
      let n := decodedLength (s.regionLen 0)
      if n > s.regionLen 1 then .next (s.raise .destTooSmall)
      else
        match dec85 s.params.b85Variant (s.region 0) with
        | none => .next ((s.afterRead 0).raise .invalidEncoding)
        | some y => .next ((s.afterRead 0).complete (BitVec.ofNat 32 n) 0 [(1, y)])

end Sys2Proof.Machine
end

