-- ==== Sys2Proof/Machine/Hash.lean ====
section
/-! DEFINITION. The hash, key identifiers and their commands (spec/41_hash_keyid.md). -/

namespace Sys2Proof.Machine

/-- Hash(M, r) (R190): absorb, stop, absorb the length, squeeze. -/
def spritzHash (m : Bytes) (r : Byte) : Bytes :=
  (squeeze r.toNat (absorbLen (absorbStop (absorb Sponge.init m)) r)).1

/-- KeyIdDigest(K) = Hash(K, 8) (R192). -/
def keyIdDigest (k : Bytes) : Bytes := spritzHash k 8

/-- KeyIdText(K) = Enc85(KeyIdDigest(K)), encoded once (R192, C3). -/
def keyIdText (v : Fin 6) (k : Bytes) : Bytes := enc85 v (keyIdDigest k)

/-- HASH (R191): a high-level command, so it scrubs (R348). -/
def execHash (r : Byte) (s : State) : StepOutcome :=
  withOperands s [0] [1] <|
    if r.toNat > s.regionLen 1 then .next (s.raise .destTooSmall)
    else .next ((s.afterRead 0).complete (r.setWidth 32) 0 [(1, spritzHash (s.region 0) r)]).scrub

/-- KEYID (R193): an empty key is accepted. -/
def execKeyid (s : State) : StepOutcome :=
  withOperands s [0] [1] <|
    if s.regionLen 1 < Config.keyIdTextBytes then .next (s.raise .destTooSmall)
    else
      .next ((s.afterRead 0).complete (BitVec.ofNat 32 Config.keyIdTextBytes) 0
        [(1, keyIdText s.params.b85Variant (s.region 0))]).scrub

end Sys2Proof.Machine
end

