-- ==== Sys2Proof/Machine/Keyring.lean ====
section
/-! DEFINITION. The keyring selector and its commands (spec/44_keyring.md). -/

namespace Sys2Proof.Machine

/-- Cut a byte string at every `sep` (R271, R309): the pieces, without the separators; `ε` is one piece. -/
def splitOn (sep : Byte) : Bytes → List Bytes
  | [] => [[]]
  | b :: bs =>
    if b = sep then [] :: splitOn sep bs
    else
      match splitOn sep bs with
      | [] => [[b]]
      | piece :: pieces => (b :: piece) :: pieces

/-- Lines (R271): the pieces between LF bytes. -/
def lines (m : Bytes) : List Bytes := splitOn 0x0A m

/-- TAB, LF, VT, FF, CR and space (R272). -/
def isSpace (b : Byte) : Bool :=
  b == 0x09 || b == 0x0A || b == 0x0B || b == 0x0C || b == 0x0D || b == 0x20

/-- FirstToken (R272): `none` for a blank line. -/
def firstToken (line : Bytes) : Option Bytes :=
  match (line.dropWhile isSpace).takeWhile (fun b => !isSpace b) with
  | [] => none
  | t => some t

/-- Register (R274): replace the key of an entry with the same id in place, else append while there is
room. Answers the entries and the index of the one registered (R275). -/
def registerKey (max : Nat) (es : List KeyEntry) (e : KeyEntry) : Except ErrorKind (List KeyEntry × Nat) :=
  match es.findIdx? (fun x => x.id == e.id) with
  | some n => .ok (es.set n e, n)
  | none => if es.length = max then .error .capacityExceeded else .ok (es ++ [e], es.length)

/-- The key a first token stands for (R270, R276). -/
def tokenKey (p : Params) (t : Bytes) : Except ErrorKind Bytes :=
  match dec85 p.b85Variant t with
  | none => .error .invalidEncoding
  | some key => if key.length > p.keyMaxBytes then .error .capacityExceeded else .ok key

/-- The loop of LoadKeyring over the lines (R270), from the entries and the current index so far. -/
def loadLines (p : Params) : List Bytes → List KeyEntry → Option Nat → Except ErrorKind (List KeyEntry × Option Nat)
  | [], es, cur => .ok (es, cur)
  | line :: rest, es, cur =>
    match firstToken line with
    | none => loadLines p rest es cur
    | some t =>
      match tokenKey p t with
      | .error e => .error e
      | .ok key =>
        match registerKey p.krMaxEntries es { id := keyIdDigest key, key := key } with
        | .error e => .error e
        | .ok r => loadLines p rest r.1 (some r.2)

/-- LoadKeyring (R270): NoUsableKeys when no line holds a token (R276). -/
def loadKeyring (p : Params) (m : Bytes) : Except ErrorKind Keyring :=
  match loadLines p (lines m) [] none with
  | .error e => .error e
  | .ok (_, none) => .error .noUsableKeys
  | .ok (es, some cur) => .ok { entries := es, cur := cur }

/-- Lookup (R277): the index and the key of the entry with the id a text decodes to. -/
def lookupKey (v : Fin 6) (es : List KeyEntry) (t : Bytes) : Except ErrorKind (Nat × Bytes) :=
  match dec85 v t with
  | none => .error .invalidEncoding
  | some d =>
    if d.length ≠ Config.keyIdBytes then .error .lookupFailure
    else
      match es.findIdx? (fun x => x.id == d) with
      | none => .error .lookupFailure
      | some n => .ok (n, (es.getD n { id := [], key := [] }).key)

/-- KR_LOAD (R278): a failed load leaves the store empty. -/
def execKrLoad (s : State) : StepOutcome :=
  withOperands s [0] [] <|
    let t := s.afterRead 0
    match loadKeyring s.params (s.region 0) with
    | .error e => .next (t.clearKeyring.raise e).scrub
    | .ok kr =>
      .next ((t.setKeyring kr).complete (BitVec.ofNat 32 kr.entries.length) (BitVec.ofNat 32 kr.cur) []).scrub

/-- KR_LOOKUP (R279): DestTooSmall comes after the lookup. The store and the Spritz state stay. -/
def execKrLookup (s : State) : StepOutcome :=
  withOperands s [0] [1] <|
    let t := s.afterRead 0
    match lookupKey s.params.b85Variant s.keyring.entries (s.region 0) with
    | .error e => .next (t.raise e)
    | .ok (n, key) =>
      if key.length > s.regionLen 1 then .next (t.raise .destTooSmall)
      else .next (t.complete (BitVec.ofNat 32 key.length) (BitVec.ofNat 32 n) [(1, key)])

/-- KR_CLEAR (R280). -/
def execKrClear (s : State) : StepOutcome :=
  .next (s.clearKeyring.complete 0 0 [])

end Sys2Proof.Machine
end

