-- ==== Sys2Proof/Machine/Framer.lean ====
section
/-! DEFINITION. The AEAD framer: AAD composition, token composition and parsing, and the commands FRAME_* (spec/45_framer.md). -/

namespace Sys2Proof.Machine

/-! ### The header mapping -/

/-- Strict bytewise order, a proper beginning before the longer string (R306). -/
def bytesBefore : Bytes → Bytes → Bool
  | _, [] => false
  | [], _ :: _ => true
  | a :: as, b :: bs => if a = b then bytesBefore as bs else decide (a < b)

/-- `Hm[k] <- v` on a mapping held with its keys in the ascending order that R306 serialises: the entry of
the same key is replaced (R304). -/
def mapInsert : List (Bytes × Bytes) → Bytes → Bytes → List (Bytes × Bytes)
  | [], k, v => [(k, v)]
  | e :: rest, k, v =>
    if k = e.1 then (k, v) :: rest
    else if bytesBefore k e.1 then (k, v) :: e :: rest
    else e :: mapInsert rest k v

/-- A field of a header list: a u16 big-endian length and that many bytes (R303), and what follows it;
`none` when the list ends inside it. -/
def takeField : Bytes → Option (Bytes × Bytes)
  | hi :: lo :: rest =>
    let n := beValue [hi, lo]
    if rest.length < n then none else some (rest.take n, rest.drop n)
  | _ => none

/-- The loop of ParseHeaderList (R304), on fuel: every entry takes at least four bytes. -/
def parseEntries : Nat → Bytes → List (Bytes × Bytes) → Option (List (Bytes × Bytes))
  | _, [], hm => some hm
  | 0, _ :: _, _ => none
  | fuel + 1, b :: bs, hm =>
    match takeField (b :: bs) with
    | none => none
    | some (k, afterKey) =>
      match takeField afterKey with
      | none => none
      | some (v, afterValue) => parseEntries fuel afterValue (mapInsert hm k v)

/-- ParseHeaderList (R304): `none` is InvalidHeaderList. -/
def parseHeaderList (b : Bytes) : Option (List (Bytes × Bytes)) := parseEntries b.length b []

/-- A lowercase hex digit (R307). -/
def hexDigit (n : Byte) : Byte := if n < 10 then 0x30 + n else 0x61 + (n - 10)

/-- Esc of one byte (R307). -/
def escByte (b : Byte) : Bytes :=
  if b = 0x22 then [0x5C, 0x22]
  else if b = 0x5C then [0x5C, 0x5C]
  else if b = 0x08 then [0x5C, 0x62]
  else if b = 0x0C then [0x5C, 0x66]
  else if b = 0x0A then [0x5C, 0x6E]
  else if b = 0x0D then [0x5C, 0x72]
  else if b = 0x09 then [0x5C, 0x74]
  else if b < 0x20 then [0x5C, 0x75, 0x30, 0x30, hexDigit (b / 16), hexDigit (b % 16)]
  else [b]

/-- Esc (R307). -/
def escBytes (x : Bytes) : Bytes := x.flatMap escByte

/-- One entry of the serialised mapping: `"` Esc(key) `":"` Esc(value) `"` (R306). -/
def serializeEntry (e : Bytes × Bytes) : Bytes :=
  [0x22] ++ escBytes e.1 ++ [0x22, 0x3A, 0x22] ++ escBytes e.2 ++ [0x22]

/-- The entries with `,` between them (R306). -/
def serializeEntries : List (Bytes × Bytes) → Bytes
  | [] => []
  | [e] => serializeEntry e
  | e :: rest => serializeEntry e ++ [0x2C] ++ serializeEntries rest

/-- Serialize (R306), of a mapping whose keys ascend. -/
def serializeMap (hm : List (Bytes × Bytes)) : Bytes := [0x7B] ++ serializeEntries hm ++ [0x7D]

/-- ComposeAAD (R308): the parsed mapping with the scope injected (R305), serialised; `none` is
InvalidHeaderList. -/
def composeAad (b scope : Bytes) : Option Bytes :=
  (parseHeaderList b).map (fun hm => serializeMap (mapInsert hm Config.scopeField scope))

/-! ### Tokens -/

/-- The length of a token (R311). -/
def tokenLength (headerLen plainLen : Nat) : Nat :=
  Config.keyIdTextBytes + 1 + encodedLength Config.nonceBytes + 1 + encodedLength headerLen + 1 +
    encodedLength (plainLen + Config.protoTagBytes.toNat)

/-- The current entry of a loaded keyring (R275). -/
def Keyring.current (kr : Keyring) : KeyEntry := kr.entries.getD kr.cur { id := [], key := [] }

/-- ComposeToken (R311). -/
def composeToken (v : Fin 6) (kr : Keyring) (z h p : Bytes) : Bytes :=
  enc85 v kr.current.id ++ [Config.fieldSep] ++ enc85 v z ++ [Config.fieldSep] ++ enc85 v h ++ [Config.fieldSep] ++
    enc85 v (sealCore kr.current.key z h p Config.protoTagBytes)

/-- Split (R309). -/
def splitFields (t : Bytes) : List Bytes := splitOn Config.fieldSep t

/-- What ParseToken returns: the key, the nonce, the header and the ciphertext with its tag (R320). -/
structure TokenParts where
  key : Bytes
  nonce : Bytes
  header : Bytes
  sealed : Bytes
  deriving DecidableEq, Repr

/-- The fields of a token, once it has four and the keyring is loaded (R320): the lookup, then the nonce,
the header and the ciphertext in this order, then the nonce's length (R325). -/
def parseFields (v : Fin 6) (kr : Keyring) (f1 f2 f3 f4 : Bytes) : Except ErrorKind TokenParts :=
  match lookupKey v kr.entries f1 with
  | .error e => .error e
  | .ok (_, key) =>
    match dec85 v f2, dec85 v f3, dec85 v f4 with
    | some z, some h, some x =>
      if z.length ≠ Config.nonceBytes then .error .malformedMessage
      else .ok { key := key, nonce := z, header := h, sealed := x }
    | _, _, _ => .error .invalidEncoding

/-- ParseToken (R320): the field count, the load, the fields. -/
def parseToken (p : Params) (m t : Bytes) : Except ErrorKind TokenParts :=
  match splitFields t with
  | [f1, f2, f3, f4] =>
    match loadKeyring p m with
    | .error e => .error e
    | .ok kr => parseFields p.b85Variant kr f1 f2 f3 f4
  | _ => .error .malformedMessage

/-! ### Commands -/

/-- FRAME_AAD (R310). -/
def execFrameAad (s : State) : StepOutcome :=
  withOperands s [0, 1] [2] <|
    let b := s.region 0
    let s1 := s.afterRead 0
    let scope := s1.region 1
    let s2 := s1.afterRead 1
    match composeAad b scope with
    | none => .next (s2.raise .invalidHeaderList)
    | some h =>
      if h.length > s.regionLen 2 then .next (s2.raise .destTooSmall)
      else .next (s2.complete (BitVec.ofNat 32 h.length) 0 [(2, h)])

/-- FRAME_SEAL (R312), its checks in the order of R313; once the load has begun the store ends empty (R314). -/
def execFrameSeal (s : State) : StepOutcome :=
  withOperands s [0, 1, 2, 3, 4] [5] <|
    if s.regionLen 3 ≠ Config.nonceBytes then .next (s.raise .badLength)
    else
      let b := s.region 1
      let s1 := s.afterRead 1
      let scope := s1.region 2
      let s2 := s1.afterRead 2
      match composeAad b scope with
      | none => .next (s2.raise .invalidHeaderList)
      | some h =>
        let n := tokenLength h.length (s.regionLen 4)
        if n > s.regionLen 5 then .next (s2.raise .destTooSmall)
        else
          let m := s2.region 0
          let s3 := s2.afterRead 0
          match loadKeyring s.params m with
          | .error e => .next (s3.clearKeyring.raise e).scrub
          | .ok kr =>
            let z := s3.region 3
            let s4 := s3.afterRead 3
            let p := s4.region 4
            let s5 := s4.afterRead 4
            .next (s5.clearKeyring.complete (BitVec.ofNat 32 n) 0
              [(5, composeToken s.params.b85Variant kr z h p)]).scrub

/-- The end of FRAME_PARSE on parsed parts (R321): DestTooSmall for the header, then for the plaintext, then
the opening. An authentication failure still returns the header (R322). The store ends empty (R314) and the
Spritz state scrubbed (R348) on every path. -/
def frameParseFinish (s : State) (parts : TokenParts) : State :=
  let t := s.clearKeyring
  if parts.header.length > s.regionLen 2 then (t.raise .destTooSmall).scrub
  else if parts.sealed.length ≥ Config.protoTagBytes.toNat ∧
      parts.sealed.length - Config.protoTagBytes.toNat > s.regionLen 3 then
    (t.raise .destTooSmall).scrub
  else
    match openCore parts.key parts.nonce parts.header parts.sealed Config.protoTagBytes with
    | none =>
      ((t.commit [(2, parts.header)]).finish (errorCode .authenticationFailure)
        (BitVec.ofNat 32 parts.header.length) 0).scrub
    | some p =>
      (t.complete (BitVec.ofNat 32 parts.header.length) (BitVec.ofNat 32 p.length)
        [(2, parts.header), (3, p)]).scrub

/-- FRAME_PARSE (R321). The token is read for the field count, which is a pre-check, and again by ParseToken:
a byte without a value draws at each read (U1; log entry 2). DESIGN CHOICE: a count that only the second read's
draws make wrong takes R321's fail arm, which empties the store and scrubs (log entry 11). -/
def execFrameParse (s : State) : StepOutcome :=
  withOperands s [0, 1] [2, 3] <|
    let fields := splitFields (s.region 1)
    let s1 := s.afterRead 1
    if fields.length ≠ 4 then .next (s1.raise .malformedMessage)
    else
      let m := s1.region 0
      let s2 := s1.afterRead 0
      let t := s2.region 1
      let s3 := s2.afterRead 1
      match parseToken s.params m t with
      | .error e => .next (s3.clearKeyring.raise e).scrub
      | .ok parts => .next (frameParseFinish s3 parts)

end Sys2Proof.Machine
end

