-- ==== Sys2Proof/Machine/SpongeCommands.lean ====
section
/-! DEFINITION. The primitive commands SP_* (spec/40_spritz_core.md rules R170 to R176). They act on the architectural Spritz state and never scrub it (R348). -/

namespace Sys2Proof.Machine

/-- The state with another Spritz state. -/
def State.setSponge (s : State) (g : Sponge) : State := { s with sponge := g }

/-- SP_INIT (R170). -/
def execSpInit (s : State) : StepOutcome :=
  .next ((s.setSponge Sponge.init).complete 0 0 [])

/-- SP_ABSORB (R171): absorb Region(0); no stop. -/
def execSpAbsorb (s : State) : StepOutcome :=
  withOperands s [0] [] <|
    let t := s.afterRead 0
    .next ((t.setSponge (absorb t.sponge (s.region 0))).complete 0 0 [])

/-- SP_ABSORB_IMM (R172): absorb the byte in IMM8. -/
def execSpAbsorbImm (b : Byte) (s : State) : StepOutcome :=
  .next ((s.setSponge (absorbByte s.sponge b)).complete 0 0 [])

/-- SP_ABSORB_STOP (R173). -/
def execSpAbsorbStop (s : State) : StepOutcome :=
  .next ((s.setSponge (absorbStop s.sponge)).complete 0 0 [])

/-- SP_SHUFFLE (R174): it shuffles even when `a = 0`. -/
def execSpShuffle (s : State) : StepOutcome :=
  .next ((s.setSponge (shuffle s.sponge)).complete 0 0 [])

/-- SP_SQUEEZE (R175): D0.LEN bytes of keystream into D0. -/
def execSpSqueeze (s : State) : StepOutcome :=
  withOperands s [] [0] <|
    let p := squeeze (s.regionLen 0) s.sponge
    .next ((s.setSponge p.2).complete (BitVec.ofNat 32 (s.regionLen 0)) 0 [(0, p.1)])

/-- SP_DRIP (R176): one output byte into RES0. -/
def execSpDrip (s : State) : StepOutcome :=
  let d := drip s.sponge
  .next ((s.setSponge d.2).complete (d.1.setWidth 32) 0 [])

end Sys2Proof.Machine
end

