-- ==== Sys2Proof/Machine/System.lean ====
section
/-! DEFINITION. The system command NOP (spec/49_system.md). -/

namespace Sys2Proof.Machine

/-- NOP (R330): the command lifecycle and nothing else. -/
def execNop (s : State) : StepOutcome := .next (s.complete 0 0 [])

end Sys2Proof.Machine
end

