-- ==== Sys2Proof/Machine/Dispatch.lean ====
section
/-! DEFINITION. Each command to its meaning, in the order of the opcode map (spec/30_encoding.md rule R115). -/

namespace Sys2Proof.Machine

def exec (i : Instr) (s : State) : Host.Outcome State Fault Refusal :=
  match i with
  | .nop => Sys2Proof.Machine.execNop s
  | .spInit => Sys2Proof.Machine.execSpInit s
  | .spAbsorb => Sys2Proof.Machine.execSpAbsorb s
  | .spAbsorbImm b => Sys2Proof.Machine.execSpAbsorbImm b s
  | .spAbsorbStop => Sys2Proof.Machine.execSpAbsorbStop s
  | .spShuffle => Sys2Proof.Machine.execSpShuffle s
  | .spSqueeze => Sys2Proof.Machine.execSpSqueeze s
  | .spDrip => Sys2Proof.Machine.execSpDrip s
  | .hash r => Sys2Proof.Machine.execHash r s
  | .keyid => Sys2Proof.Machine.execKeyid s
  | .aeadSeal r => Sys2Proof.Machine.execAeadSeal r s
  | .aeadOpen r => Sys2Proof.Machine.execAeadOpen r s
  | .b85Enc => Sys2Proof.Machine.execB85Enc s
  | .b85Dec => Sys2Proof.Machine.execB85Dec s
  | .krLoad => Sys2Proof.Machine.execKrLoad s
  | .krLookup => Sys2Proof.Machine.execKrLookup s
  | .krClear => Sys2Proof.Machine.execKrClear s
  | .frameAad => Sys2Proof.Machine.execFrameAad s
  | .frameSeal => Sys2Proof.Machine.execFrameSeal s
  | .frameParse => Sys2Proof.Machine.execFrameParse s

end Sys2Proof.Machine
end

