-- ==== Sys2Proof/Machine/Lifecycle.lean ====
section
/-! DEFINITION. The engine's step: decode the pending word and run its command, or raise the error of a failed decode check (spec/30_encoding.md rules R113, R116, R117), and the engine's turn put first. -/

namespace Sys2Proof.Machine

/-- The error kind of a failed decode check (R116, R117). -/
def decodeErrorKind (e : DecodeError) : ErrorKind :=
  match e with
  | .illegalCommand => .illegalCommand
  | .reservedField => .reservedField

/-- The engine's step (R113): decode PEND.word and run the command to its completion. -/
def engineStep (s : State) : Host.Outcome State Fault Refusal :=
  match s.pend with
  | none => .fault .noCommandPending
  | some c =>
    match decode c with
    | .error e => .next (s.raise (decodeErrorKind e))
    | .ok i => exec i s

/-- The agenda with the engine's turn first: an empty agenda already gives it the turn. -/
def engineFirst (turns : List Turn) : List Turn :=
  match turns with
  | [] => []
  | t :: rest => .engine :: t :: rest

end Sys2Proof.Machine
end

