-- ==== Sys2Proof/Machine/Step.lean ====
section
/-! DEFINITION. One step of the machine (spec/10_state.md rule R30, spec/20_memory.md rule R88): the agent whose turn it is takes one atomic step. -/

namespace Sys2Proof.Machine

/-- One step. The next turn of the agenda is taken; when no turn is left, it is the engine's. -/
def step (s : State) : Host.Outcome State Fault Refusal :=
  match s.agenda with
  | [] => engineStep s
  | .engine :: rest => engineStep { s with agenda := rest }
  | .host a :: rest => hostStep a { s with agenda := rest }
  | .reset :: rest => .next (State.reassertReset { s with agenda := rest })

/-- `s` with a command word pending, as a CMD write of it leaves an idle engine (R112), and the engine's turn
next. -/
def State.withFetchWord (s : State) (nbits w : Nat) : State :=
  { s.startCommand (tableWord nbits w) with agenda := engineFirst s.agenda }

end Sys2Proof.Machine
end

