-- ==== Sys2Proof/Machine/HostProgram.lean ====
section
/-! DEFINITION. The host's program forms as turns of the agenda (spec/30_encoding.md rules R120, R121). A host branch is the host's own control flow and no turn. -/

namespace Sys2Proof.Machine

/-- `wr REG.NAME, v` (R120), by the register's offset. -/
def wrTurn (off : BitVec 12) (v : Word) : Turn := .host (.regWrite off .word v)

/-- `rd REG.NAME -> t` (R120): the value read is the latest of `hostReads`. -/
def rdTurn (off : BitVec 12) : Turn := .host (.regRead off .word)

/-- `stb addr, b` (R120). -/
def stbTurn (addr : Word) (b : Byte) : Turn := .host (.memWrite addr .byte (b.setWidth 32))

/-- `ldb addr -> t` (R120). -/
def ldbTurn (addr : Word) : Turn := .host (.memRead addr .byte)

/-- `sts addr, bytes` (R121): one `stb` per byte. -/
def stsTurns : Word → Bytes → List Turn
  | _, [] => []
  | addr, b :: bs => stbTurn addr b :: stsTurns (addr + 1) bs

/-- The offset of `D[n].ADDR`; `D[n].LEN` is 4 above (R37). -/
def descOffset (n : Fin 8) : BitVec 12 := BitVec.ofNat 12 (0x040 + 8 * n.val)

/-- `setd Dn, addr, len` (R121). -/
def setdTurns (n : Fin 8) (addr len : Word) : List Turn :=
  [wrTurn (descOffset n) addr, wrTurn (descOffset n + 4) len]

/-- `cmd MNEMONIC imm` (R121), by its word. -/
def cmdTurn (c : Word) : Turn := wrTurn 0x004 c

/-- `wait` (R121) when the engine's step comes after `polls` reads of STATUS that still show BUSY. -/
def waitTurns (polls : Nat) : List Turn :=
  List.replicate polls (rdTurn 0x008) ++ [.engine, rdTurn 0x008]

/-- `run MNEMONIC imm` (R121): `cmd`, then `wait`. -/
def runTurns (c : Word) (polls : Nat) : List Turn := cmdTurn c :: waitTurns polls

end Sys2Proof.Machine
end

