-- ==== Sys2Proof/Safety.lean ====
section
/-! DEFINITION. The terms the claims use: which descriptors a command uses, what its regions are and hold, how a command ends, and the invariant of the machine. -/

namespace Sys2Proof.Machine

/-! ### Operands -/

/-- The source descriptors of a command: its row of R115. -/
def sources (i : Instr) : List (Fin 8) :=
  match i with
  | .nop => []
  | .spInit => []
  | .spAbsorb => [0]
  | .spAbsorbImm _ => []
  | .spAbsorbStop => []
  | .spShuffle => []
  | .spSqueeze => []
  | .spDrip => []
  | .hash _ => [0]
  | .keyid => [0]
  | .aeadSeal _ => [0, 1, 2, 3]
  | .aeadOpen _ => [0, 1, 2, 3]
  | .b85Enc => [0]
  | .b85Dec => [0]
  | .krLoad => [0]
  | .krLookup => [0]
  | .krClear => []
  | .frameAad => [0, 1]
  | .frameSeal => [0, 1, 2, 3, 4]
  | .frameParse => [0, 1]

/-- The destination descriptors of a command: its row of R115. -/
def destinations (i : Instr) : List (Fin 8) :=
  match i with
  | .nop => []
  | .spInit => []
  | .spAbsorb => []
  | .spAbsorbImm _ => []
  | .spAbsorbStop => []
  | .spShuffle => []
  | .spSqueeze => [0]
  | .spDrip => []
  | .hash _ => [1]
  | .keyid => [1]
  | .aeadSeal _ => [4]
  | .aeadOpen _ => [4]
  | .b85Enc => [1]
  | .b85Dec => [1]
  | .krLoad => []
  | .krLookup => [1]
  | .krClear => []
  | .frameAad => [2]
  | .frameSeal => [5]
  | .frameParse => [2, 3]

/-- The high-level commands (R348). -/
def highLevel (i : Instr) : Bool :=
  match i with
  | .hash _ => true
  | .keyid => true
  | .aeadSeal _ => true
  | .aeadOpen _ => true
  | .krLoad => true
  | .frameSeal => true
  | .frameParse => true
  | .nop => false
  | .spInit => false
  | .spAbsorb => false
  | .spAbsorbImm _ => false
  | .spAbsorbStop => false
  | .spShuffle => false
  | .spSqueeze => false
  | .spDrip => false
  | .b85Enc => false
  | .b85Dec => false
  | .krLookup => false
  | .krClear => false
  | .frameAad => false

/-! ### Regions -/

/-- The address lies in the region that a descriptor names: [ADDR, ADDR + LEN) (R37). -/
def InRegion (s : State) (n : Fin 8) (a : Nat) : Prop :=
  s.regionAddr n ≤ a ∧ a < s.regionAddr n + s.regionLen n

/-- The region passes its check (R84). -/
def InDmem (s : State) (n : Fin 8) : Prop :=
  s.regionAddr n + s.regionLen n ≤ s.params.dmemBytes

/-- The regions share no address (R85). -/
def Apart (s : State) (m n : Fin 8) : Prop := ∀ a, ¬ (InRegion s m a ∧ InRegion s n a)

/-- Every descriptor of a command passes the checks of R84 and R85. -/
def OperandsOk (s : State) (i : Instr) : Prop :=
  (∀ n ∈ sources i ++ destinations i, InDmem s n) ∧
    (∀ d ∈ destinations i, ∀ m ∈ sources i, Apart s d m) ∧
    (∀ d ∈ destinations i, ∀ e ∈ destinations i, d ≠ e → Apart s d e)

/-- `bs` is what a read of the region may give: its length, and the value of every byte that has one; a byte
that has none may be any (R46, U1). Where every byte has a value, one `bs` only. -/
def MayRead (s : State) (n : Fin 8) (bs : Bytes) : Prop :=
  bs.length = s.regionLen n ∧
    ∀ k b, k < bs.length → s.dmem.read (s.regionAddr n + k) = some b → bs[k]? = some b

/-- The region holds `bs`: every byte of it has been written (R381). -/
def Holds (s : State) (n : Fin 8) (bs : Bytes) : Prop :=
  bs.length = s.regionLen n ∧ ∀ k, k < bs.length → s.dmem.read (s.regionAddr n + k) = bs[k]?

/-- From `s` to `t`, `out` was stored at the start of region `n` and no other byte changed (R86). -/
def Stored (s t : State) (n : Fin 8) (out : Bytes) : Prop :=
  ∀ a, t.dmem.read a =
    if s.regionAddr n ≤ a ∧ a < s.regionAddr n + out.length then out[a - s.regionAddr n]? else s.dmem.read a

/-! ### How a command ends -/

/-- `t` is `s` after a success completion (R349) with these results, Spritz state and keyring store. Only
DMEM is left open, which a claim says beside this, and the count of draws. -/
def Succeeds (s t : State) (res0 res1 : Word) (g : Sponge) (k : Keyring) : Prop :=
  t = { s with
    pend := none, done := true, ecode := 0, res0 := res0, res1 := res1, sponge := g, keyring := k,
    dmem := t.dmem, draws := t.draws }

/-- `s` after an error completion (R345) that changed nothing else (R347, a failed pre-check). -/
def errorEnd (s : State) (e : ErrorKind) : State :=
  { s with pend := none, done := true, ecode := errorCode e, res0 := 0, res1 := 0 }

/-- `s` after an error completion (R345) that also scrubbed the Spritz state and left this keyring store
(R347, a post-load error). -/
def scrubbedErrorEnd (s : State) (e : ErrorKind) (k : Keyring) : State :=
  { s with
    pend := none, done := true, ecode := errorCode e, res0 := 0, res1 := 0, sponge := Sponge.init, keyring := k }

/-- `t` is `u`, but for the count of draws. -/
def UpToDraws (t u : State) : Prop := t = { u with draws := t.draws }

/-! ### Words and reset -/

/-- The OP values R116 lists as illegal. -/
def IllegalOp (op : Byte) : Prop :=
  (0x08 ≤ op.toNat ∧ op.toNat ≤ 0x0F) ∨ (0x12 ≤ op.toNat ∧ op.toNat ≤ 0x1F) ∨
    (0x22 ≤ op.toNat ∧ op.toNat ≤ 0x2F) ∨ (0x32 ≤ op.toNat ∧ op.toNat ≤ 0x3F) ∨
    (0x43 ≤ op.toNat ∧ op.toNat ≤ 0x4F) ∨ (0x53 ≤ op.toNat ∧ op.toNat ≤ 0xFF)

/-- The OP values whose IMM8 is an operand (R115): SP_ABSORB_IMM, HASH, AEAD_SEAL, AEAD_OPEN. -/
def TakesImm8 (op : Byte) : Prop := op = 0x03 ∨ op = 0x10 ∨ op = 0x20 ∨ op = 0x21

/-- The reset table of R380, as the host reads it and as the hidden state is (R47). -/
structure AtReset (p : Params) (t : State) : Prop where
  params : t.params = p
  pend : t.pend = none
  id : t.readReg .id = 0x53505A01
  cmd : t.readReg .cmd = 0
  status : t.readReg .status = 0
  results : t.readReg .res0 = 0 ∧ t.readReg .res1 = 0
  keyringRegs : t.readReg .krCount = 0 ∧ t.readReg .krCur = 0
  spongeRegs : t.readReg .spIjkz = 0 ∧ t.readReg .spAw = 0x100
  descriptors : ∀ n, t.readReg (.descAddr n) = 0 ∧ t.readReg (.descLen n) = 0
  window : ∀ m : Fin 64, t.readReg (.spS m) =
    BitVec.ofNat 32 (4 * m.val + (4 * m.val + 1) * 2 ^ 8 + (4 * m.val + 2) * 2 ^ 16 + (4 * m.val + 3) * 2 ^ 24)
  reservedOffsets : t.readReg .reserved = 0
  indices : t.sponge.i = 0 ∧ t.sponge.j = 0 ∧ t.sponge.k = 0 ∧ t.sponge.z = 0 ∧ t.sponge.a = 0 ∧ t.sponge.w = 1
  permutation : ∀ v, t.sponge.at v = v
  keyring : t.keyring.entries = [] ∧ t.keyring.cur = 0
  dmem : ∀ a, t.dmem.read a = none

/-! ### Moves of the sponge -/

/-- From `g` to `h`, S moved by a permutation of its indices: every entry of `h` is one of `g`. -/
def Rearranges (g h : Sponge) : Prop := ∃ f : Byte → Byte, Function.Bijective f ∧ ∀ p, h.at p = g.at (f p)

/-- What absorbing the nibble `x` does (R158): from `g`, or from its shuffle when `a = 128`, the entries
`S[a]` and `S[128 + x]` change places, `a` rises by 1, and nothing else moves. -/
def NibbleAbsorbed (g : Sponge) (x : Byte) (h : Sponge) : Prop :=
  let f := if g.a = 128 then shuffle g else g
  h.a = f.a + 1 ∧ h.i = f.i ∧ h.j = f.j ∧ h.k = f.k ∧ h.z = f.z ∧ h.w = f.w ∧
    h.at f.a = f.at (128 + x) ∧ h.at (128 + x) = f.at f.a ∧
    ∀ p, p ≠ f.a → p ≠ 128 + x → h.at p = f.at p

/-! ### Key material and header lists -/

/-- The first tokens of the non-blank lines of key material, in order (R271, R272). -/
def keyTokens (m : Bytes) : List Bytes := (lines m).filterMap firstToken

/-- An entry of a header list (R303). -/
def headerEntry (e : Bytes × Bytes) : Bytes := bytesBe 2 e.1.length ++ e.1 ++ bytesBe 2 e.2.length ++ e.2

/-- The key and the value fit their u16 lengths (R303). -/
def EntryFits (e : Bytes × Bytes) : Prop := e.1.length < 2 ^ 16 ∧ e.2.length < 2 ^ 16

/-- The value a mapping gives a key. -/
def mapValue : List (Bytes × Bytes) → Bytes → Option Bytes
  | [], _ => none
  | e :: rest, k => if e.1 = k then some e.2 else mapValue rest k

/-! ### The invariant -/

/-- DMEM is in its canonical form and holds bytes of the address space only (R80). -/
def MemoryOk (s : State) : Prop :=
  s.dmem.wf = true ∧ ∀ a b, s.dmem.read a = some b → a < s.params.dmemBytes

/-- The invariants of the Spritz state (R41): S is a permutation of 0 .. 255, w is odd, a is at most 128. -/
def SpongeOk (g : Sponge) : Prop :=
  Function.Bijective g.at ∧ g.w.toNat % 2 = 1 ∧ g.a.toNat ≤ 128

/-- The keyring store is one R42 describes: within its capacity, its ids distinct, each the 8-byte digest of
its non-empty key, and KR_CUR an index below KR_COUNT, or 0. -/
def KeyringOk (p : Params) (k : Keyring) : Prop :=
  k.entries.length ≤ p.krMaxEntries ∧ (k.entries.map KeyEntry.id).Nodup ∧
    (∀ e ∈ k.entries,
      e.id.length = 8 ∧ e.id = keyIdDigest e.key ∧ 1 ≤ e.key.length ∧ e.key.length ≤ p.keyMaxBytes) ∧
    (k.cur < k.entries.length ∨ k.entries = [] ∧ k.cur = 0)

/-- An ECODE the engine can produce (R341): 0, or the code of a kind that is not host-only (R343). -/
def EngineCode (c : Byte) : Prop :=
  c = 0 ∨ ∃ e, e ≠ ErrorKind.keyMaterialUnreadable ∧ c = errorCode e

/-- The status registers agree (R33, R34, R112): a legal code; while BUSY neither DONE nor a code nor a
result; after an error no result, but for a returned header's length in RES0. -/
def StatusOk (s : State) : Prop :=
  EngineCode s.ecode ∧
    (s.pend ≠ none → s.done = false ∧ s.ecode = 0 ∧ s.res0 = 0 ∧ s.res1 = 0) ∧
    (s.ecode ≠ 0 → s.res1 = 0 ∧ (s.ecode ≠ errorCode .authenticationFailure → s.res0 = 0))

/-- The invariant of the machine. -/
structure Inv (s : State) : Prop where
  memory : MemoryOk s
  sponge : SpongeOk s.sponge
  keyring : KeyringOk s.params s.keyring
  status : StatusOk s

end Sys2Proof.Machine
end

