-- ==== Sys2Proof/Certificates/Slice0/Obligations.lean ====
section
/-! DEFINITION. The statements for the provers. Each docstring names the rules of spec/ it formalises. -/

open Sys2Proof Sys2Proof.Machine

/-! ### Command words -/

/-- R110, R111, R115: decoding is exactly the inverse of encoding, in both directions. -/
def Obligations.DecodeAndEncodeAgree : Prop :=
  ∀ (c : Word) (i : Instr), decode c = .ok i ↔ c = encode i

/-- R116, R117, R118: on the engine's turn, `u` being the state with the turn spent, a pending word with an illegal
OP completes with IllegalCommand; a legal OP with RSV ≠ 0, or with a stray IMM8, completes with ReservedField;
every other word runs its command. The error completions change nothing else. That an empty agenda is the
engine's turn too is the model's choice (log entry 3). -/
def Obligations.EveryWordHasOneOutcome : Prop :=
  ∀ (s u : State) (rest : List Turn) (c : Word), s.pend = some c →
    ((s.agenda = .engine :: rest ∧ u = { s with agenda := rest }) ∨ (s.agenda = [] ∧ u = s)) →
    (IllegalOp (opOf c) → step s = .next (errorEnd u .illegalCommand)) ∧
    (¬ IllegalOp (opOf c) → (rsvOf c ≠ 0 ∨ (¬ TakesImm8 (opOf c) ∧ imm8Of c ≠ 0)) →
      step s = .next (errorEnd u .reservedField)) ∧
    (¬ IllegalOp (opOf c) → rsvOf c = 0 → (TakesImm8 (opOf c) ∨ imm8Of c = 0) →
      ∃ i, c = encode i ∧ step s = exec i u)

/-- R115: words written out from the opcode map decode to their commands. -/
def Obligations.WordsOfTheOpcodeMapDecode : Prop :=
  decode 0x00000000 = .ok .nop ∧ decode 0x00005A03 = .ok (.spAbsorbImm 0x5A) ∧
    decode 0x00000810 = .ok (.hash 8) ∧ decode 0x00002020 = .ok (.aeadSeal 32) ∧
    decode 0x00000031 = .ok .b85Dec ∧ decode 0x00000041 = .ok .krLookup ∧
    decode 0x00000052 = .ok .frameParse

/-! ### Steps -/

/-- R30, R88, R113: the turn at the head of the agenda is taken and spent. On the engine's turn the step runs
the command whose word PEND holds, and the engine has no step when PEND.valid = 0; an empty agenda gives the
engine the turn. On the host's turn the step is its access. That the order of turns is an input, and the name of
the stop, are the model's choice (log entries 3 and 4). -/
def Obligations.StepTakesTheNextTurn : Prop :=
  ∀ (s : State) (rest : List Turn),
    (∀ c i, s.pend = some c → decode c = .ok i →
      (s.agenda = [] → step s = exec i s) ∧
        (s.agenda = .engine :: rest → step s = exec i { s with agenda := rest })) ∧
    (s.pend = none → (s.agenda = [] ∨ s.agenda = .engine :: rest) → step s = .fault .noCommandPending) ∧
    (∀ a, s.agenda = .host a :: rest → step s = hostStep a { s with agenda := rest })

/-- R380: the reset table, for any build parameters, and for a reset asserted in any state, a pending command
being abandoned. That the host's turns and the values it has read outlive a reset is the model's choice (log
entry 3). -/
def Obligations.ResetGivesTheResetTable : Prop :=
  (∀ p, AtReset p (State.resetWith p)) ∧ AtReset Config.params State.reset ∧
    ∀ (s : State) rest, s.agenda = .reset :: rest →
      ∃ t, step s = .next t ∧ AtReset s.params t ∧ t.agenda = rest ∧ t.hostReads = s.hostReads

/-! ### The host's port -/

/-- R32, R112: a CMD write starts a command when idle and is turned away with WERR when busy; CMD reads 0. -/
def Obligations.CmdWriteStartsACommandOrSetsWerr : Prop :=
  ∀ (s : State) (v : Word),
    (s.pend = none → hostStep (.regWrite 0x004 .word v) s =
      .next { s with pend := some v, done := false, ecode := 0, res0 := 0, res1 := 0 }) ∧
    (s.pend ≠ none → hostStep (.regWrite 0x004 .word v) s = .next { s with werr := true }) ∧
    hostStep (.regRead 0x004 .word) s = .next (s.answer 0)

/-- R33, R44: the bits STATUS reads as, and the two bits a write of 1 clears, busy or not. -/
def Obligations.StatusBitsReadAndClear : Prop :=
  ∀ (s : State) (v : Word),
    (∃ w, hostStep (.regRead 0x008 .word) s = .next (s.answer w) ∧
      w.getLsbD 0 = s.pend.isSome ∧ w.getLsbD 1 = s.done ∧ (w.getLsbD 2 = true ↔ s.ecode ≠ 0) ∧
      w.getLsbD 3 = s.werr ∧ w.extractLsb' 4 4 = 0 ∧ w.extractLsb' 8 8 = s.ecode ∧ w.extractLsb' 16 16 = 0) ∧
    hostStep (.regWrite 0x008 .word v) s =
      .next { s with
        done := (if v.getLsbD 1 then false else s.done), werr := (if v.getLsbD 3 then false else s.werr) }

/-- R37, R82: a descriptor register takes a write when idle and reads it back; the other half of its pair and
the other pairs stay; a write while BUSY is ignored and sets WERR. -/
def Obligations.DescriptorRegistersHoldWhatIsWritten : Prop :=
  ∀ (s : State) (n : Fin 8) (v : Word) (off : BitVec 12),
    (off.toNat = 0x040 + 8 * n.val →
      (s.pend ≠ none → hostStep (.regWrite off .word v) s = .next { s with werr := true }) ∧
      (s.pend = none → ∃ t, hostStep (.regWrite off .word v) s = .next t ∧ t = { s with desc := t.desc } ∧
        t.desc[n] = { addr := v, len := s.desc[n].len } ∧ (∀ m : Fin 8, m ≠ n → t.desc[m] = s.desc[m]) ∧
        hostStep (.regRead off .word) t = .next (t.answer v))) ∧
    (off.toNat = 0x044 + 8 * n.val →
      (s.pend ≠ none → hostStep (.regWrite off .word v) s = .next { s with werr := true }) ∧
      (s.pend = none → ∃ t, hostStep (.regWrite off .word v) s = .next t ∧ t = { s with desc := t.desc } ∧
        t.desc[n] = { addr := s.desc[n].addr, len := v } ∧ (∀ m : Fin 8, m ≠ n → t.desc[m] = s.desc[m]) ∧
        hostStep (.regRead off .word) t = .next (t.answer v)))

/-- R39: every reserved offset reads 0, and a write to it is ignored. -/
def Obligations.ReservedOffsetsReadZeroAndIgnoreWrites : Prop :=
  ∀ (s : State) (off : BitVec 12) (v : Word), off.toNat % 4 = 0 →
    ((0x024 ≤ off.toNat ∧ off.toNat ≤ 0x03C) ∨ (0x080 ≤ off.toNat ∧ off.toNat ≤ 0x0FC) ∨
      (0x200 ≤ off.toNat ∧ off.toNat ≤ 0xFFC)) →
    hostStep (.regRead off .word) s = .next (s.answer 0) ∧
      hostStep (.regWrite off .word v) s = .next s

/-- R31, R34, R35, R36, R38: the read-only registers return the state they view and ignore writes. -/
def Obligations.ReadOnlyRegistersViewTheState : Prop :=
  ∀ (s : State) (v : Word),
    (∀ off : BitVec 12, off.toNat % 4 = 0 →
      (off.toNat = 0 ∨ (0x00C ≤ off.toNat ∧ off.toNat ≤ 0x020) ∨ (0x100 ≤ off.toNat ∧ off.toNat < 0x200)) →
      hostStep (.regWrite off .word v) s = .next s) ∧
    hostStep (.regRead 0x000 .word) s = .next (s.answer 0x53505A01) ∧
    hostStep (.regRead 0x00C .word) s = .next (s.answer s.res0) ∧
    hostStep (.regRead 0x010 .word) s = .next (s.answer s.res1) ∧
    hostStep (.regRead 0x014 .word) s =
      .next (s.answer (BitVec.ofNat 32 s.keyring.entries.length)) ∧
    hostStep (.regRead 0x018 .word) s =
      .next { s with hostReads :=
        (if s.keyring.entries.length = 0 then 0 else BitVec.ofNat 32 s.keyring.cur) :: s.hostReads } ∧
    (∃ w, hostStep (.regRead 0x01C .word) s = .next (s.answer w) ∧
      w.extractLsb' 0 8 = s.sponge.i ∧ w.extractLsb' 8 8 = s.sponge.j ∧ w.extractLsb' 16 8 = s.sponge.k ∧
      w.extractLsb' 24 8 = s.sponge.z) ∧
    (∃ w, hostStep (.regRead 0x020 .word) s = .next (s.answer w) ∧
      w.extractLsb' 0 8 = s.sponge.a ∧ w.extractLsb' 8 8 = s.sponge.w ∧ w.extractLsb' 16 16 = 0) ∧
    (∀ (off : BitVec 12) (m b : Nat), m < 64 → b < 4 → off.toNat = 0x100 + 4 * m →
      ∃ w, hostStep (.regRead off .word) s = .next (s.answer w) ∧
        w.extractLsb' (8 * b) 8 = s.sponge.at (BitVec.ofNat 8 (4 * m + b)))

/-- R46, R80, R82, R83: an allowed DMEM write stores its bytes little-endian, changes no other byte and nothing
else, and the same access reads them back. An allowed read returns every written byte in its little-endian place,
the bits above the access are 0, and nothing changes but the value returned and the count of draws. -/
def Obligations.HostMemoryAccessesAreLittleEndian : Prop :=
  ∀ (s : State) (addr v : Word) (size : AccessSize),
    addr.toNat % accessBytes size = 0 → addr.toNat + accessBytes size ≤ s.params.dmemBytes →
    (∃ t, hostStep (.memWrite addr size v) s = .next t ∧ t = { s with dmem := t.dmem } ∧
      (∀ k, k < accessBytes size → t.dmem.read (addr.toNat + k) = some (v.extractLsb' (8 * k) 8)) ∧
      (∀ a, (a < addr.toNat ∨ addr.toNat + accessBytes size ≤ a) → t.dmem.read a = s.dmem.read a) ∧
      hostStep (.memRead addr size) t =
        .next (t.answer (BitVec.ofNat 32 (v.toNat % 2 ^ (8 * accessBytes size))))) ∧
    (∃ (w : Word) (d : Nat), hostStep (.memRead addr size) s = .next (State.answer { s with draws := d } w) ∧
      w.toNat < 2 ^ (8 * accessBytes size) ∧
      ∀ k b, k < accessBytes size → s.dmem.read (addr.toNat + k) = some b → w.extractLsb' (8 * k) 8 = b)

/-- R82, R384: an access of another width or alignment, or at or beyond DMEM_BYTES, is no transition. -/
def Obligations.AccessViolationsHaveNoStep : Prop :=
  ∀ (s : State) (size : AccessSize) (off : BitVec 12) (addr v : Word),
    ((size ≠ .word ∨ off.toNat % 4 ≠ 0) →
      hostStep (.regRead off size) s = .refused .hostAccessViolation ∧
        hostStep (.regWrite off size v) s = .refused .hostAccessViolation) ∧
    ((addr.toNat % accessBytes size ≠ 0 ∨ s.params.dmemBytes < addr.toNat + accessBytes size) →
      hostStep (.memRead addr size) s = .refused .hostAccessViolation ∧
        hostStep (.memWrite addr size v) s = .refused .hostAccessViolation)

/-! ### The sponge -/

/-- R41: every procedure keeps S a permutation, w odd and a at most 128, and the initial state has them. -/
def Obligations.SpongeProceduresKeepTheirInvariants : Prop :=
  SpongeOk Sponge.init ∧
    ∀ g : Sponge, SpongeOk g →
      SpongeOk (update g) ∧ SpongeOk (output g) ∧ SpongeOk (crush g) ∧ (∀ r, SpongeOk (whip r g)) ∧
        SpongeOk (shuffle g) ∧ (∀ bs, SpongeOk (absorb g bs)) ∧ SpongeOk (absorbStop g) ∧
        SpongeOk (drip g).2 ∧ (∀ r, SpongeOk (squeeze r g).2)

/-- R155: gcd(w, 256) = 1 exactly when w is odd, NextW of an odd w is the first later value with gcd 1, and
after m whips from the initial state w is (1 + 2m) mod 256, however long each whip was. -/
def Obligations.WhipAdvancesTheStepSize : Prop :=
  (∀ w : Byte, Nat.gcd w.toNat 256 = 1 ↔ w.toNat % 2 = 1) ∧
    (∀ w : Byte, w.toNat % 2 = 1 →
      (nextW w).toNat = (w.toNat + 2) % 256 ∧ Nat.gcd (w + 1).toNat 256 ≠ 1 ∧ Nat.gcd (nextW w).toNat 256 = 1) ∧
    (∀ rs : List Nat, (rs.foldl (fun g r => whip r g) Sponge.init).w.toNat = (1 + 2 * rs.length) % 256)

/-- R163, R164: in every state and for every r ≥ 1, Squeeze(r) is r Drips in a row, and a is 0 after an
output; Squeeze(0) gives nothing and leaves a = 0. -/
def Obligations.SqueezeIsSuccessiveDrips : Prop :=
  ∀ (g : Sponge) (r : Nat),
    squeeze (r + 1) g =
      ((drip g).1 :: (squeeze r (drip g).2).1, (squeeze r (drip g).2).2) ∧
    squeeze 1 g = ([(drip g).1], (drip g).2) ∧ (drip g).2.a = 0 ∧
    (squeeze 0 g).1 = [] ∧ (squeeze 0 g).2.a = 0

/-! ### NOP and the primitive commands -/

/-- R330, R280, R170: the commands with neither operand nor condition complete in every state. -/
def Obligations.NopKrClearAndSpInitComplete : Prop :=
  ∀ s : State,
    exec .nop s = .next { s with pend := none, done := true, ecode := 0, res0 := 0, res1 := 0 } ∧
    exec .krClear s =
      .next { s with
        pend := none, done := true, ecode := 0, res0 := 0, res1 := 0, keyring := { entries := [], cur := 0 } } ∧
    ∃ g : Sponge,
      exec .spInit s = .next { s with pend := none, done := true, ecode := 0, res0 := 0, res1 := 0, sponge := g } ∧
        g.i = 0 ∧ g.j = 0 ∧ g.k = 0 ∧ g.z = 0 ∧ g.a = 0 ∧ g.w = 1 ∧ ∀ v, g.at v = v

/-- R171: SP_ABSORB absorbs the bytes of D0, first byte first and low nibble first, and changes nothing but
the Spritz state and the completion. -/
def Obligations.SpAbsorbAbsorbsTheRegion : Prop :=
  ∀ s : State, OperandsOk s .spAbsorb →
    ∃ M t, MayRead s 0 M ∧ exec .spAbsorb s = .next t ∧
      Succeeds s t 0 0 (absorb s.sponge M) s.keyring ∧ t.dmem = s.dmem ∧
      (∀ b rest, M = b :: rest → ∃ g h, NibbleAbsorbed s.sponge (b % 16) g ∧ NibbleAbsorbed g (b / 16) h ∧
        absorb s.sponge M = absorb h rest) ∧
      (M = [] → absorb s.sponge M = s.sponge)

/-- R172: SP_ABSORB_IMM absorbs the low nibble of its byte, then the high one. -/
def Obligations.SpAbsorbImmAbsorbsTwoNibbles : Prop :=
  ∀ (s : State) (b : Byte), ∃ g h,
    exec (.spAbsorbImm b) s =
      .next { s with pend := none, done := true, ecode := 0, res0 := 0, res1 := 0, sponge := h } ∧
    NibbleAbsorbed s.sponge (b % 16) g ∧ NibbleAbsorbed g (b / 16) h

/-- R173: SP_ABSORB_STOP raises a by 1, after a shuffle when it was 128, and moves no entry of S otherwise. -/
def Obligations.SpAbsorbStopTakesOnePosition : Prop :=
  ∀ s : State, ∃ h : Sponge,
    exec .spAbsorbStop s =
      .next { s with pend := none, done := true, ecode := 0, res0 := 0, res1 := 0, sponge := h } ∧
    (s.sponge.a ≠ 128 → h = { s.sponge with a := s.sponge.a + 1 }) ∧
    (s.sponge.a = 128 → h.a = 1 ∧ h = { shuffle s.sponge with a := 1 })

/-- R156, R174: SP_SHUFFLE shuffles whatever a is. A shuffle moves the entries of S by a permutation of their
indices, adds 6 to w, sets a to 0 and leaves z. -/
def Obligations.SpShuffleShufflesAlways : Prop :=
  ∀ s : State, ∃ g h : Sponge,
    exec .spShuffle s =
      .next { s with pend := none, done := true, ecode := 0, res0 := 0, res1 := 0, sponge := h } ∧
    g = whip 512 (crush (whip 512 (crush (whip 512 s.sponge)))) ∧ h = { g with a := 0 } ∧
    Rearranges s.sponge h ∧ h.w = s.sponge.w + 6 ∧ h.z = s.sponge.z

/-- R175: SP_SQUEEZE writes D0.LEN keystream bytes to D0, and shuffles first when a > 0, even for no byte. -/
def Obligations.SpSqueezeWritesKeystream : Prop :=
  ∀ s : State, OperandsOk s .spSqueeze →
    ∃ t, exec .spSqueeze s = .next t ∧
      Succeeds s t s.desc[0].len 0 (squeeze s.desc[0].len.toNat s.sponge).2 s.keyring ∧ t.draws = s.draws ∧
      Stored s t 0 (squeeze s.desc[0].len.toNat s.sponge).1 ∧
      (squeeze s.desc[0].len.toNat s.sponge).1.length = s.desc[0].len.toNat

/-- R151, R152, R162, R176, R164: in every state SP_DRIP shuffles when a > 0, then makes one Update, each line of
which uses the values the lines above it wrote, then one Output, whose byte is the new z and goes to RES0. It is
the byte SP_SQUEEZE of one byte would store, and the Spritz state is the same. -/
def Obligations.SpDripIsAOneByteSqueeze : Prop :=
  ∀ s : State, ∃ b g,
    exec .spDrip s =
      .next { s with
        pend := none, done := true, ecode := 0, res0 := BitVec.ofNat 32 b.toNat, res1 := 0, sponge := g } ∧
    (∃ f : Sponge, f = (if s.sponge.a = 0 then s.sponge else shuffle s.sponge) ∧
      g.i = f.i + f.w ∧ g.j = f.k + f.at (f.j + f.at g.i) ∧ g.k = g.i + f.k + f.at g.j ∧
      g.at g.i = f.at g.j ∧ g.at g.j = f.at g.i ∧ (∀ p, p ≠ g.i → p ≠ g.j → g.at p = f.at p) ∧
      b = g.at (g.j + g.at (g.i + g.at (f.z + g.k))) ∧ g.z = b ∧ g.a = 0 ∧ g.w = f.w) ∧
    (s.desc[0].len = 1 → OperandsOk s .spSqueeze →
      ∃ u, exec .spSqueeze s = .next u ∧ u.sponge = g ∧ Stored s u 0 [b])

/-! ### HASH and KEYID -/

/-- R190, R191: HASH writes r digest bytes to D1 and scrubs. -/
def Obligations.HashWritesTheDigest : Prop :=
  ∀ (s : State) (r : Byte), OperandsOk s (.hash r) → r.toNat ≤ s.regionLen 1 →
    ∃ M t, MayRead s 0 M ∧ exec (.hash r) s = .next t ∧
      Succeeds s t (BitVec.ofNat 32 r.toNat) 0 Sponge.init s.keyring ∧
      Stored s t 1 (squeeze r.toNat (absorbByte (absorbStop (absorb Sponge.init M)) r)).1 ∧
      (squeeze r.toNat (absorbByte (absorbStop (absorb Sponge.init M)) r)).1.length = r.toNat

/-- R192, R193: KEYID writes the 10 symbols of the key's 8-byte digest to D1 and scrubs. -/
def Obligations.KeyidWritesTheKeyIdText : Prop :=
  ∀ s : State, OperandsOk s .keyid → 10 ≤ s.regionLen 1 →
    ∃ K t, MayRead s 0 K ∧ exec .keyid s = .next t ∧ Succeeds s t 10 0 Sponge.init s.keyring ∧
      Stored s t 1 (enc85 s.params.b85Variant (spritzHash K 8)) ∧
      (enc85 s.params.b85Variant (spritzHash K 8)).length = 10

/-! ### AEAD -/

/-- R210, R212, R215, R216: opening a sealed message with the same arguments gives the message, and opening gives
a message for no other input: a changed byte, a changed tag or a short input fails. -/
def Obligations.OpenInvertsSeal : Prop :=
  ∀ (K Z H X M : Bytes) (r : Byte), openCore K Z H X r = some M ↔ X = sealCore K Z H M r

/-- R210, R211, R215: `g` being the Spritz state after key, nonce and AAD, each with its stop, the keystream is what
`g` squeezes; the ciphertext is the message plus the keystream modulo 256; the r bytes after it are the tag,
squeezed once the keystream's length is squeezed and the ciphertext, a stop and the byte r are absorbed. A shorter
keystream is a beginning of a longer one. TagEqual of two tags of equal length says whether they are equal. -/
def Obligations.SealedMessageIsCiphertextThenTag : Prop :=
  ∀ (K Z H M : Bytes) (r : Byte) (g : Sponge),
    g = absorbStop (absorb (absorbStop (absorb (absorbStop (absorb Sponge.init K)) Z)) H) →
    (sealCore K Z H M r).length = M.length + r.toNat ∧
    (∀ n, keystream K Z H n = (squeeze n g).1 ∧ (keystream K Z H n).length = n) ∧
    (∀ (n : Nat) (x y : Byte), M[n]? = some x → (keystream K Z H M.length)[n]? = some y →
      (sealCore K Z H M r)[n]? = some (x + y)) ∧
    (∀ C : Bytes, C = (sealCore K Z H M r).take M.length →
      (sealCore K Z H M r).drop M.length =
        (squeeze r.toNat (absorbByte (absorbStop (absorb (squeeze M.length g).2 C)) r)).1) ∧
    (∀ n m, n ≤ m → keystream K Z H n = (keystream K Z H m).take n) ∧
    (∀ t u : Bytes, t.length = u.length → (tagEqual t u = true ↔ t = u))

/-- R213: AEAD_SEAL writes ciphertext and tag to D4 and scrubs. -/
def Obligations.AeadSealWritesTheSealedMessage : Prop :=
  ∀ (s : State) (r : Byte), OperandsOk s (.aeadSeal r) → s.regionLen 1 = 12 →
    s.regionLen 3 + r.toNat ≤ s.regionLen 4 →
    ∃ K Z H M t, MayRead s 0 K ∧ MayRead s 1 Z ∧ MayRead s 2 H ∧ MayRead s 3 M ∧
      exec (.aeadSeal r) s = .next t ∧
      Succeeds s t (BitVec.ofNat 32 (s.regionLen 3 + r.toNat)) 0 Sponge.init s.keyring ∧
      Stored s t 4 (sealCore K Z H M r) ∧ (sealCore K Z H M r).length = s.regionLen 3 + r.toNat

/-- R212, R214: AEAD_OPEN of a message that verifies writes the plaintext to D4 and scrubs. -/
def Obligations.AeadOpenWritesTheVerifiedPlaintext : Prop :=
  ∀ (s : State) (r : Byte) (K Z H X M : Bytes), OperandsOk s (.aeadOpen r) →
    Holds s 0 K → Holds s 1 Z → Holds s 2 H → Holds s 3 X → Z.length = 12 → M.length ≤ s.regionLen 4 →
    openCore K Z H X r = some M →
    ∃ t, exec (.aeadOpen r) s = .next t ∧
      Succeeds s t (BitVec.ofNat 32 M.length) 0 Sponge.init s.keyring ∧ t.draws = s.draws ∧ Stored s t 4 M ∧
      M.length + r.toNat = X.length

/-- R212, R214, R344: a message that does not verify, or is shorter than the tag, ends in
AuthenticationFailure with no byte written, no result and the Spritz state scrubbed. -/
def Obligations.AeadOpenFailureRevealsNothing : Prop :=
  ∀ (s : State) (r : Byte) (K Z H X : Bytes), OperandsOk s (.aeadOpen r) →
    Holds s 0 K → Holds s 1 Z → Holds s 2 H → Holds s 3 X → Z.length = 12 →
    (X.length < r.toNat ∨ X.length - r.toNat ≤ s.regionLen 4 ∧ openCore K Z H X r = none) →
    exec (.aeadOpen r) s = .next (scrubbedErrorEnd s .authenticationFailure s.keyring)

/-! ### Base-85 -/

/-- R240, R241, R242: Sym and Digit are inverse bijections of 0 .. 84 and the alphabet, Sym ascends, and the
alphabet is 85 bytes of 0x21 .. 0x7E without `"`, `$`, `/`, `\`, `]` and the closing brace. -/
def Obligations.AlphabetIsAnAscendingBijection : Prop :=
  ∀ (v : Fin 6),
    (∀ d, d < 85 → digit v (sym v d) = some d) ∧
    (∀ c d, digit v c = some d → d < 85 ∧ sym v d = c) ∧
    (∀ d e, d < e → e < 85 → (sym v d).toNat < (sym v e).toNat) ∧
    (∀ c d, digit v c = some d →
      0x21 ≤ c.toNat ∧ c.toNat ≤ 0x7E ∧
        c ≠ 0x22 ∧ c ≠ 0x24 ∧ c ≠ 0x2F ∧ c ≠ 0x5C ∧ c ≠ 0x5D ∧ c ≠ 0x7D)

/-- R252, R254: the length of an encoding, which is never 1 modulo 5; a text of length 1 modulo 5 fails, and the
length of what any other decodes to; ε stands for ε both ways. -/
def Obligations.Base85LengthsAreTheFormulas : Prop :=
  ∀ (v : Fin 6) (x t : Bytes),
    ((enc85 v x).length = 5 * (x.length / 4) + (if x.length % 4 = 0 then 0 else x.length % 4 + 1) ∧
      (enc85 v x).length % 5 ≠ 1 ∧ (x.length = 8 → (enc85 v x).length = 10) ∧
      (x.length = 12 → (enc85 v x).length = 15) ∧ (x.length = 22 → (enc85 v x).length = 28) ∧
      (x.length = 50 → (enc85 v x).length = 63) ∧ enc85 v [] = []) ∧
    (t.length % 5 = 1 → dec85 v t = none) ∧
    (∀ y : Bytes, dec85 v t = some y →
      t.length % 5 ≠ 1 ∧ y.length = 4 * (t.length / 5) + (if t.length % 5 = 0 then 0 else t.length % 5 - 1)) ∧
    dec85 v [] = some []

/-- R256: decoding inverts encoding on every byte string; encoding inverts decoding on texts of full groups;
`zz` and its non-canonical neighbour (z, then 0x7B) both decode to ff. -/
def Obligations.Base85RoundTrips : Prop :=
  ∀ (v : Fin 6),
    (∀ x : Bytes, dec85 v (enc85 v x) = some x) ∧
    (∀ t y : Bytes, t.length % 5 = 0 → dec85 v t = some y → enc85 v y = t) ∧
    dec85 v [0x7A, 0x7A] = some [0xFF] ∧ dec85 v [0x7A, 0x7B] = some [0xFF]

/-- R253, R255: a text with a byte outside the alphabet fails, and so does one with a full group of value 2^32
or more, as every group that starts with digit 83 or 84 is. -/
def Obligations.BadSymbolsAndOverflowFail : Prop :=
  ∀ (v : Fin 6) (t : Bytes),
    (∀ c ∈ t, digit v c = none → dec85 v t = none) ∧
    (∀ (pre g post : Bytes) (ds : List Nat), t = pre ++ g ++ post → pre.length % 5 = 0 → g.length = 5 →
      symbolDigits v g = some ds → 2 ^ 32 ≤ value85 ds → dec85 v t = none) ∧
    (∀ (pre post : Bytes) (c : Byte), t = pre ++ c :: post → pre.length % 5 = 0 → (c = 0x7C ∨ c = 0x7E) →
      dec85 v t = none)

/-- R257: B85_ENC writes the encoding of D0 to D1. -/
def Obligations.B85EncWritesTheText : Prop :=
  ∀ s : State, OperandsOk s .b85Enc → encodedLength (s.regionLen 0) ≤ s.regionLen 1 →
    ∃ x t, MayRead s 0 x ∧ exec .b85Enc s = .next t ∧
      Succeeds s t (BitVec.ofNat 32 (encodedLength (s.regionLen 0))) 0 s.sponge s.keyring ∧
      Stored s t 1 (enc85 s.params.b85Variant x) ∧
      (enc85 s.params.b85Variant x).length = encodedLength (s.regionLen 0)

/-- R258: B85_DEC of a text that decodes writes its bytes to D1. -/
def Obligations.B85DecWritesTheBytes : Prop :=
  ∀ (s : State) (x y : Bytes), OperandsOk s .b85Dec → Holds s 0 x → dec85 s.params.b85Variant x = some y →
    y.length ≤ s.regionLen 1 →
    ∃ t, exec .b85Dec s = .next t ∧ Succeeds s t (BitVec.ofNat 32 y.length) 0 s.sponge s.keyring ∧
      t.draws = s.draws ∧ Stored s t 1 y

/-! ### The keyring -/

/-- R270, R273, R274, R275: a loaded keyring is one R42 describes, registers the key of every non-blank line,
and its current entry is the key of the last one. -/
def Obligations.LoadedKeyringIsWellFormed : Prop :=
  ∀ (p : Params) (m : Bytes) (kr : Keyring), loadKeyring p m = .ok kr →
    KeyringOk p kr ∧
    (∀ t ∈ keyTokens m, ∃ key, dec85 p.b85Variant t = some key ∧
      ∃ e ∈ kr.entries, e.id = keyIdDigest key) ∧
    (∃ t key, (keyTokens m).getLast? = some t ∧ dec85 p.b85Variant t = some key ∧
      kr.entries[kr.cur]? = some { id := keyIdDigest key, key := key })

/-- R276: the first line that fails decides the load error, and NoUsableKeys means that every line is blank. -/
def Obligations.LoadFailsAtTheFirstBadLine : Prop :=
  ∀ (p : Params) (m : Bytes),
    (loadKeyring p m = .error .noUsableKeys ↔ keyTokens m = []) ∧
    (∀ pre line post es cur t, lines m = pre ++ line :: post → loadLines p pre [] none = .ok (es, cur) →
      firstToken line = some t →
      (dec85 p.b85Variant t = none → loadKeyring p m = .error .invalidEncoding) ∧
      (∀ key, dec85 p.b85Variant t = some key →
        (p.keyMaxBytes < key.length → loadKeyring p m = .error .capacityExceeded) ∧
        (es.length = p.krMaxEntries → (∀ e ∈ es, e.id ≠ keyIdDigest key) →
          loadKeyring p m = .error .capacityExceeded)))

/-- R281, R274: appending lines to key material keeps every entry's id at its index, and its key unless an
appended line registers a key under that id. -/
def Obligations.RotationKeepsEarlierKeys : Prop :=
  ∀ (p : Params) (m1 m2 : Bytes) (kr1 kr2 : Keyring),
    loadKeyring p m1 = .ok kr1 → loadKeyring p (m1 ++ [0x0A] ++ m2) = .ok kr2 →
    ∀ (n : Nat) (e : KeyEntry), kr1.entries[n]? = some e →
      ∃ e' : KeyEntry, kr2.entries[n]? = some e' ∧ e'.id = e.id ∧
        (e' = e ∨ ∃ t ∈ keyTokens m2, dec85 p.b85Variant t = some e'.key ∧ keyIdDigest e'.key = e.id)

/-- R278: KR_LOAD puts the loaded keyring into the store, reports its count and current index, and scrubs; a load
that fails reports its error and leaves the store empty and the Spritz state scrubbed. -/
def Obligations.KrLoadFillsOrEmptiesTheStore : Prop :=
  ∀ (s : State) (m : Bytes), OperandsOk s .krLoad → Holds s 0 m →
    (∀ kr : Keyring, loadKeyring s.params m = .ok kr →
      ∃ t, exec .krLoad s = .next t ∧
        Succeeds s t (BitVec.ofNat 32 kr.entries.length) (BitVec.ofNat 32 kr.cur) Sponge.init kr ∧
        t.dmem = s.dmem ∧ t.draws = s.draws ∧
        hostStep (.regRead 0x014 .word) t = .next (t.answer (BitVec.ofNat 32 kr.entries.length)) ∧
        hostStep (.regRead 0x018 .word) t = .next (t.answer (BitVec.ofNat 32 kr.cur))) ∧
    (∀ e : ErrorKind, loadKeyring s.params m = .error e →
      exec .krLoad s = .next (scrubbedErrorEnd s e { entries := [], cur := 0 }) ∧
        (e = .invalidEncoding ∨ e = .noUsableKeys ∨ e = .capacityExceeded))

/-- R277, R279: KR_LOOKUP of the id of a stored entry copies its key to D1 and reports length and index. -/
def Obligations.KrLookupCopiesTheKey : Prop :=
  ∀ (s : State) (x : Bytes) (n : Nat) (e : KeyEntry), OperandsOk s .krLookup → Holds s 0 x →
    KeyringOk s.params s.keyring → s.keyring.entries[n]? = some e → dec85 s.params.b85Variant x = some e.id →
    e.key.length ≤ s.regionLen 1 →
    ∃ t, exec .krLookup s = .next t ∧
      Succeeds s t (BitVec.ofNat 32 e.key.length) (BitVec.ofNat 32 n) s.sponge s.keyring ∧
      t.draws = s.draws ∧ Stored s t 1 e.key

/-- R258, R277, R279: the errors of B85_DEC in their order: a dangling length, a small destination, a text that
fails. The errors of KR_LOOKUP: a text that fails to decode, a digest of another length or of no entry, and after
a lookup that succeeds a destination too small for the key. -/
def Obligations.DecodingCommandErrors : Prop :=
  (∀ (s : State) (x : Bytes), OperandsOk s .b85Dec → Holds s 0 x →
    (x.length % 5 = 1 → exec .b85Dec s = .next (errorEnd s .invalidEncoding)) ∧
    (x.length % 5 ≠ 1 → s.regionLen 1 < decodedLength x.length →
      exec .b85Dec s = .next (errorEnd s .destTooSmall)) ∧
    (x.length % 5 ≠ 1 → decodedLength x.length ≤ s.regionLen 1 → dec85 s.params.b85Variant x = none →
      exec .b85Dec s = .next (errorEnd s .invalidEncoding))) ∧
  (∀ (s : State) (x : Bytes), OperandsOk s .krLookup → Holds s 0 x →
    (dec85 s.params.b85Variant x = none → exec .krLookup s = .next (errorEnd s .invalidEncoding)) ∧
    (∀ d : Bytes, dec85 s.params.b85Variant x = some d → (d.length ≠ 8 ∨ ∀ e ∈ s.keyring.entries, e.id ≠ d) →
      exec .krLookup s = .next (errorEnd s .lookupFailure)) ∧
    (∀ (n : Nat) (e : KeyEntry), KeyringOk s.params s.keyring → s.keyring.entries[n]? = some e →
      dec85 s.params.b85Variant x = some e.id → s.regionLen 1 < e.key.length →
      exec .krLookup s = .next (errorEnd s .destTooSmall)))

/-! ### The framer -/

/-- R303, R304, R306: a header list parses exactly when it is entries one after another, so that a list cut inside
an entry fails; it parses to a mapping whose keys strictly ascend and whose value for a key is that of its last
entry. -/
def Obligations.HeaderListParsesToAnAscendingMapping : Prop :=
  (∀ es : List (Bytes × Bytes), (∀ e ∈ es, EntryFits e) →
    ∃ hm, parseHeaderList (es.flatMap headerEntry) = some hm ∧
      (hm.map Prod.fst).Pairwise (fun j k => bytesBefore j k = true) ∧
      ∀ k, mapValue hm k = mapValue es.reverse k) ∧
  (∀ (b : Bytes) (hm : List (Bytes × Bytes)), parseHeaderList b = some hm →
    ∃ es : List (Bytes × Bytes), (∀ e ∈ es, EntryFits e) ∧ b = es.flatMap headerEntry)

/-- R305, R308: an AAD starts and ends with the braces and contains the scope's entry, which replaces a value the
caller supplied under the key `scope`; it is missing only when the header list does not parse. -/
def Obligations.AadContainsTheScopeEntry : Prop :=
  ∀ b scope : Bytes,
    (composeAad b scope = none ↔ parseHeaderList b = none) ∧
    (∀ h : Bytes, composeAad b scope = some h →
      h.head? = some 0x7B ∧ h.getLast? = some 0x7D ∧
      ∃ before after : Bytes,
        h = before ++ ([0x22, 0x73, 0x63, 0x6F, 0x70, 0x65, 0x22, 0x3A, 0x22] ++ escBytes scope ++ [0x22]) ++ after) ∧
    (∀ v : Bytes, parseHeaderList b ≠ none → v.length < 2 ^ 16 →
      composeAad (b ++ headerEntry ([0x73, 0x63, 0x6F, 0x70, 0x65], v)) scope = composeAad b scope)

/-- R307: Esc keeps bytes from 0x20 up but `"` and `\`, never shortens, and leaves no `"` or control byte bare. -/
def Obligations.EscapingIsSafeAndKeepsPlainText : Prop :=
  ∀ x : Bytes,
    ((∀ b ∈ x, 0x20 ≤ b.toNat ∧ b ≠ 0x22 ∧ b ≠ 0x5C) → escBytes x = x) ∧
    x.length ≤ (escBytes x).length ∧
    (∀ b ∈ escBytes x, 0x20 ≤ b.toNat) ∧
    (∀ k : Nat, (escBytes x)[k]? = some 0x22 → 0 < k ∧ (escBytes x)[k - 1]? = some 0x5C)

/-- R310: FRAME_AAD writes the AAD to D2. -/
def Obligations.FrameAadWritesTheAad : Prop :=
  ∀ (s : State) (b scope h : Bytes), OperandsOk s .frameAad → Holds s 0 b → Holds s 1 scope →
    composeAad b scope = some h → h.length ≤ s.regionLen 2 →
    ∃ t, exec .frameAad s = .next t ∧ Succeeds s t (BitVec.ofNat 32 h.length) 0 s.sponge s.keyring ∧
      t.draws = s.draws ∧ Stored s t 2 h

/-- R311, R312: FRAME_SEAL writes the token of the current key to D5, and ends with the store empty and the
Spritz state scrubbed. -/
def Obligations.FrameSealWritesTheToken : Prop :=
  ∀ (s : State) (m b scope z pt h : Bytes) (kr : Keyring), OperandsOk s .frameSeal →
    Holds s 0 m → Holds s 1 b → Holds s 2 scope → Holds s 3 z → Holds s 4 pt → z.length = 12 →
    composeAad b scope = some h → loadKeyring s.params m = .ok kr →
    10 + 1 + 15 + 1 + encodedLength h.length + 1 + encodedLength (pt.length + 32) ≤ s.regionLen 5 →
    ∃ t, exec .frameSeal s = .next t ∧
      Succeeds s t (BitVec.ofNat 32 (composeToken s.params.b85Variant kr z h pt).length) 0 Sponge.init
        { entries := [], cur := 0 } ∧
      t.draws = s.draws ∧ Stored s t 5 (composeToken s.params.b85Variant kr z h pt) ∧
      (composeToken s.params.b85Variant kr z h pt).length =
        10 + 1 + 15 + 1 + encodedLength h.length + 1 + encodedLength (pt.length + 32)

/-- R321: FRAME_PARSE of a token that parses and verifies writes the header to D2 and the plaintext to D3, and
ends with the store empty and the Spritz state scrubbed. -/
def Obligations.FrameParseWritesHeaderAndPlaintext : Prop :=
  ∀ (s : State) (m x p : Bytes) (parts : TokenParts), OperandsOk s .frameParse → Holds s 0 m → Holds s 1 x →
    parseToken s.params m x = .ok parts →
    openCore parts.key parts.nonce parts.header parts.sealed 32 = some p →
    parts.header.length ≤ s.regionLen 2 → p.length ≤ s.regionLen 3 →
    ∃ t, exec .frameParse s = .next t ∧
      Succeeds s t (BitVec.ofNat 32 parts.header.length) (BitVec.ofNat 32 p.length) Sponge.init
        { entries := [], cur := 0 } ∧
      t.draws = s.draws ∧
      (∀ k, k < parts.header.length → t.dmem.read (s.regionAddr 2 + k) = parts.header[k]?) ∧
      (∀ k, k < p.length → t.dmem.read (s.regionAddr 3 + k) = p[k]?) ∧
      (∀ a, ¬ (s.regionAddr 2 ≤ a ∧ a < s.regionAddr 2 + parts.header.length) →
        ¬ (s.regionAddr 3 ≤ a ∧ a < s.regionAddr 3 + p.length) → t.dmem.read a = s.dmem.read a)

/-- R322: when the tag does not verify, FRAME_PARSE still returns the header, in D2 and its length in RES0, and
writes nothing else. -/
def Obligations.FrameParseReturnsTheHeaderOnAuthFailure : Prop :=
  ∀ (s : State) (m x : Bytes) (parts : TokenParts), OperandsOk s .frameParse → Holds s 0 m → Holds s 1 x →
    parseToken s.params m x = .ok parts →
    openCore parts.key parts.nonce parts.header parts.sealed 32 = none →
    parts.header.length ≤ s.regionLen 2 → parts.sealed.length - 32 ≤ s.regionLen 3 →
    ∃ t, exec .frameParse s = .next t ∧
      t = { scrubbedErrorEnd s .authenticationFailure { entries := [], cur := 0 } with
        res0 := BitVec.ofNat 32 parts.header.length, dmem := t.dmem } ∧
      Stored s t 2 parts.header

/-- R277, R320, R321, R325: the other errors of FRAME_PARSE: a wrong field count before the load, which leaves store
and Spritz state; then, of a token of four fields, an error of the load; a key identifier that does not decode, or
is of no entry; a field 2 to 4 that does not decode; a nonce that is not 12 bytes; and a destination too small for
what a token free of these parses to. -/
def Obligations.FrameParseErrors : Prop :=
  ∀ (s : State) (m x : Bytes), OperandsOk s .frameParse → Holds s 0 m → Holds s 1 x →
    ((splitFields x).length ≠ 4 → exec .frameParse s = .next (errorEnd s .malformedMessage)) ∧
    (∀ e, (splitFields x).length = 4 → loadKeyring s.params m = .error e →
      exec .frameParse s = .next (scrubbedErrorEnd s e { entries := [], cur := 0 })) ∧
    (∀ (f1 f2 f3 f4 : Bytes) (kr : Keyring), splitFields x = [f1, f2, f3, f4] → loadKeyring s.params m = .ok kr →
      (dec85 s.params.b85Variant f1 = none →
        exec .frameParse s = .next (scrubbedErrorEnd s .invalidEncoding { entries := [], cur := 0 })) ∧
      (∀ d, dec85 s.params.b85Variant f1 = some d → (d.length ≠ 8 ∨ ∀ e ∈ kr.entries, e.id ≠ d) →
        exec .frameParse s = .next (scrubbedErrorEnd s .lookupFailure { entries := [], cur := 0 })) ∧
      (∀ e ∈ kr.entries, dec85 s.params.b85Variant f1 = some e.id →
        ((dec85 s.params.b85Variant f2 = none ∨ dec85 s.params.b85Variant f3 = none ∨
            dec85 s.params.b85Variant f4 = none) →
          exec .frameParse s = .next (scrubbedErrorEnd s .invalidEncoding { entries := [], cur := 0 })) ∧
        (∀ z h c, dec85 s.params.b85Variant f2 = some z → dec85 s.params.b85Variant f3 = some h →
          dec85 s.params.b85Variant f4 = some c →
          (z.length ≠ 12 →
            exec .frameParse s = .next (scrubbedErrorEnd s .malformedMessage { entries := [], cur := 0 })) ∧
          (z.length = 12 →
            parseToken s.params m x = .ok { key := e.key, nonce := z, header := h, sealed := c })))) ∧
    (∀ e, (splitFields x).length = 4 → parseToken s.params m x = .error e →
      exec .frameParse s = .next (scrubbedErrorEnd s e { entries := [], cur := 0 })) ∧
    (∀ parts, parseToken s.params m x = .ok parts →
      (s.regionLen 2 < parts.header.length ∨
        32 ≤ parts.sealed.length ∧ s.regionLen 3 < parts.sealed.length - 32) →
      exec .frameParse s = .next (scrubbedErrorEnd s .destTooSmall { entries := [], cur := 0 }))

/-- R324: the parts of a token that FRAME_SEAL composes for key material, header list, scope, nonce and
plaintext parse, under the same material, to the AAD and a message that opens to the plaintext. -/
def Obligations.SealParseIdentity : Prop :=
  ∀ (p : Params) (m b scope z pt h : Bytes) (kr : Keyring),
    loadKeyring p m = .ok kr → composeAad b scope = some h → z.length = 12 →
    ∃ parts, parseToken p m (composeToken p.b85Variant kr z h pt) = .ok parts ∧ parts.header = h ∧
      parts.nonce = z ∧ openCore parts.key parts.nonce parts.header parts.sealed 32 = some pt

/-! ### Checks before the work -/

/-- R84, R85, R346: for every command, a descriptor it uses that fails its region check ends it with
AddressRange; with all of them in range, an overlapping destination ends it with Overlap. Nothing else changes. -/
def Obligations.OperandChecksComeFirst : Prop :=
  ∀ (i : Instr) (s : State),
    ((∃ n ∈ sources i ++ destinations i, ¬ InDmem s n) → exec i s = .next (errorEnd s .addressRange)) ∧
    ((∀ n ∈ sources i ++ destinations i, InDmem s n) →
      ((∃ d ∈ destinations i, ∃ m ∈ sources i, ¬ Apart s d m) ∨
        (∃ d ∈ destinations i, ∃ e ∈ destinations i, d ≠ e ∧ ¬ Apart s d e)) →
      exec i s = .next (errorEnd s .overlap))

/-- R191, R193, R213, R214, R257: the length checks of the commands whose lengths decide them. -/
def Obligations.LengthChecksEndTheCommand : Prop :=
  ∀ (s : State) (r : Byte),
    (OperandsOk s (.hash r) → s.regionLen 1 < r.toNat → exec (.hash r) s = .next (errorEnd s .destTooSmall)) ∧
    (OperandsOk s .keyid → s.regionLen 1 < 10 → exec .keyid s = .next (errorEnd s .destTooSmall)) ∧
    (OperandsOk s (.aeadSeal r) → s.regionLen 1 ≠ 12 → exec (.aeadSeal r) s = .next (errorEnd s .badLength)) ∧
    (OperandsOk s (.aeadSeal r) → s.regionLen 1 = 12 → s.regionLen 4 < s.regionLen 3 + r.toNat →
      exec (.aeadSeal r) s = .next (errorEnd s .destTooSmall)) ∧
    (OperandsOk s (.aeadOpen r) → s.regionLen 1 ≠ 12 → exec (.aeadOpen r) s = .next (errorEnd s .badLength)) ∧
    (OperandsOk s (.aeadOpen r) → s.regionLen 1 = 12 → s.regionLen 4 + r.toNat < s.regionLen 3 →
      exec (.aeadOpen r) s = .next (errorEnd s .destTooSmall)) ∧
    (OperandsOk s .b85Enc → s.regionLen 1 < encodedLength (s.regionLen 0) →
      exec .b85Enc s = .next (errorEnd s .destTooSmall))

/-- R310, R312, R313: the checks of FRAME_AAD and FRAME_SEAL that come before any key is touched, and the load
errors of FRAME_SEAL after them. -/
def Obligations.FramerChecksInOrder : Prop :=
  ∀ (s : State) (m b scope : Bytes),
    (OperandsOk s .frameAad → Holds s 0 b → Holds s 1 scope →
      (composeAad b scope = none → exec .frameAad s = .next (errorEnd s .invalidHeaderList)) ∧
      (∀ h, composeAad b scope = some h → s.regionLen 2 < h.length →
        exec .frameAad s = .next (errorEnd s .destTooSmall))) ∧
    (OperandsOk s .frameSeal → s.regionLen 3 ≠ 12 → exec .frameSeal s = .next (errorEnd s .badLength)) ∧
    (OperandsOk s .frameSeal → Holds s 1 b → Holds s 2 scope → s.regionLen 3 = 12 →
      (composeAad b scope = none → exec .frameSeal s = .next (errorEnd s .invalidHeaderList)) ∧
      (∀ h, composeAad b scope = some h →
        (s.regionLen 5 < 10 + 1 + 15 + 1 + encodedLength h.length + 1 + encodedLength (s.regionLen 4 + 32) →
          exec .frameSeal s = .next (errorEnd s .destTooSmall)) ∧
        (10 + 1 + 15 + 1 + encodedLength h.length + 1 + encodedLength (s.regionLen 4 + 32) ≤ s.regionLen 5 →
          Holds s 0 m → ∀ e, loadKeyring s.params m = .error e →
          exec .frameSeal s = .next (scrubbedErrorEnd s e { entries := [], cur := 0 }))))

/-! ### Rules of the whole machine -/

/-- R113, R345, R349, R37, R45: every command completes in every state: BUSY falls, DONE rises, WERR and the
descriptors stay, and the turns and values of the host are untouched. -/
def Obligations.EveryCommandCompletes : Prop :=
  ∀ (i : Instr) (s : State), ∃ t, exec i s = .next t ∧ t.pend = none ∧ t.done = true ∧ t.werr = s.werr ∧
    t.desc = s.desc ∧ t.params = s.params ∧ t.agenda = s.agenda ∧ t.hostReads = s.hostReads ∧ EngineCode t.ecode

/-- R86, R347, R34: a command that ends in an error writes no byte and no result, but for FRAME_PARSE with
AuthenticationFailure; its RES1 too is 0. -/
def Obligations.FailedCommandsWriteNothing : Prop :=
  ∀ (i : Instr) (s t : State), exec i s = .next t → t.ecode ≠ 0 →
    t.res1 = 0 ∧
      (¬ (i = .frameParse ∧ t.ecode = errorCode .authenticationFailure) → t.dmem = s.dmem ∧ t.res0 = 0)

/-- R84, R86: a byte that a command changes lies in one of its destination regions. -/
def Obligations.OnlyDestinationsAreWritten : Prop :=
  ∀ (i : Instr) (s t : State) (a : Nat), exec i s = .next t → t.dmem.read a ≠ s.dmem.read a →
    ∃ d ∈ destinations i, InRegion s d a

/-- R347, R348: a high-level command leaves the Spritz state initial, or, ended by a pre-check, as it was; B85_*,
KR_LOOKUP, KR_CLEAR, FRAME_AAD and NOP leave it as it was. -/
def Obligations.HighLevelCommandsScrub : Prop :=
  ∀ (i : Instr) (s t : State), exec i s = .next t →
    (highLevel i = true → t.sponge = Sponge.init ∨ (t.ecode ≠ 0 ∧ t.sponge = s.sponge ∧ t.keyring = s.keyring)) ∧
    (i = .nop ∨ i = .b85Enc ∨ i = .b85Dec ∨ i = .krLookup ∨ i = .krClear ∨ i = .frameAad → t.sponge = s.sponge)

/-- R42, R47, R314: a step changes the keyring store only as the engine's, with KR_LOAD, KR_CLEAR, FRAME_SEAL or
FRAME_PARSE pending, or as a reset; FRAME_SEAL and FRAME_PARSE leave it empty or, failing before the load, as it
was. That an empty agenda is the engine's turn is the model's choice (log entry 3). -/
def Obligations.KeyringChangesOnlyByItsCommands : Prop :=
  (∀ s t : State, step s = .next t →
    t.keyring = s.keyring ∨ (∃ rest, s.agenda = .reset :: rest) ∨
      ((s.agenda = [] ∨ ∃ rest, s.agenda = .engine :: rest) ∧
        ∃ c i, s.pend = some c ∧ decode c = .ok i ∧
          (i = .krLoad ∨ i = .krClear ∨ i = .frameSeal ∨ i = .frameParse))) ∧
  (∀ (i : Instr) (s t : State), (i = .frameSeal ∨ i = .frameParse) → exec i s = .next t →
    (t.keyring.entries = [] ∧ t.keyring.cur = 0) ∨ (t.ecode ≠ 0 ∧ t.keyring = s.keyring))

/-- R380 with R41, R42, R80: the state after reset has the invariant, for any build parameters. -/
def Obligations.ResetHasTheInvariant : Prop :=
  (∀ p, Inv (State.resetWith p)) ∧ Inv State.reset

/-- R10, R33, R34, R41, R42, R80, R112, R341, R343: every step of either agent, and a reset, keeps the invariant,
and none changes the build parameters. -/
def Obligations.EveryStepKeepsTheInvariant : Prop :=
  ∀ s t : State, step s = .next t → t.params = s.params ∧ (Inv s → Inv t)
end

