-- ==== Sys2Proof/Laws/Sponge.lean ====
section
/-! SUPPORT. The registers S[0..255] as a table: what reading after setting, swapping and resetting gives, and what each procedure leaves alone. -/

namespace Sys2Proof.Machine

/-- The bits of the mask of entry 0. -/
theorem mask_bit (n : Nat) (hn : n < 2048) : (0xFF#2048).getLsbD n = decide (n < 8) := by
  have h : (0xFF#2048) = (BitVec.allOnes 8).setWidth 2048 := by decide +kernel
  rw [h, BitVec.getLsbD_setWidth, BitVec.getLsbD_allOnes]
  simp only [hn, decide_true, Bool.true_and]

/-- Setting one entry of S changes that entry and no other. -/
theorem boxGet_boxSet (S : BitVec 2048) (p q v : Byte) :
    boxGet (boxSet S p v) q = if q = p then v else boxGet S q := by
  have hp : p.toNat < 256 := p.isLt
  have hq : q.toNat < 256 := q.isLt
  apply BitVec.eq_of_getLsbD_eq
  intro i hi
  have h1 : 8 * q.toNat + i < 2048 := by omega
  have h2 : 8 * q.toNat + i - 8 * p.toNat < 2048 := by omega
  simp only [boxGet, boxSet, BitVec.getLsbD_extractLsb', BitVec.getLsbD_or, BitVec.getLsbD_and,
    BitVec.getLsbD_not, BitVec.getLsbD_shiftLeft, BitVec.getLsbD_setWidth, mask_bit _ h2, hi, h1, h2,
    decide_true, Bool.true_and]
  by_cases h : q = p
  · subst h
    simp [hi]
  · have hne : q.toNat ≠ p.toNat := fun e => h (BitVec.eq_of_toNat_eq e)
    rw [if_neg h]
    rcases Nat.lt_or_gt_of_ne hne with hlt | hgt
    · have h3 : 8 * q.toNat + i < 8 * p.toNat := by omega
      simp [hi, h3]
    · have h3 : ¬ 8 * q.toNat + i < 8 * p.toNat := by omega
      have h4 : ¬ 8 * q.toNat + i - 8 * p.toNat < 8 := by omega
      have h5 : v.getLsbD (8 * q.toNat + i - 8 * p.toNat) = false := BitVec.getLsbD_of_ge _ _ (by omega)
      simp [hi, h3, h4, h5]

/-- Two tables with equal entries are equal. -/
theorem box_ext (S T : BitVec 2048) (h : ∀ p, boxGet S p = boxGet T p) : S = T := by
  apply BitVec.eq_of_getLsbD_eq
  intro n hn
  have h1 := congrArg (fun b => b.getLsbD (n % 8)) (h (BitVec.ofNat 8 (n / 8)))
  have h2 : (BitVec.ofNat 8 (n / 8)).toNat = n / 8 := by
    rw [BitVec.toNat_ofNat]; exact Nat.mod_eq_of_lt (by omega)
  simp only [boxGet, BitVec.getLsbD_extractLsb', h2, Nat.mod_lt n (by decide : 0 < 8), decide_true,
    Bool.true_and, Nat.div_add_mod n 8] at h1
  exact h1

/-- `S[v] = v` in the initial state (R150). -/
theorem at_init (p : Byte) : Sponge.init.at p = p := by
  have h : ∀ n : Fin 256, Sponge.init.at (BitVec.ofFin n) = BitVec.ofFin n := by decide +kernel
  exact h p.toFin

/-- `Swap(S[p], S[q])` exchanges the two entries. -/
theorem swap_at (g : Sponge) (p q r : Byte) :
    (g.swap p q).at r = if r = q then g.at p else if r = p then g.at q else g.at r := by
  simp only [Sponge.swap, Sponge.at, boxGet_boxSet]

@[simp] theorem swap_i (g : Sponge) (p q : Byte) : (g.swap p q).i = g.i := rfl
@[simp] theorem swap_j (g : Sponge) (p q : Byte) : (g.swap p q).j = g.j := rfl
@[simp] theorem swap_k (g : Sponge) (p q : Byte) : (g.swap p q).k = g.k := rfl
@[simp] theorem swap_z (g : Sponge) (p q : Byte) : (g.swap p q).z = g.z := rfl
@[simp] theorem swap_a (g : Sponge) (p q : Byte) : (g.swap p q).a = g.a := rfl
@[simp] theorem swap_w (g : Sponge) (p q : Byte) : (g.swap p q).w = g.w := rfl

@[simp] theorem update_z (g : Sponge) : (update g).z = g.z := rfl
@[simp] theorem update_a (g : Sponge) : (update g).a = g.a := rfl
@[simp] theorem update_w (g : Sponge) : (update g).w = g.w := rfl
@[simp] theorem update_i (g : Sponge) : (update g).i = g.i + g.w := rfl

@[simp] theorem output_S (g : Sponge) : (output g).S = g.S := rfl
@[simp] theorem output_i (g : Sponge) : (output g).i = g.i := rfl
@[simp] theorem output_j (g : Sponge) : (output g).j = g.j := rfl
@[simp] theorem output_k (g : Sponge) : (output g).k = g.k := rfl
@[simp] theorem output_a (g : Sponge) : (output g).a = g.a := rfl
@[simp] theorem output_w (g : Sponge) : (output g).w = g.w := rfl

@[simp] theorem shuffle_a (g : Sponge) : (shuffle g).a = 0 := rfl

/-- Update only swaps two entries of S (R41, R151). -/
theorem update_at (g : Sponge) (r : Byte) :
    (update g).at r =
      if r = (update g).j then g.at (update g).i else if r = (update g).i then g.at (update g).j else g.at r := by
  exact swap_at _ _ _ _

/-- Update's `j`, from the new `i` (R151). -/
theorem update_j (g : Sponge) : (update g).j = g.k + g.at (g.j + g.at (update g).i) := rfl

/-- Update's `k`, from the new `i` and `j` (R151). -/
theorem update_k (g : Sponge) : (update g).k = (update g).i + g.k + g.at (update g).j := rfl

/-- Output's byte (R152). -/
theorem output_z (g : Sponge) : (output g).z = g.at (g.j + g.at (g.i + g.at (g.z + g.k))) := rfl

/-- Output moves no entry of S (R152). -/
@[simp] theorem output_at (g : Sponge) (p : Byte) : (output g).at p = g.at p := rfl

/-- A run of Updates leaves z, a and w. -/
@[simp] theorem updates_w (r : Nat) (g : Sponge) : (updates r g).w = g.w := by
  induction r generalizing g with
  | zero => rfl
  | succ r ih => rw [updates, ih, update_w]

@[simp] theorem updates_a (r : Nat) (g : Sponge) : (updates r g).a = g.a := by
  induction r generalizing g with
  | zero => rfl
  | succ r ih => rw [updates, ih, update_a]

@[simp] theorem updates_z (r : Nat) (g : Sponge) : (updates r g).z = g.z := by
  induction r generalizing g with
  | zero => rfl
  | succ r ih => rw [updates, ih, update_z]

@[simp] theorem whip_S (r : Nat) (g : Sponge) : (whip r g).S = (updates r g).S := rfl
@[simp] theorem whip_a (r : Nat) (g : Sponge) : (whip r g).a = g.a := updates_a r g
@[simp] theorem whip_z (r : Nat) (g : Sponge) : (whip r g).z = g.z := updates_z r g
@[simp] theorem whip_w (r : Nat) (g : Sponge) : (whip r g).w = nextW g.w := by simp [whip]

/-- One turn of Crush's loop swaps the mirror-image entries or does nothing (R154). -/
theorem crushAt_cases (g : Sponge) (v : Nat) :
    crushAt g v = g ∨ crushAt g v = g.swap (BitVec.ofNat 8 v) (BitVec.ofNat 8 (255 - v)) := by
  unfold crushAt
  split
  · exact .inr rfl
  · exact .inl rfl

/-- Crush moves entries of S only (R154). -/
theorem crush_fields (g : Sponge) : crush g = { g with S := (crush g).S } := by
  have h : ∀ (vs : List Nat) (f : Sponge), vs.foldl crushAt f = { f with S := (vs.foldl crushAt f).S } := by
    intro vs
    induction vs with
    | nil => intro f; rfl
    | cons v vs ih =>
      intro f
      rw [List.foldl_cons, ih]
      rcases crushAt_cases f v with hv | hv
      · rw [hv]
      · rw [hv]; rfl
  exact h _ g

/-- Shuffle by its parts, for rewriting: unfolding it in a goal runs it (R156). -/
theorem shuffle_eq (g : Sponge) :
    shuffle g = { whip 512 (crush (whip 512 (crush (whip 512 g)))) with a := 0 } := by rw [shuffle]

/-- The shuffle before an output leaves `a = 0` (R162, R163). -/
theorem settle_a (g : Sponge) : (settle g).a = 0 := by
  unfold settle
  split
  · rfl
  · rename_i h
    exact BitVec.le_zero_iff.1 (BitVec.not_lt.1 h)

/-- The shuffle before an output happens in every state but those with `a = 0` (R162, R163). -/
theorem settle_eq (g : Sponge) : settle g = if g.a = 0 then g else shuffle g := by
  unfold settle
  by_cases h : g.a = 0
  · rw [if_pos h, if_neg (by rw [h]; decide)]
  · rw [if_neg h, if_pos]
    show 0 < g.a
    rw [BitVec.lt_def]
    have : g.a.toNat ≠ 0 := fun e => h (BitVec.eq_of_toNat_eq (by simpa using e))
    simp only [BitVec.ofNat_eq_ofNat, BitVec.toNat_ofNat]
    omega

/-- At `a = 0` nothing is shuffled before an output. -/
theorem settle_of_zero (g : Sponge) (h : g.a = 0) : settle g = g := by
  unfold settle
  rw [h]
  exact if_neg (BitVec.lt_irrefl _)

/-- A squeeze gives as many bytes as asked (R163). -/
@[simp] theorem drips_length (r : Nat) (g : Sponge) : (drips r g).1.length = r := by
  induction r generalizing g with
  | zero => rfl
  | succ r ih => simp [drips, ih]

@[simp] theorem squeeze_length (r : Nat) (g : Sponge) : (squeeze r g).1.length = r := drips_length r _

end Sys2Proof.Machine
end

