-- ==== Sys2Proof/Laws/Aead.lean ====
section
/-! SUPPORT. What the AEAD's operations give: the lengths of keystream and tag, the two parts of a sealed message, and all that an opening can do. -/

namespace Sys2Proof.Machine

@[simp] theorem keystream_length (k z h : Bytes) (n : Nat) : (keystream k z h n).length = n := squeeze_length _ _

@[simp] theorem aeadTag_length (k z h c : Bytes) (r : Byte) : (aeadTag k z h c r).length = r.toNat := squeeze_length _ _

/-- A sealed message is a ciphertext of the message's length and the tag over it (R210). -/
theorem sealCore_parts (k z h m : Bytes) (r : Byte) :
    ∃ c, c = List.zipWith (· + ·) m (keystream k z h m.length) ∧ c.length = m.length ∧
      sealCore k z h m r = c ++ aeadTag k z h c r :=
  ⟨_, rfl, by simp, rfl⟩

/-- All that OpenCore can do (R212): fail on a short input or on a tag that differs, or give the ciphertext less
the keystream. -/
theorem openCore_cases (k z h x : Bytes) (r : Byte) :
    (x.length < r.toNat ∧ openCore k z h x r = none) ∨
    ∃ c t, x = c ++ t ∧ t.length = r.toNat ∧
      ((tagEqual t (aeadTag k z h c r) = false ∧ openCore k z h x r = none) ∨
        (tagEqual t (aeadTag k z h c r) = true ∧
          openCore k z h x r = some (List.zipWith (· - ·) c (keystream k z h c.length)))) := by
  unfold openCore
  by_cases hl : x.length < r.toNat
  · exact .inl ⟨hl, if_pos hl⟩
  · rw [if_neg hl]
    refine .inr ⟨x.take (x.length - r.toNat), x.drop (x.length - r.toNat), (List.take_append_drop _ _).symm, ?_, ?_⟩
    · rw [List.length_drop]; omega
    · cases ht : tagEqual (x.drop (x.length - r.toNat)) (aeadTag k z h (x.take (x.length - r.toNat)) r) with
      | false => exact .inl ⟨rfl, by simp [ht]⟩
      | true => exact .inr ⟨rfl, by simp [ht]⟩

end Sys2Proof.Machine
end

