-- ==== Sys2Proof/Laws/Encoding.lean ====
section
/-! SUPPORT. The fields of a command word: what each reads from a word put together, and that they make up the word. -/

namespace Sys2Proof

/-- The bits of a command word. -/
theorem commandWord_bit (op imm8 : Byte) (n : Nat) :
    (commandWord op imm8).getLsbD n =
      if n < 8 then op.getLsbD n else if n < 16 then imm8.getLsbD (n - 8) else false := by
  have h : (commandWord op imm8).getLsbD n =
      (((0 : BitVec 16) ++ imm8 ++ op : BitVec (16 + 8 + 8))).getLsbD n := rfl
  rw [h, BitVec.getLsbD_append, BitVec.getLsbD_append]
  by_cases h1 : n < 8
  · simp [h1]
  · by_cases h2 : n < 16
    · have h3 : n - 8 < 8 := by omega
      simp [h1, h2, h3]
    · have h3 : ¬ n - 8 < 8 := by omega
      simp [h1, h2, h3]

/-- OP of a word put together (R110). -/
@[simp] theorem opOf_commandWord (op imm8 : Byte) : opOf (commandWord op imm8) = op := by
  apply BitVec.eq_of_getLsbD_eq
  intro n hn
  simp only [opOf, BitVec.getLsbD_extractLsb', commandWord_bit, hn, decide_true, Bool.true_and, Nat.zero_add, if_true]

/-- IMM8 of a word put together (R110). -/
@[simp] theorem imm8Of_commandWord (op imm8 : Byte) : imm8Of (commandWord op imm8) = imm8 := by
  apply BitVec.eq_of_getLsbD_eq
  intro n hn
  have h1 : ¬ 8 + n < 8 := by omega
  have h2 : 8 + n < 16 := by omega
  have h3 : 8 + n - 8 = n := by omega
  simp only [imm8Of, BitVec.getLsbD_extractLsb', commandWord_bit, hn, decide_true, Bool.true_and, h1, h2, h3,
    if_false, if_true]

/-- RSV of a word put together (R110). -/
@[simp] theorem rsvOf_commandWord (op imm8 : Byte) : rsvOf (commandWord op imm8) = 0 := by
  apply BitVec.eq_of_getLsbD_eq
  intro n hn
  have h1 : ¬ 16 + n < 8 := by omega
  have h2 : ¬ 16 + n < 16 := by omega
  simp only [rsvOf, BitVec.getLsbD_extractLsb', commandWord_bit, h1, h2, if_false, Bool.and_false]
  simp

/-- A word with RSV = 0 is put together from its OP and its IMM8 (R110). -/
theorem commandWord_of_fields (c : Word) (h : rsvOf c = 0) : c = commandWord (opOf c) (imm8Of c) := by
  apply BitVec.eq_of_getLsbD_eq
  intro n hn
  rw [commandWord_bit]
  split
  · rename_i h1
    simp [opOf, h1]
  · split
    · rename_i h1 h2
      have h3 : n - 8 < 8 := by omega
      have h4 : 8 + (n - 8) = n := by omega
      simp [imm8Of, h3, h4]
    · rename_i h1 h2
      have h5 := congrArg (fun r => r.getLsbD (n - 16)) h
      have h3 : n - 16 < 16 := by omega
      have h4 : 16 + (n - 16) = n := by omega
      simpa [rsvOf, h3, h4] using h5

/-- The fields of a word put together. -/
theorem fieldsOf_commandWord (op imm8 : Byte) :
    fieldsOf (commandWord op imm8) = { op := op, imm8 := imm8, rsv := 0 } := by
  simp only [fieldsOf, opOf_commandWord, imm8Of_commandWord, rsvOf_commandWord]

end Sys2Proof
end

