-- ==== Sys2Proof/Laws/Memory.lean ====
section
/-! SUPPORT. What the DMEM operations do: reads after writes, the canonical form, and what a read of a region gives. -/

namespace Sys2Proof.Machine

@[simp] theorem memory_read_nil (a : Nat) : Memory.read [] a = none := rfl

/-! ### Reads after writes -/

/-- A write changes the byte it names and no other (R80). -/
theorem memory_read_write (m : Memory) (a b : Nat) (v : Byte) :
    (m.write a v).read b = if b = a then some v else m.read b := by
  induction m with
  | nil => simp [Memory.write, Memory.read, eq_comm]
  | cons c rest ih =>
    unfold Memory.write
    split
    · simp [Memory.read, eq_comm]
    · split
      · rename_i h1 h2
        by_cases hb : b = a
        · simp [Memory.read, hb]
        · have h3 : ¬ a = b := fun e => hb e.symm
          have h4 : ¬ c.1 = b := fun e => hb (by omega)
          simp [Memory.read, hb, h3, h4]
      · rename_i h1 h2
        by_cases hc : c.1 = b
        · have hb : ¬ b = a := by omega
          simp [Memory.read, hc, hb]
        · simp [Memory.read, hc, ih]

/-- MemWrite stores the bytes it is given from its address on, and changes no other byte (R13, R86). -/
theorem memory_read_writeBytes (m : Memory) (a b : Nat) (bs : Bytes) :
    (m.writeBytes a bs).read b =
      if a ≤ b ∧ b < a + bs.length then bs[b - a]? else m.read b := by
  induction bs generalizing m a with
  | nil =>
    have h : ¬ (a ≤ b ∧ b < a + ([] : Bytes).length) := by simp
    rw [if_neg h]; rfl
  | cons x xs ih =>
    rw [Memory.writeBytes, ih, memory_read_write, List.length_cons]
    by_cases h1 : a + 1 ≤ b ∧ b < a + 1 + xs.length
    · have h2 : a ≤ b ∧ b < a + (xs.length + 1) := by omega
      have h3 : b - a = (b - (a + 1)) + 1 := by omega
      rw [if_pos h1, if_pos h2, h3, List.getElem?_cons_succ]
    · rw [if_neg h1]
      by_cases h4 : b = a
      · have h2 : a ≤ b ∧ b < a + (xs.length + 1) := by omega
        rw [if_pos h4, if_pos h2, h4, Nat.sub_self]; rfl
      · have h2 : ¬ (a ≤ b ∧ b < a + (xs.length + 1)) := by omega
        rw [if_neg h4, if_neg h2]

/-! ### The canonical form -/

/-- The canonical form, entry by entry. -/
theorem memory_wf_cons (c : Host.Cell) (m : Memory) :
    Memory.wf (c :: m) = true ↔ (∀ d ∈ m.head?, c.1 < d.1) ∧ Memory.wf m = true := by
  cases m with
  | nil => simp [Memory.wf]
  | cons d rest => simp [Memory.wf]

/-- The first address after a write. -/
theorem memory_head_write (m : Memory) (a : Nat) (v : Byte) (n : Nat) (hn : n < a)
    (hm : ∀ d ∈ m.head?, n < d.1) : ∀ d ∈ (m.write a v).head?, n < d.1 := by
  cases m with
  | nil => intro d hd; simp [Memory.write] at hd; subst hd; exact hn
  | cons c rest =>
    intro d hd
    unfold Memory.write at hd
    split at hd
    · simp at hd; subst hd; exact hn
    · split at hd
      · simp at hd; subst hd; exact hn
      · simp at hd; subst hd; exact hm c (by simp)

/-- A write of one byte keeps the canonical form. -/
theorem memory_wf_write (m : Memory) (a : Nat) (v : Byte) (hm : m.wf = true) : (m.write a v).wf = true := by
  induction m with
  | nil => rfl
  | cons c rest ih =>
    obtain ⟨hc, hr⟩ := (memory_wf_cons c rest).1 hm
    unfold Memory.write
    split
    · rename_i h; rw [memory_wf_cons]; exact ⟨by simpa using h, hm⟩
    · split
      · rename_i h1 h2; rw [memory_wf_cons]; exact ⟨by subst h2; exact hc, hr⟩
      · rename_i h1 h2
        rw [memory_wf_cons]
        exact ⟨memory_head_write rest a v c.1 (by omega) hc, ih hr⟩

/-- MemWrite keeps the canonical form. -/
theorem memory_wf_writeBytes (m : Memory) (a : Nat) (bs : Bytes) (hm : m.wf = true) :
    (m.writeBytes a bs).wf = true := by
  induction bs generalizing m a with
  | nil => exact hm
  | cons x xs ih => exact ih _ _ (memory_wf_write m a x hm)

/-- Committing the writes of an outcome keeps the canonical form. -/
theorem commit_wf (s : State) (ws : List (Fin 8 × Bytes)) (hm : s.dmem.wf = true) :
    (s.commit ws).dmem.wf = true := by
  have h : ∀ m : Memory, m.wf = true →
      Memory.wf (ws.foldl (fun m w => m.writeBytes (s.regionAddr w.1) w.2) m) = true := by
    induction ws with
    | nil => intro m hm; exact hm
    | cons w rest ih => intro m hm; exact ih _ (memory_wf_writeBytes m _ _ hm)
  exact h _ hm

/-- Below its first address a canonical memory holds nothing. -/
theorem memory_read_low (m : Memory) (hm : m.wf = true) (a : Nat) (ha : ∀ d ∈ m.head?, a < d.1) :
    m.read a = none := by
  induction m with
  | nil => rfl
  | cons c rest ih =>
    obtain ⟨hc, hr⟩ := (memory_wf_cons c rest).1 hm
    have h1 : a < c.1 := ha c (by simp)
    have h2 : c.1 ≠ a := by omega
    rw [Memory.read, if_neg h2]
    exact ih hr (fun d hd => by have := hc d hd; omega)

/-- Two canonical memories that read alike everywhere are equal. -/
theorem memory_ext (m n : Memory) (hm : m.wf = true) (hn : n.wf = true) (h : ∀ a, m.read a = n.read a) :
    m = n := by
  induction m generalizing n with
  | nil =>
    cases n with
    | nil => rfl
    | cons d rest => have := h d.1; simp [Memory.read] at this
  | cons c rest ih =>
    cases n with
    | nil => have := h c.1; simp [Memory.read] at this
    | cons d rest' =>
      have lowM := fun a ha => memory_read_low (c :: rest) hm a ha
      have lowN := fun a ha => memory_read_low (d :: rest') hn a ha
      have hcd : c.1 = d.1 := by
        rcases Nat.lt_trichotomy c.1 d.1 with hlt | heq | hgt
        · have h1 := h c.1
          rw [lowN c.1 (by simpa using hlt)] at h1
          simp [Memory.read] at h1
        · exact heq
        · have h1 := h d.1
          rw [lowM d.1 (by simpa using hgt)] at h1
          simp [Memory.read] at h1
      have hv : c.2 = d.2 := by
        have h1 := h c.1
        simpa [Memory.read, hcd] using h1
      obtain ⟨hc, hr⟩ := (memory_wf_cons c rest).1 hm
      obtain ⟨hd, hr'⟩ := (memory_wf_cons d rest').1 hn
      have htail : rest = rest' := by
        apply ih rest' hr hr'
        intro a
        by_cases ha : c.1 = a
        · subst ha
          rw [memory_read_low rest hr _ hc, memory_read_low rest' hr' _ (by rw [hcd]; exact hd)]
        · have h1 := h a
          have ha' : d.1 ≠ a := by omega
          rwa [Memory.read, Memory.read, if_neg ha, if_neg ha'] at h1
      rw [htail, Prod.ext hcd hv]

/-! ### Reads of a region -/

/-- A read gives as many bytes as asked. -/
@[simp] theorem memRead_length (m : Memory) (a n d : Nat) : (memRead m a n d).1.length = n := by
  induction n generalizing a d with
  | zero => rfl
  | succ n ih =>
    unfold memRead
    split <;> simp [ih]

/-- A read gives every byte that has a value as it is. -/
theorem memRead_written (m : Memory) (a n d k : Nat) (b : Byte) (hk : k < n) (hb : m.read (a + k) = some b) :
    (memRead m a n d).1[k]? = some b := by
  induction n generalizing a d k with
  | zero => omega
  | succ n ih =>
    cases k with
    | zero =>
      unfold memRead
      rw [Nat.add_zero] at hb
      rw [hb]; rfl
    | succ k =>
      have hb' : m.read (a + 1 + k) = some b := by rw [← hb]; congr 1; omega
      unfold memRead
      split
      · simpa using ih (a + 1) d k (by omega) hb'
      · simpa using ih (a + 1) (d + 1) k (by omega) hb'

/-- A read of bytes that all have a value draws nothing. -/
theorem memRead_draws (m : Memory) (a n d : Nat) (h : ∀ k, k < n → m.read (a + k) ≠ none) :
    (memRead m a n d).2 = d := by
  induction n generalizing a d with
  | zero => rfl
  | succ n ih =>
    unfold memRead
    split
    · exact ih (a + 1) d (fun k hk => by have := h (k + 1) (by omega); rwa [show a + 1 + k = a + (k + 1) by omega])
    · rename_i h0; exact absurd h0 (by simpa using h 0 (by omega))

/-- Region(n) has the region's length (R13). -/
@[simp] theorem region_length (s : State) (n : Fin 8) : (s.region n).length = s.regionLen n :=
  memRead_length _ _ _ _

/-- Region(n) gives every byte that has a value as it is (R13, R88). -/
theorem region_written (s : State) (n : Fin 8) (k : Nat) (b : Byte) (hk : k < s.regionLen n)
    (hb : s.dmem.read (s.regionAddr n + k) = some b) : (s.region n)[k]? = some b :=
  memRead_written _ _ _ _ k b hk hb

/-- Region(n) of a region whose every byte is written is what was written (R88). -/
theorem region_eq (s : State) (n : Fin 8) (bs : Bytes) (hl : bs.length = s.regionLen n)
    (h : ∀ k, k < bs.length → s.dmem.read (s.regionAddr n + k) = bs[k]?) : s.region n = bs := by
  apply List.ext_getElem?
  intro k
  by_cases hk : k < bs.length
  · rw [List.getElem?_eq_getElem hk]
    exact region_written s n k _ (by omega) (by rw [h k hk, List.getElem?_eq_getElem hk])
  · rw [List.getElem?_eq_none (by rw [region_length]; omega), List.getElem?_eq_none (by omega)]

/-- Reading such a region changes nothing. -/
theorem afterRead_eq (s : State) (n : Fin 8) (h : ∀ k, k < s.regionLen n → s.dmem.read (s.regionAddr n + k) ≠ none) :
    s.afterRead n = s := by
  simp only [State.afterRead, memRead_draws _ _ _ _ h]

/-- The commit of one write, byte by byte (R86). -/
theorem commit_read (s : State) (n : Fin 8) (bs : Bytes) (a : Nat) :
    (s.commit [(n, bs)]).dmem.read a =
      if s.regionAddr n ≤ a ∧ a < s.regionAddr n + bs.length then bs[a - s.regionAddr n]? else s.dmem.read a := by
  simp only [State.commit, List.foldl_cons, List.foldl_nil, memory_read_writeBytes]

end Sys2Proof.Machine
end

