-- ==== Sys2Proof/Laws/State.lean ====
section
/-! SUPPORT. One lemma per field per update of the state, each true by definition, so that no proof unfolds a record update. -/

namespace Sys2Proof.Machine

variable (s : State)

/-! ### startCommand -/

@[simp] theorem startCommand_params (c : Word) : (s.startCommand c).params = s.params := rfl
@[simp] theorem startCommand_pend (c : Word) : (s.startCommand c).pend = some c := rfl
@[simp] theorem startCommand_done (c : Word) : (s.startCommand c).done = false := rfl
@[simp] theorem startCommand_werr (c : Word) : (s.startCommand c).werr = s.werr := rfl
@[simp] theorem startCommand_ecode (c : Word) : (s.startCommand c).ecode = 0 := rfl
@[simp] theorem startCommand_res0 (c : Word) : (s.startCommand c).res0 = 0 := rfl
@[simp] theorem startCommand_res1 (c : Word) : (s.startCommand c).res1 = 0 := rfl
@[simp] theorem startCommand_desc (c : Word) : (s.startCommand c).desc = s.desc := rfl
@[simp] theorem startCommand_sponge (c : Word) : (s.startCommand c).sponge = s.sponge := rfl
@[simp] theorem startCommand_keyring (c : Word) : (s.startCommand c).keyring = s.keyring := rfl
@[simp] theorem startCommand_dmem (c : Word) : (s.startCommand c).dmem = s.dmem := rfl
@[simp] theorem startCommand_draws (c : Word) : (s.startCommand c).draws = s.draws := rfl
@[simp] theorem startCommand_agenda (c : Word) : (s.startCommand c).agenda = s.agenda := rfl
@[simp] theorem startCommand_hostReads (c : Word) : (s.startCommand c).hostReads = s.hostReads := rfl

/-! ### finish -/

@[simp] theorem finish_params (code : Byte) (r0 r1 : Word) : (s.finish code r0 r1).params = s.params := rfl
@[simp] theorem finish_pend (code : Byte) (r0 r1 : Word) : (s.finish code r0 r1).pend = none := rfl
@[simp] theorem finish_done (code : Byte) (r0 r1 : Word) : (s.finish code r0 r1).done = true := rfl
@[simp] theorem finish_werr (code : Byte) (r0 r1 : Word) : (s.finish code r0 r1).werr = s.werr := rfl
@[simp] theorem finish_ecode (code : Byte) (r0 r1 : Word) : (s.finish code r0 r1).ecode = code := rfl
@[simp] theorem finish_res0 (code : Byte) (r0 r1 : Word) : (s.finish code r0 r1).res0 = r0 := rfl
@[simp] theorem finish_res1 (code : Byte) (r0 r1 : Word) : (s.finish code r0 r1).res1 = r1 := rfl
@[simp] theorem finish_desc (code : Byte) (r0 r1 : Word) : (s.finish code r0 r1).desc = s.desc := rfl
@[simp] theorem finish_sponge (code : Byte) (r0 r1 : Word) : (s.finish code r0 r1).sponge = s.sponge := rfl
@[simp] theorem finish_keyring (code : Byte) (r0 r1 : Word) : (s.finish code r0 r1).keyring = s.keyring := rfl
@[simp] theorem finish_dmem (code : Byte) (r0 r1 : Word) : (s.finish code r0 r1).dmem = s.dmem := rfl
@[simp] theorem finish_draws (code : Byte) (r0 r1 : Word) : (s.finish code r0 r1).draws = s.draws := rfl
@[simp] theorem finish_agenda (code : Byte) (r0 r1 : Word) : (s.finish code r0 r1).agenda = s.agenda := rfl
@[simp] theorem finish_hostReads (code : Byte) (r0 r1 : Word) : (s.finish code r0 r1).hostReads = s.hostReads := rfl

/-! ### raise -/

@[simp] theorem raise_params (e : ErrorKind) : (s.raise e).params = s.params := rfl
@[simp] theorem raise_pend (e : ErrorKind) : (s.raise e).pend = none := rfl
@[simp] theorem raise_done (e : ErrorKind) : (s.raise e).done = true := rfl
@[simp] theorem raise_werr (e : ErrorKind) : (s.raise e).werr = s.werr := rfl
@[simp] theorem raise_ecode (e : ErrorKind) : (s.raise e).ecode = errorCode e := rfl
@[simp] theorem raise_res0 (e : ErrorKind) : (s.raise e).res0 = 0 := rfl
@[simp] theorem raise_res1 (e : ErrorKind) : (s.raise e).res1 = 0 := rfl
@[simp] theorem raise_desc (e : ErrorKind) : (s.raise e).desc = s.desc := rfl
@[simp] theorem raise_sponge (e : ErrorKind) : (s.raise e).sponge = s.sponge := rfl
@[simp] theorem raise_keyring (e : ErrorKind) : (s.raise e).keyring = s.keyring := rfl
@[simp] theorem raise_dmem (e : ErrorKind) : (s.raise e).dmem = s.dmem := rfl
@[simp] theorem raise_draws (e : ErrorKind) : (s.raise e).draws = s.draws := rfl
@[simp] theorem raise_agenda (e : ErrorKind) : (s.raise e).agenda = s.agenda := rfl
@[simp] theorem raise_hostReads (e : ErrorKind) : (s.raise e).hostReads = s.hostReads := rfl

/-! ### commit -/

@[simp] theorem commit_params (ws : List (Fin 8 × Bytes)) : (s.commit ws).params = s.params := rfl
@[simp] theorem commit_pend (ws : List (Fin 8 × Bytes)) : (s.commit ws).pend = s.pend := rfl
@[simp] theorem commit_done (ws : List (Fin 8 × Bytes)) : (s.commit ws).done = s.done := rfl
@[simp] theorem commit_werr (ws : List (Fin 8 × Bytes)) : (s.commit ws).werr = s.werr := rfl
@[simp] theorem commit_ecode (ws : List (Fin 8 × Bytes)) : (s.commit ws).ecode = s.ecode := rfl
@[simp] theorem commit_res0 (ws : List (Fin 8 × Bytes)) : (s.commit ws).res0 = s.res0 := rfl
@[simp] theorem commit_res1 (ws : List (Fin 8 × Bytes)) : (s.commit ws).res1 = s.res1 := rfl
@[simp] theorem commit_desc (ws : List (Fin 8 × Bytes)) : (s.commit ws).desc = s.desc := rfl
@[simp] theorem commit_sponge (ws : List (Fin 8 × Bytes)) : (s.commit ws).sponge = s.sponge := rfl
@[simp] theorem commit_keyring (ws : List (Fin 8 × Bytes)) : (s.commit ws).keyring = s.keyring := rfl
@[simp] theorem commit_dmem (ws : List (Fin 8 × Bytes)) : (s.commit ws).dmem = ws.foldl (fun m w => m.writeBytes (s.regionAddr w.1) w.2) s.dmem := rfl
@[simp] theorem commit_draws (ws : List (Fin 8 × Bytes)) : (s.commit ws).draws = s.draws := rfl
@[simp] theorem commit_agenda (ws : List (Fin 8 × Bytes)) : (s.commit ws).agenda = s.agenda := rfl
@[simp] theorem commit_hostReads (ws : List (Fin 8 × Bytes)) : (s.commit ws).hostReads = s.hostReads := rfl

/-! ### complete -/

@[simp] theorem complete_params (r0 r1 : Word) (ws : List (Fin 8 × Bytes)) : (s.complete r0 r1 ws).params = s.params := rfl
@[simp] theorem complete_pend (r0 r1 : Word) (ws : List (Fin 8 × Bytes)) : (s.complete r0 r1 ws).pend = none := rfl
@[simp] theorem complete_done (r0 r1 : Word) (ws : List (Fin 8 × Bytes)) : (s.complete r0 r1 ws).done = true := rfl
@[simp] theorem complete_werr (r0 r1 : Word) (ws : List (Fin 8 × Bytes)) : (s.complete r0 r1 ws).werr = s.werr := rfl
@[simp] theorem complete_ecode (r0 r1 : Word) (ws : List (Fin 8 × Bytes)) : (s.complete r0 r1 ws).ecode = 0 := rfl
@[simp] theorem complete_res0 (r0 r1 : Word) (ws : List (Fin 8 × Bytes)) : (s.complete r0 r1 ws).res0 = r0 := rfl
@[simp] theorem complete_res1 (r0 r1 : Word) (ws : List (Fin 8 × Bytes)) : (s.complete r0 r1 ws).res1 = r1 := rfl
@[simp] theorem complete_desc (r0 r1 : Word) (ws : List (Fin 8 × Bytes)) : (s.complete r0 r1 ws).desc = s.desc := rfl
@[simp] theorem complete_sponge (r0 r1 : Word) (ws : List (Fin 8 × Bytes)) : (s.complete r0 r1 ws).sponge = s.sponge := rfl
@[simp] theorem complete_keyring (r0 r1 : Word) (ws : List (Fin 8 × Bytes)) : (s.complete r0 r1 ws).keyring = s.keyring := rfl
@[simp] theorem complete_dmem (r0 r1 : Word) (ws : List (Fin 8 × Bytes)) : (s.complete r0 r1 ws).dmem = (s.commit ws).dmem := rfl
@[simp] theorem complete_draws (r0 r1 : Word) (ws : List (Fin 8 × Bytes)) : (s.complete r0 r1 ws).draws = s.draws := rfl
@[simp] theorem complete_agenda (r0 r1 : Word) (ws : List (Fin 8 × Bytes)) : (s.complete r0 r1 ws).agenda = s.agenda := rfl
@[simp] theorem complete_hostReads (r0 r1 : Word) (ws : List (Fin 8 × Bytes)) : (s.complete r0 r1 ws).hostReads = s.hostReads := rfl

/-! ### scrub -/

@[simp] theorem scrub_params : (s.scrub).params = s.params := rfl
@[simp] theorem scrub_pend : (s.scrub).pend = s.pend := rfl
@[simp] theorem scrub_done : (s.scrub).done = s.done := rfl
@[simp] theorem scrub_werr : (s.scrub).werr = s.werr := rfl
@[simp] theorem scrub_ecode : (s.scrub).ecode = s.ecode := rfl
@[simp] theorem scrub_res0 : (s.scrub).res0 = s.res0 := rfl
@[simp] theorem scrub_res1 : (s.scrub).res1 = s.res1 := rfl
@[simp] theorem scrub_desc : (s.scrub).desc = s.desc := rfl
@[simp] theorem scrub_sponge : (s.scrub).sponge = Sponge.init := rfl
@[simp] theorem scrub_keyring : (s.scrub).keyring = s.keyring := rfl
@[simp] theorem scrub_dmem : (s.scrub).dmem = s.dmem := rfl
@[simp] theorem scrub_draws : (s.scrub).draws = s.draws := rfl
@[simp] theorem scrub_agenda : (s.scrub).agenda = s.agenda := rfl
@[simp] theorem scrub_hostReads : (s.scrub).hostReads = s.hostReads := rfl

/-! ### setSponge -/

@[simp] theorem setSponge_params (g : Sponge) : (s.setSponge g).params = s.params := rfl
@[simp] theorem setSponge_pend (g : Sponge) : (s.setSponge g).pend = s.pend := rfl
@[simp] theorem setSponge_done (g : Sponge) : (s.setSponge g).done = s.done := rfl
@[simp] theorem setSponge_werr (g : Sponge) : (s.setSponge g).werr = s.werr := rfl
@[simp] theorem setSponge_ecode (g : Sponge) : (s.setSponge g).ecode = s.ecode := rfl
@[simp] theorem setSponge_res0 (g : Sponge) : (s.setSponge g).res0 = s.res0 := rfl
@[simp] theorem setSponge_res1 (g : Sponge) : (s.setSponge g).res1 = s.res1 := rfl
@[simp] theorem setSponge_desc (g : Sponge) : (s.setSponge g).desc = s.desc := rfl
@[simp] theorem setSponge_sponge (g : Sponge) : (s.setSponge g).sponge = g := rfl
@[simp] theorem setSponge_keyring (g : Sponge) : (s.setSponge g).keyring = s.keyring := rfl
@[simp] theorem setSponge_dmem (g : Sponge) : (s.setSponge g).dmem = s.dmem := rfl
@[simp] theorem setSponge_draws (g : Sponge) : (s.setSponge g).draws = s.draws := rfl
@[simp] theorem setSponge_agenda (g : Sponge) : (s.setSponge g).agenda = s.agenda := rfl
@[simp] theorem setSponge_hostReads (g : Sponge) : (s.setSponge g).hostReads = s.hostReads := rfl

/-! ### setKeyring -/

@[simp] theorem setKeyring_params (k : Keyring) : (s.setKeyring k).params = s.params := rfl
@[simp] theorem setKeyring_pend (k : Keyring) : (s.setKeyring k).pend = s.pend := rfl
@[simp] theorem setKeyring_done (k : Keyring) : (s.setKeyring k).done = s.done := rfl
@[simp] theorem setKeyring_werr (k : Keyring) : (s.setKeyring k).werr = s.werr := rfl
@[simp] theorem setKeyring_ecode (k : Keyring) : (s.setKeyring k).ecode = s.ecode := rfl
@[simp] theorem setKeyring_res0 (k : Keyring) : (s.setKeyring k).res0 = s.res0 := rfl
@[simp] theorem setKeyring_res1 (k : Keyring) : (s.setKeyring k).res1 = s.res1 := rfl
@[simp] theorem setKeyring_desc (k : Keyring) : (s.setKeyring k).desc = s.desc := rfl
@[simp] theorem setKeyring_sponge (k : Keyring) : (s.setKeyring k).sponge = s.sponge := rfl
@[simp] theorem setKeyring_keyring (k : Keyring) : (s.setKeyring k).keyring = k := rfl
@[simp] theorem setKeyring_dmem (k : Keyring) : (s.setKeyring k).dmem = s.dmem := rfl
@[simp] theorem setKeyring_draws (k : Keyring) : (s.setKeyring k).draws = s.draws := rfl
@[simp] theorem setKeyring_agenda (k : Keyring) : (s.setKeyring k).agenda = s.agenda := rfl
@[simp] theorem setKeyring_hostReads (k : Keyring) : (s.setKeyring k).hostReads = s.hostReads := rfl

/-! ### clearKeyring -/

@[simp] theorem clearKeyring_params : (s.clearKeyring).params = s.params := rfl
@[simp] theorem clearKeyring_pend : (s.clearKeyring).pend = s.pend := rfl
@[simp] theorem clearKeyring_done : (s.clearKeyring).done = s.done := rfl
@[simp] theorem clearKeyring_werr : (s.clearKeyring).werr = s.werr := rfl
@[simp] theorem clearKeyring_ecode : (s.clearKeyring).ecode = s.ecode := rfl
@[simp] theorem clearKeyring_res0 : (s.clearKeyring).res0 = s.res0 := rfl
@[simp] theorem clearKeyring_res1 : (s.clearKeyring).res1 = s.res1 := rfl
@[simp] theorem clearKeyring_desc : (s.clearKeyring).desc = s.desc := rfl
@[simp] theorem clearKeyring_sponge : (s.clearKeyring).sponge = s.sponge := rfl
@[simp] theorem clearKeyring_keyring : (s.clearKeyring).keyring = Keyring.empty := rfl
@[simp] theorem clearKeyring_dmem : (s.clearKeyring).dmem = s.dmem := rfl
@[simp] theorem clearKeyring_draws : (s.clearKeyring).draws = s.draws := rfl
@[simp] theorem clearKeyring_agenda : (s.clearKeyring).agenda = s.agenda := rfl
@[simp] theorem clearKeyring_hostReads : (s.clearKeyring).hostReads = s.hostReads := rfl

/-! ### afterRead -/

@[simp] theorem afterRead_params (n : Fin 8) : (s.afterRead n).params = s.params := rfl
@[simp] theorem afterRead_pend (n : Fin 8) : (s.afterRead n).pend = s.pend := rfl
@[simp] theorem afterRead_done (n : Fin 8) : (s.afterRead n).done = s.done := rfl
@[simp] theorem afterRead_werr (n : Fin 8) : (s.afterRead n).werr = s.werr := rfl
@[simp] theorem afterRead_ecode (n : Fin 8) : (s.afterRead n).ecode = s.ecode := rfl
@[simp] theorem afterRead_res0 (n : Fin 8) : (s.afterRead n).res0 = s.res0 := rfl
@[simp] theorem afterRead_res1 (n : Fin 8) : (s.afterRead n).res1 = s.res1 := rfl
@[simp] theorem afterRead_desc (n : Fin 8) : (s.afterRead n).desc = s.desc := rfl
@[simp] theorem afterRead_sponge (n : Fin 8) : (s.afterRead n).sponge = s.sponge := rfl
@[simp] theorem afterRead_keyring (n : Fin 8) : (s.afterRead n).keyring = s.keyring := rfl
@[simp] theorem afterRead_dmem (n : Fin 8) : (s.afterRead n).dmem = s.dmem := rfl
@[simp] theorem afterRead_draws (n : Fin 8) : (s.afterRead n).draws = (memRead s.dmem (s.regionAddr n) (s.regionLen n) s.draws).2 := rfl
@[simp] theorem afterRead_agenda (n : Fin 8) : (s.afterRead n).agenda = s.agenda := rfl
@[simp] theorem afterRead_hostReads (n : Fin 8) : (s.afterRead n).hostReads = s.hostReads := rfl

/-! ### writeStatus -/

@[simp] theorem writeStatus_params (v : Word) : (s.writeStatus v).params = s.params := rfl
@[simp] theorem writeStatus_pend (v : Word) : (s.writeStatus v).pend = s.pend := rfl
@[simp] theorem writeStatus_done (v : Word) : (s.writeStatus v).done = (s.done && !v.getLsbD 1) := rfl
@[simp] theorem writeStatus_werr (v : Word) : (s.writeStatus v).werr = (s.werr && !v.getLsbD 3) := rfl
@[simp] theorem writeStatus_ecode (v : Word) : (s.writeStatus v).ecode = s.ecode := rfl
@[simp] theorem writeStatus_res0 (v : Word) : (s.writeStatus v).res0 = s.res0 := rfl
@[simp] theorem writeStatus_res1 (v : Word) : (s.writeStatus v).res1 = s.res1 := rfl
@[simp] theorem writeStatus_desc (v : Word) : (s.writeStatus v).desc = s.desc := rfl
@[simp] theorem writeStatus_sponge (v : Word) : (s.writeStatus v).sponge = s.sponge := rfl
@[simp] theorem writeStatus_keyring (v : Word) : (s.writeStatus v).keyring = s.keyring := rfl
@[simp] theorem writeStatus_dmem (v : Word) : (s.writeStatus v).dmem = s.dmem := rfl
@[simp] theorem writeStatus_draws (v : Word) : (s.writeStatus v).draws = s.draws := rfl
@[simp] theorem writeStatus_agenda (v : Word) : (s.writeStatus v).agenda = s.agenda := rfl
@[simp] theorem writeStatus_hostReads (v : Word) : (s.writeStatus v).hostReads = s.hostReads := rfl

/-! ### answer -/

@[simp] theorem answer_params (v : Word) : (s.answer v).params = s.params := rfl
@[simp] theorem answer_pend (v : Word) : (s.answer v).pend = s.pend := rfl
@[simp] theorem answer_done (v : Word) : (s.answer v).done = s.done := rfl
@[simp] theorem answer_werr (v : Word) : (s.answer v).werr = s.werr := rfl
@[simp] theorem answer_ecode (v : Word) : (s.answer v).ecode = s.ecode := rfl
@[simp] theorem answer_res0 (v : Word) : (s.answer v).res0 = s.res0 := rfl
@[simp] theorem answer_res1 (v : Word) : (s.answer v).res1 = s.res1 := rfl
@[simp] theorem answer_desc (v : Word) : (s.answer v).desc = s.desc := rfl
@[simp] theorem answer_sponge (v : Word) : (s.answer v).sponge = s.sponge := rfl
@[simp] theorem answer_keyring (v : Word) : (s.answer v).keyring = s.keyring := rfl
@[simp] theorem answer_dmem (v : Word) : (s.answer v).dmem = s.dmem := rfl
@[simp] theorem answer_draws (v : Word) : (s.answer v).draws = s.draws := rfl
@[simp] theorem answer_agenda (v : Word) : (s.answer v).agenda = s.agenda := rfl
@[simp] theorem answer_hostReads (v : Word) : (s.answer v).hostReads = v :: s.hostReads := rfl

/-! ### reassertReset -/

@[simp] theorem reassertReset_params : (s.reassertReset).params = s.params := rfl
@[simp] theorem reassertReset_pend : (s.reassertReset).pend = none := rfl
@[simp] theorem reassertReset_done : (s.reassertReset).done = false := rfl
@[simp] theorem reassertReset_werr : (s.reassertReset).werr = false := rfl
@[simp] theorem reassertReset_ecode : (s.reassertReset).ecode = 0 := rfl
@[simp] theorem reassertReset_res0 : (s.reassertReset).res0 = 0 := rfl
@[simp] theorem reassertReset_res1 : (s.reassertReset).res1 = 0 := rfl
@[simp] theorem reassertReset_desc : (s.reassertReset).desc = Vector.replicate 8 { addr := 0, len := 0 } := rfl
@[simp] theorem reassertReset_sponge : (s.reassertReset).sponge = Sponge.init := rfl
@[simp] theorem reassertReset_keyring : (s.reassertReset).keyring = Keyring.empty := rfl
@[simp] theorem reassertReset_dmem : (s.reassertReset).dmem = [] := rfl
@[simp] theorem reassertReset_draws : (s.reassertReset).draws = s.draws := rfl
@[simp] theorem reassertReset_agenda : (s.reassertReset).agenda = s.agenda := rfl
@[simp] theorem reassertReset_hostReads : (s.reassertReset).hostReads = s.hostReads := rfl

/-! ### Regions do not move -/

@[simp] theorem startCommand_regionAddr (c : Word) (m : Fin 8) : (s.startCommand c).regionAddr m = s.regionAddr m := rfl
@[simp] theorem startCommand_regionLen (c : Word) (m : Fin 8) : (s.startCommand c).regionLen m = s.regionLen m := rfl
@[simp] theorem finish_regionAddr (code : Byte) (r0 r1 : Word) (m : Fin 8) : (s.finish code r0 r1).regionAddr m = s.regionAddr m := rfl
@[simp] theorem finish_regionLen (code : Byte) (r0 r1 : Word) (m : Fin 8) : (s.finish code r0 r1).regionLen m = s.regionLen m := rfl
@[simp] theorem raise_regionAddr (e : ErrorKind) (m : Fin 8) : (s.raise e).regionAddr m = s.regionAddr m := rfl
@[simp] theorem raise_regionLen (e : ErrorKind) (m : Fin 8) : (s.raise e).regionLen m = s.regionLen m := rfl
@[simp] theorem commit_regionAddr (ws : List (Fin 8 × Bytes)) (m : Fin 8) : (s.commit ws).regionAddr m = s.regionAddr m := rfl
@[simp] theorem commit_regionLen (ws : List (Fin 8 × Bytes)) (m : Fin 8) : (s.commit ws).regionLen m = s.regionLen m := rfl
@[simp] theorem complete_regionAddr (r0 r1 : Word) (ws : List (Fin 8 × Bytes)) (m : Fin 8) : (s.complete r0 r1 ws).regionAddr m = s.regionAddr m := rfl
@[simp] theorem complete_regionLen (r0 r1 : Word) (ws : List (Fin 8 × Bytes)) (m : Fin 8) : (s.complete r0 r1 ws).regionLen m = s.regionLen m := rfl
@[simp] theorem scrub_regionAddr (m : Fin 8) : (s.scrub).regionAddr m = s.regionAddr m := rfl
@[simp] theorem scrub_regionLen (m : Fin 8) : (s.scrub).regionLen m = s.regionLen m := rfl
@[simp] theorem setSponge_regionAddr (g : Sponge) (m : Fin 8) : (s.setSponge g).regionAddr m = s.regionAddr m := rfl
@[simp] theorem setSponge_regionLen (g : Sponge) (m : Fin 8) : (s.setSponge g).regionLen m = s.regionLen m := rfl
@[simp] theorem setKeyring_regionAddr (k : Keyring) (m : Fin 8) : (s.setKeyring k).regionAddr m = s.regionAddr m := rfl
@[simp] theorem setKeyring_regionLen (k : Keyring) (m : Fin 8) : (s.setKeyring k).regionLen m = s.regionLen m := rfl
@[simp] theorem clearKeyring_regionAddr (m : Fin 8) : (s.clearKeyring).regionAddr m = s.regionAddr m := rfl
@[simp] theorem clearKeyring_regionLen (m : Fin 8) : (s.clearKeyring).regionLen m = s.regionLen m := rfl
@[simp] theorem afterRead_regionAddr (n : Fin 8) (m : Fin 8) : (s.afterRead n).regionAddr m = s.regionAddr m := rfl
@[simp] theorem afterRead_regionLen (n : Fin 8) (m : Fin 8) : (s.afterRead n).regionLen m = s.regionLen m := rfl
@[simp] theorem writeStatus_regionAddr (v : Word) (m : Fin 8) : (s.writeStatus v).regionAddr m = s.regionAddr m := rfl
@[simp] theorem writeStatus_regionLen (v : Word) (m : Fin 8) : (s.writeStatus v).regionLen m = s.regionLen m := rfl
@[simp] theorem answer_regionAddr (v : Word) (m : Fin 8) : (s.answer v).regionAddr m = s.regionAddr m := rfl
@[simp] theorem answer_regionLen (v : Word) (m : Fin 8) : (s.answer v).regionLen m = s.regionLen m := rfl

end Sys2Proof.Machine
end

