-- ==== Sys2Proof/Laws/HostPort.lean ====
section
/-! SUPPORT. What the host's accesses do: the one step each allowed access takes, the registers by their offsets, and the bytes of a word. -/

namespace Sys2Proof.Machine

/-! ### Accesses -/

/-- A word read of REG at a multiple of 4 returns the register (R81, R82). -/
theorem hostStep_regRead (s : State) (off : BitVec 12) (h : off.toNat % 4 = 0) :
    hostStep (.regRead off .word) s = .next (s.answer (s.readReg (regAt off.toNat))) := by
  simp [hostStep, accessAllowed, State.access, h]

/-- A word write of REG at a multiple of 4 writes the register (R81, R82). -/
theorem hostStep_regWrite (s : State) (off : BitVec 12) (v : Word) (h : off.toNat % 4 = 0) :
    hostStep (.regWrite off .word v) s = .next (s.writeReg (regAt off.toNat) v) := by
  simp [hostStep, accessAllowed, State.access, h]

/-- An aligned DMEM write below DMEM_BYTES stores the bytes (R82, R83). -/
theorem hostStep_memWrite (s : State) (addr v : Word) (size : AccessSize)
    (ha : addr.toNat % accessBytes size = 0) (hb : addr.toNat + accessBytes size ≤ s.params.dmemBytes) :
    hostStep (.memWrite addr size v) s =
      .next { s with dmem := s.dmem.writeBytes addr.toNat (bytesLe (accessBytes size) v) } := by
  simp [hostStep, accessAllowed, State.access, ha, hb]

/-- An aligned DMEM read below DMEM_BYTES returns the bytes (R82, R83). -/
theorem hostStep_memRead (s : State) (addr : Word) (size : AccessSize)
    (ha : addr.toNat % accessBytes size = 0) (hb : addr.toNat + accessBytes size ≤ s.params.dmemBytes) :
    hostStep (.memRead addr size) s =
      .next (State.answer { s with draws := (memRead s.dmem addr.toNat (accessBytes size) s.draws).2 }
        (wordLe (memRead s.dmem addr.toNat (accessBytes size) s.draws).1)) := by
  simp [hostStep, accessAllowed, State.access, ha, hb]

/-! ### The register map -/

/-- `D[n].ADDR` is at 0x040 + 8n (R37). -/
theorem regAt_descAddr (n : Fin 8) : regAt (0x040 + 8 * n.val) = .descAddr n := by
  revert n; decide

/-- `D[n].LEN` is at 0x044 + 8n (R37). -/
theorem regAt_descLen (n : Fin 8) : regAt (0x044 + 8 * n.val) = .descLen n := by
  revert n; decide

/-- REG.SP_S word `m` is at 0x100 + 4m (R38). -/
theorem regAt_spS (m : Fin 64) : regAt (0x100 + 4 * m.val) = .spS m := by
  revert m; decide

/-- The reserved offsets (R39). -/
theorem regAt_reserved (off : Nat)
    (h : 0x024 ≤ off ∧ off < 0x040 ∨ 0x080 ≤ off ∧ off < 0x100 ∨ 0x200 ≤ off) : regAt off = .reserved := by
  unfold regAt
  repeat rw [if_neg (by omega)]

/-! ### Bytes of a word -/

/-- A string of little-endian bytes is as long as asked. -/
@[simp] theorem bytesLe_length (n : Nat) (v : Word) : (bytesLe n v).length = n := by
  induction n generalizing v with
  | zero => rfl
  | succ n ih => simp [bytesLe, ih]

/-- Byte `k` of a little-endian string is bits `[8k+7:8k]` of the word (R83). -/
theorem bytesLe_get (n : Nat) (v : Word) (k : Nat) (hk : k < n) : (bytesLe n v)[k]? = some (v.extractLsb' (8 * k) 8) := by
  induction n generalizing v k with
  | zero => omega
  | succ n ih =>
    cases k with
    | zero =>
      simp only [bytesLe, List.getElem?_cons_zero]
      congr 1
    | succ k =>
      rw [bytesLe, List.getElem?_cons_succ, ih _ _ (by omega)]
      congr 1
      apply BitVec.eq_of_getLsbD_eq
      intro i hi
      simp only [BitVec.getLsbD_extractLsb', BitVec.getLsbD_ushiftRight]
      congr 2
      omega

/-- The bits of the word of a little-endian byte string (R83). -/
theorem wordLe_bit (bs : Bytes) (n : Nat) (hn : n < 32) :
    (wordLe bs).getLsbD n = ((bs[n / 8]?).getD 0).getLsbD (n % 8) := by
  induction bs generalizing n with
  | nil => simp [wordLe]
  | cons b bs ih =>
    simp only [wordLe, BitVec.getLsbD_or, BitVec.getLsbD_shiftLeft, BitVec.getLsbD_setWidth]
    by_cases h : n < 8
    · have h1 : n / 8 = 0 := by omega
      have h2 : n % 8 = n := by omega
      simp [h, h1, h2, hn]
    · have h1 : n / 8 = (n - 8) / 8 + 1 := by omega
      have h2 : n % 8 = (n - 8) % 8 := by omega
      rw [ih _ (by omega), h1, h2, List.getElem?_cons_succ]
      have h3 : b.getLsbD n = false := BitVec.getLsbD_of_ge _ _ (by omega)
      simp [h, hn, h3]

end Sys2Proof.Machine
end

