-- ==== Sys2Proof/Laws/Keyring.lean ====
section
/-! SUPPORT. All that the operations on key material, keyrings and tokens can do, one lemma each. -/

namespace Sys2Proof.Machine

/-! ### Pieces -/

/-- Cutting a string with a separator in it cuts the parts on both sides (R271, R309). -/
theorem splitOn_append (sep : Byte) (x y : Bytes) : splitOn sep (x ++ sep :: y) = splitOn sep x ++ splitOn sep y := by
  induction x with
  | nil => simp [splitOn]
  | cons b x ih =>
    have hne : splitOn sep x ≠ [] := by
      cases x with
      | nil => simp [splitOn]
      | cons c x => rw [splitOn]; split <;> [simp; (split <;> simp)]
    rw [List.cons_append, splitOn, splitOn, ih]
    by_cases h : b = sep
    · simp [h]
    · rw [if_neg h, if_neg h]
      cases hs : splitOn sep x with
      | nil => exact absurd hs hne
      | cons p ps => rfl

/-- A string without the separator is one piece (R271, R309). -/
theorem splitOn_single (sep : Byte) (x : Bytes) (h : sep ∉ x) : splitOn sep x = [x] := by
  induction x with
  | nil => rfl
  | cons b x ih =>
    simp only [List.mem_cons, not_or] at h
    rw [splitOn, if_neg (fun e => h.1 e.symm), ih h.2]

/-! ### The keyring -/

/-- All that Register can do (R274): replace the entry of the same id in place, find the store full, or append. -/
theorem registerKey_cases (max : Nat) (es : List KeyEntry) (e : KeyEntry) :
    (∃ n, ∃ h : n < es.length, es[n].id = e.id ∧ registerKey max es e = .ok (es.set n e, n)) ∨
    ((∀ x ∈ es, x.id ≠ e.id) ∧ es.length = max ∧ registerKey max es e = .error .capacityExceeded) ∨
    ((∀ x ∈ es, x.id ≠ e.id) ∧ es.length ≠ max ∧ registerKey max es e = .ok (es ++ [e], es.length)) := by
  unfold registerKey
  cases h : es.findIdx? (fun x => x.id == e.id) with
  | some n =>
    obtain ⟨h1, h2, -⟩ := List.findIdx?_eq_some_iff_getElem.1 h
    exact .inl ⟨n, h1, by simpa using h2, rfl⟩
  | none =>
    have h1 : ∀ x ∈ es, x.id ≠ e.id := by
      rw [List.findIdx?_eq_none_iff] at h
      intro x hx
      simpa using h x hx
    by_cases hm : es.length = max
    · exact .inr (.inl ⟨h1, hm, if_pos hm⟩)
    · exact .inr (.inr ⟨h1, hm, if_neg hm⟩)

/-- All that reading a key token can do (R270, R276). -/
theorem tokenKey_cases (p : Params) (t : Bytes) :
    (dec85 p.b85Variant t = none ∧ tokenKey p t = .error .invalidEncoding) ∨
    ∃ key, dec85 p.b85Variant t = some key ∧
      ((p.keyMaxBytes < key.length ∧ tokenKey p t = .error .capacityExceeded) ∨
        (key.length ≤ p.keyMaxBytes ∧ tokenKey p t = .ok key)) := by
  unfold tokenKey
  cases h : dec85 p.b85Variant t with
  | none => exact .inl ⟨rfl, rfl⟩
  | some key =>
    refine .inr ⟨key, rfl, ?_⟩
    by_cases hk : key.length > p.keyMaxBytes
    · exact .inl ⟨hk, if_pos hk⟩
    · exact .inr ⟨by omega, if_neg hk⟩

/-- The loop of a load over two runs of lines (R270). -/
theorem loadLines_append (p : Params) (ls ms : List Bytes) (es : List KeyEntry) (cur : Option Nat) :
    loadLines p (ls ++ ms) es cur =
      match loadLines p ls es cur with
      | .error e => .error e
      | .ok r => loadLines p ms r.1 r.2 := by
  induction ls generalizing es cur with
  | nil => rfl
  | cons line ls ih =>
    rw [List.cons_append, loadLines, loadLines]
    cases firstToken line with
    | none => exact ih _ _
    | some t =>
      dsimp only
      cases tokenKey p t with
      | error e => rfl
      | ok key =>
        dsimp only
        cases registerKey p.krMaxEntries es { id := keyIdDigest key, key := key } with
        | error e => rfl
        | ok r => exact ih _ _

/-- All that LoadKeyring can do (R270, R276). -/
theorem loadKeyring_cases (p : Params) (m : Bytes) :
    (∃ e, loadLines p (lines m) [] none = .error e ∧ loadKeyring p m = .error e) ∨
    (∃ es, loadLines p (lines m) [] none = .ok (es, none) ∧ loadKeyring p m = .error .noUsableKeys) ∨
    (∃ es n, loadLines p (lines m) [] none = .ok (es, some n) ∧ loadKeyring p m = .ok { entries := es, cur := n }) := by
  unfold loadKeyring
  cases loadLines p (lines m) [] none with
  | error e => exact .inl ⟨e, rfl, rfl⟩
  | ok r =>
    obtain ⟨es, cur⟩ := r
    cases cur with
    | none => exact .inr (.inl ⟨es, rfl, rfl⟩)
    | some n => exact .inr (.inr ⟨es, n, rfl, rfl⟩)

/-- All that Lookup can do (R277): the first entry with the id, or one of its errors. -/
theorem lookupKey_cases (v : Fin 6) (es : List KeyEntry) (t : Bytes) :
    (dec85 v t = none ∧ lookupKey v es t = .error .invalidEncoding) ∨
    ∃ d, dec85 v t = some d ∧
      (((d.length ≠ 8 ∨ ∀ e ∈ es, e.id ≠ d) ∧ lookupKey v es t = .error .lookupFailure) ∨
        ∃ n, ∃ h : n < es.length, d.length = 8 ∧ es[n].id = d ∧ (∀ m (hm : m < n), es[m].id ≠ d) ∧
          lookupKey v es t = .ok (n, es[n].key)) := by
  unfold lookupKey
  cases h : dec85 v t with
  | none => exact .inl ⟨rfl, rfl⟩
  | some d =>
    refine .inr ⟨d, rfl, ?_⟩
    dsimp only
    by_cases h8 : d.length ≠ Config.keyIdBytes
    · exact .inl ⟨.inl h8, if_pos h8⟩
    · rw [if_neg h8]
      cases hf : es.findIdx? (fun x => x.id == d) with
      | none =>
        refine .inl ⟨.inr ?_, rfl⟩
        rw [List.findIdx?_eq_none_iff] at hf
        intro e he
        simpa using hf e he
      | some n =>
        obtain ⟨h1, h2, h3⟩ := List.findIdx?_eq_some_iff_getElem.1 hf
        refine .inr ⟨n, h1, not_not.1 h8, by simpa using h2, fun m hm => by simpa using h3 m hm, ?_⟩
        dsimp only
        rw [List.getD_eq_getElem?_getD, List.getElem?_eq_getElem h1]
        rfl

/-! ### Tokens -/

/-- All that ParseToken can do (R320): the field count, the load, then the fields. -/
theorem parseToken_cases (p : Params) (m t : Bytes) :
    ((splitFields t).length ≠ 4 ∧ parseToken p m t = .error .malformedMessage) ∨
    ∃ f1 f2 f3 f4, splitFields t = [f1, f2, f3, f4] ∧
      ((∃ e, loadKeyring p m = .error e ∧ parseToken p m t = .error e) ∨
        ∃ kr, loadKeyring p m = .ok kr ∧ parseToken p m t = parseFields p.b85Variant kr f1 f2 f3 f4) := by
  unfold parseToken
  split
  · rename_i f1 f2 f3 f4 h
    refine .inr ⟨f1, f2, f3, f4, h, ?_⟩
    cases loadKeyring p m with
    | error e => exact .inl ⟨e, rfl, rfl⟩
    | ok kr => exact .inr ⟨kr, rfl, rfl⟩
  · rename_i h
    refine .inl ⟨fun h4 => ?_, rfl⟩
    match hs : splitFields t, h4 with
    | [f1, f2, f3, f4], _ => exact h f1 f2 f3 f4 hs

/-- All that reading the four fields can do (R320): an error of the lookup, a field that does not decode, a nonce
of another length, or the parts. -/
theorem parseFields_cases (v : Fin 6) (kr : Keyring) (f1 f2 f3 f4 : Bytes) :
    (∃ e, lookupKey v kr.entries f1 = .error e ∧ parseFields v kr f1 f2 f3 f4 = .error e) ∨
    ∃ n key, lookupKey v kr.entries f1 = .ok (n, key) ∧
      (((dec85 v f2 = none ∨ dec85 v f3 = none ∨ dec85 v f4 = none) ∧
          parseFields v kr f1 f2 f3 f4 = .error .invalidEncoding) ∨
        ∃ z h x, dec85 v f2 = some z ∧ dec85 v f3 = some h ∧ dec85 v f4 = some x ∧
          ((z.length ≠ 12 ∧ parseFields v kr f1 f2 f3 f4 = .error .malformedMessage) ∨
            (z.length = 12 ∧
              parseFields v kr f1 f2 f3 f4 = .ok { key := key, nonce := z, header := h, sealed := x }))) := by
  unfold parseFields
  cases lookupKey v kr.entries f1 with
  | error e => exact .inl ⟨e, rfl, rfl⟩
  | ok r =>
    obtain ⟨n, key⟩ := r
    refine .inr ⟨n, key, rfl, ?_⟩
    cases dec85 v f2 with
    | none => exact .inl ⟨.inl rfl, rfl⟩
    | some z =>
      cases dec85 v f3 with
      | none => exact .inl ⟨.inr (.inl rfl), rfl⟩
      | some h =>
        cases dec85 v f4 with
        | none => exact .inl ⟨.inr (.inr rfl), rfl⟩
        | some x =>
          refine .inr ⟨z, h, x, rfl, rfl, rfl, ?_⟩
          by_cases hz : z.length = 12
          · exact .inr ⟨hz, if_neg (not_not.2 hz)⟩
          · exact .inl ⟨hz, if_pos hz⟩

/-! ### Header lists -/

/-- A field that is read leaves less (R303). -/
theorem takeField_length (x k rest : Bytes) (h : takeField x = some (k, rest)) :
    k.length + rest.length + 2 = x.length := by
  unfold takeField at h
  split at h
  · dsimp only at h
    split at h
    · cases h
    · cases h
      simp only [List.length_take, List.length_drop, List.length_cons]
      omega
  · cases h

/-- A `u16` and its two bytes, high byte first (R303). -/
theorem bytesBe_beValue (hi lo : Byte) : beValue [hi, lo] < 2 ^ 16 ∧ bytesBe 2 (beValue [hi, lo]) = [hi, lo] := by
  have h1 := hi.isLt
  have h2 := lo.isLt
  have h : beValue [hi, lo] = hi.toNat * 256 + lo.toNat := by simp [beValue]
  rw [h]
  refine ⟨by omega, ?_⟩
  simp only [bytesBe, List.cons.injEq, and_true]
  constructor <;> (apply BitVec.eq_of_toNat_eq; rw [BitVec.toNat_ofNat]; omega)

/-- All that reading a field can do when it succeeds: the input is the field, written as R303 lays it out, and the
rest. -/
theorem takeField_eq {x k rest : Bytes} (h : takeField x = some (k, rest)) :
    k.length < 2 ^ 16 ∧ x = bytesBe 2 k.length ++ k ++ rest := by
  unfold takeField at h
  split at h
  · rename_i hi lo tail
    dsimp only at h
    split at h
    · cases h
    · rename_i hn
      cases h
      obtain ⟨h1, h2⟩ := bytesBe_beValue hi lo
      have hl : (tail.take (beValue [hi, lo])).length = beValue [hi, lo] := by
        rw [List.length_take]; omega
      rw [hl, h2, List.append_assoc, List.take_append_drop]
      exact ⟨h1, rfl⟩
  · cases h

end Sys2Proof.Machine
end

