-- ==== Sys2Proof/Laws/Operands.lean ====
section
/-! SUPPORT. What the operand checks answer, what a command does with them, and what reading a region gives, in the terms the claims use. -/

namespace Sys2Proof.Machine

/-! ### The checks -/

/-- The region check is `InDmem` (R84). -/
theorem regionInRange_iff (s : State) (n : Fin 8) : regionInRange s n = true ↔ InDmem s n := by
  simp [regionInRange, InDmem]

/-- The overlap check is that the regions share an address (R85). -/
theorem regionsOverlap_iff (s : State) (m n : Fin 8) : regionsOverlap s m n = true ↔ ¬ Apart s m n := by
  simp only [regionsOverlap, Apart, InRegion, Bool.and_eq_true, decide_eq_true_eq, not_forall, not_not]
  constructor
  · intro h
    exact ⟨max (s.regionAddr m) (s.regionAddr n), by omega⟩
  · rintro ⟨a, h⟩
    omega

/-- What the operand checks answer, in the order of R346. -/
theorem operandError_cases (s : State) (srcs dsts : List (Fin 8)) :
    (operandError s srcs dsts = some .addressRange ∧ ∃ n ∈ srcs ++ dsts, ¬ InDmem s n) ∨
    (operandError s srcs dsts = some .overlap ∧ (∀ n ∈ srcs ++ dsts, InDmem s n) ∧
      ((∃ d ∈ dsts, ∃ m ∈ srcs, ¬ Apart s d m) ∨ (∃ d ∈ dsts, ∃ e ∈ dsts, d ≠ e ∧ ¬ Apart s d e))) ∨
    (operandError s srcs dsts = none ∧ (∀ n ∈ srcs ++ dsts, InDmem s n) ∧
      (∀ d ∈ dsts, ∀ m ∈ srcs, Apart s d m) ∧ (∀ d ∈ dsts, ∀ e ∈ dsts, d ≠ e → Apart s d e)) := by
  unfold operandError
  by_cases hr : (srcs ++ dsts).all (regionInRange s) = true
  · rw [if_pos hr]
    have hr' : ∀ n ∈ srcs ++ dsts, InDmem s n := fun n hn =>
      (regionInRange_iff s n).1 (List.all_eq_true.1 hr n hn)
    right
    by_cases ho : dsts.any (fun d => srcs.any (regionsOverlap s d) ||
        dsts.any (fun e => d != e && regionsOverlap s d e)) = true
    · rw [if_pos ho]
      refine .inl ⟨rfl, hr', ?_⟩
      simp only [List.any_eq_true, Bool.or_eq_true, Bool.and_eq_true, bne_iff_ne, regionsOverlap_iff] at ho
      obtain ⟨d, hd, ⟨m, hm, h⟩ | ⟨e, he, hne, h⟩⟩ := ho
      · exact .inl ⟨d, hd, m, hm, h⟩
      · exact .inr ⟨d, hd, e, he, hne, h⟩
    · rw [if_neg ho]
      refine .inr ⟨rfl, hr', ?_, ?_⟩
      · intro d hd m hm
        by_contra h
        exact ho (List.any_eq_true.2 ⟨d, hd, Bool.or_eq_true_iff.2 (.inl
          (List.any_eq_true.2 ⟨m, hm, (regionsOverlap_iff s d m).2 h⟩))⟩)
      · intro d hd e he hne
        by_contra h
        exact ho (List.any_eq_true.2 ⟨d, hd, Bool.or_eq_true_iff.2 (.inr (List.any_eq_true.2
          ⟨e, he, Bool.and_eq_true_iff.2 ⟨bne_iff_ne.2 hne, (regionsOverlap_iff s d e).2 h⟩⟩))⟩)
  · rw [if_neg hr]
    refine .inl ⟨rfl, ?_⟩
    by_contra h
    push Not at h
    exact hr (List.all_eq_true.2 fun n hn => (regionInRange_iff s n).2 (h n hn))

/-- With its operands in order a command does its work. -/
theorem withOperands_ok (s : State) (i : Instr) (body : StepOutcome) (h : OperandsOk s i) :
    withOperands s (sources i) (destinations i) body = body := by
  obtain ⟨h1, h2, h3⟩ := h
  rcases operandError_cases s (sources i) (destinations i) with ⟨-, n, hn, hb⟩ | ⟨-, -, hb⟩ | ⟨he, -⟩
  · exact absurd (h1 n hn) hb
  · rcases hb with ⟨d, hd, m, hm, hb⟩ | ⟨d, hd, e, he, hne, hb⟩
    · exact absurd (h2 d hd m hm) hb
    · exact absurd (h3 d hd e he hne) hb
  · simp only [withOperands, he]

/-- All that a command over operands can do: its work, with the operands in order, or one of the two operand
errors. -/
theorem withOperands_cases (s : State) (i : Instr) (body : StepOutcome) :
    (OperandsOk s i ∧ withOperands s (sources i) (destinations i) body = body) ∨
    (∃ e, (e = .addressRange ∨ e = .overlap) ∧
      withOperands s (sources i) (destinations i) body = .next (s.raise e)) := by
  rcases operandError_cases s (sources i) (destinations i) with ⟨he, -⟩ | ⟨he, -⟩ | ⟨he, h⟩
  · exact .inr ⟨.addressRange, .inl rfl, by simp only [withOperands, he]⟩
  · exact .inr ⟨.overlap, .inr rfl, by simp only [withOperands, he]⟩
  · exact .inl ⟨h, by simp only [withOperands, he]⟩

/-- The operand checks pass exactly when the operands are in order (R84, R85). -/
theorem operandsOk_iff (s : State) (i : Instr) :
    OperandsOk s i ↔ operandError s (sources i) (destinations i) = none := by
  rcases operandError_cases s (sources i) (destinations i) with ⟨he, n, hn, hb⟩ | ⟨he, -, hb⟩ | ⟨he, h⟩
  · rw [he]
    exact ⟨fun h => absurd (h.1 n hn) hb, fun h => by cases h⟩
  · rw [he]
    refine ⟨fun h => ?_, fun h => by cases h⟩
    rcases hb with ⟨d, hd, m, hm, hb⟩ | ⟨d, hd, e, he', hne, hb⟩
    · exact absurd (h.2.1 d hd m hm) hb
    · exact absurd (h.2.2 d hd e he' hne) hb
  · rw [he]
    exact ⟨fun _ => rfl, fun _ => h⟩

/-! ### Reads of regions -/

/-- What a read of a region gives. -/
theorem region_mayRead (s : State) (n : Fin 8) : MayRead s n (s.region n) :=
  ⟨region_length s n, fun k b hk hb => region_written s n k b (by rwa [region_length] at hk) hb⟩

/-- A read gives what the region holds. -/
theorem holds_region {s : State} {n : Fin 8} {bs : Bytes} (h : Holds s n bs) : s.region n = bs :=
  region_eq s n bs h.1 h.2

/-- A read of a region whose every byte is written changes nothing. -/
theorem holds_afterRead {s : State} {n : Fin 8} {bs : Bytes} (h : Holds s n bs) : s.afterRead n = s := by
  apply afterRead_eq
  intro k hk hn
  have h1 := h.2 k (by rw [h.1]; exact hk)
  rw [hn, List.getElem?_eq_getElem (by rw [h.1]; exact hk)] at h1
  cases h1

/-- The length of what a region holds. -/
theorem holds_length {s : State} {n : Fin 8} {bs : Bytes} (h : Holds s n bs) : s.regionLen n = bs.length := h.1.symm

/-- A read spends draws and changes nothing else. -/
theorem afterRead_draws_only (s : State) (n : Fin 8) : ∃ d, s.afterRead n = { s with draws := d } := ⟨_, rfl⟩

/-! ### Completions -/

/-- One write of a completion, as the claims state it. -/
theorem stored_commit (s : State) (n : Fin 8) (out : Bytes) : Stored s (s.commit [(n, out)]) n out :=
  commit_read s n out

/-- The success of a command that is not high-level (R349). -/
theorem succeeds_complete (s : State) (d : Nat) (r0 r1 : Word) (ws : List (Fin 8 × Bytes)) :
    Succeeds s (State.complete { s with draws := d } r0 r1 ws) r0 r1 s.sponge s.keyring := rfl

/-- The success of a high-level command (R348, R349). -/
theorem succeeds_complete_scrub (s : State) (d : Nat) (r0 r1 : Word) (ws : List (Fin 8 × Bytes)) :
    Succeeds s (State.complete { s with draws := d } r0 r1 ws).scrub r0 r1 Sponge.init s.keyring := rfl

/-- The one write of a success, scrubbed or not. -/
theorem stored_complete (s : State) (d : Nat) (r0 r1 : Word) (n : Fin 8) (out : Bytes) :
    Stored s (State.complete { s with draws := d } r0 r1 [(n, out)]) n out ∧
      Stored s (State.complete { s with draws := d } r0 r1 [(n, out)]).scrub n out :=
  ⟨stored_commit s n out, stored_commit s n out⟩

/-- An error completion (R345). -/
theorem raise_eq_errorEnd (s : State) (e : ErrorKind) : s.raise e = errorEnd s e := rfl

/-- The end of a command that fails after its load (R314, R347). -/
theorem clearKeyring_raise_scrub (s : State) (e : ErrorKind) :
    ((s.clearKeyring.raise e).scrub) = scrubbedErrorEnd s e Keyring.empty := rfl

end Sys2Proof.Machine
end

