-- ==== Sys2Proof/Laws/PerInstr.lean ====
section
/-! SUPPORT. Families of statements about every instruction as syntax, one lemma per constructor. -/

namespace Sys2Proof.Laws

/-- The word of a command passes the decode checks: its OP is in the opcode map, RSV is 0, and IMM8 is 0 where the
command takes none (R115 to R117). -/
def EncodingWellFormed.Statement (i : Instr) : Prop := (fieldsOf (encode i)).wellFormed = true

theorem EncodingWellFormed.nop : EncodingWellFormed.Statement .nop := by
  rw [EncodingWellFormed.Statement, encode, fieldsOf_commandWord]; rfl
theorem EncodingWellFormed.spInit : EncodingWellFormed.Statement .spInit := by
  rw [EncodingWellFormed.Statement, encode, fieldsOf_commandWord]; rfl
theorem EncodingWellFormed.spAbsorb : EncodingWellFormed.Statement .spAbsorb := by
  rw [EncodingWellFormed.Statement, encode, fieldsOf_commandWord]; rfl
theorem EncodingWellFormed.spAbsorbImm (b : Byte) : EncodingWellFormed.Statement (.spAbsorbImm b) := by
  rw [EncodingWellFormed.Statement, encode, fieldsOf_commandWord]; rfl
theorem EncodingWellFormed.spAbsorbStop : EncodingWellFormed.Statement .spAbsorbStop := by
  rw [EncodingWellFormed.Statement, encode, fieldsOf_commandWord]; rfl
theorem EncodingWellFormed.spShuffle : EncodingWellFormed.Statement .spShuffle := by
  rw [EncodingWellFormed.Statement, encode, fieldsOf_commandWord]; rfl
theorem EncodingWellFormed.spSqueeze : EncodingWellFormed.Statement .spSqueeze := by
  rw [EncodingWellFormed.Statement, encode, fieldsOf_commandWord]; rfl
theorem EncodingWellFormed.spDrip : EncodingWellFormed.Statement .spDrip := by
  rw [EncodingWellFormed.Statement, encode, fieldsOf_commandWord]; rfl
theorem EncodingWellFormed.hash (r : Byte) : EncodingWellFormed.Statement (.hash r) := by
  rw [EncodingWellFormed.Statement, encode, fieldsOf_commandWord]; rfl
theorem EncodingWellFormed.keyid : EncodingWellFormed.Statement .keyid := by
  rw [EncodingWellFormed.Statement, encode, fieldsOf_commandWord]; rfl
theorem EncodingWellFormed.aeadSeal (r : Byte) : EncodingWellFormed.Statement (.aeadSeal r) := by
  rw [EncodingWellFormed.Statement, encode, fieldsOf_commandWord]; rfl
theorem EncodingWellFormed.aeadOpen (r : Byte) : EncodingWellFormed.Statement (.aeadOpen r) := by
  rw [EncodingWellFormed.Statement, encode, fieldsOf_commandWord]; rfl
theorem EncodingWellFormed.b85Enc : EncodingWellFormed.Statement .b85Enc := by
  rw [EncodingWellFormed.Statement, encode, fieldsOf_commandWord]; rfl
theorem EncodingWellFormed.b85Dec : EncodingWellFormed.Statement .b85Dec := by
  rw [EncodingWellFormed.Statement, encode, fieldsOf_commandWord]; rfl
theorem EncodingWellFormed.krLoad : EncodingWellFormed.Statement .krLoad := by
  rw [EncodingWellFormed.Statement, encode, fieldsOf_commandWord]; rfl
theorem EncodingWellFormed.krLookup : EncodingWellFormed.Statement .krLookup := by
  rw [EncodingWellFormed.Statement, encode, fieldsOf_commandWord]; rfl
theorem EncodingWellFormed.krClear : EncodingWellFormed.Statement .krClear := by
  rw [EncodingWellFormed.Statement, encode, fieldsOf_commandWord]; rfl
theorem EncodingWellFormed.frameAad : EncodingWellFormed.Statement .frameAad := by
  rw [EncodingWellFormed.Statement, encode, fieldsOf_commandWord]; rfl
theorem EncodingWellFormed.frameSeal : EncodingWellFormed.Statement .frameSeal := by
  rw [EncodingWellFormed.Statement, encode, fieldsOf_commandWord]; rfl
theorem EncodingWellFormed.frameParse : EncodingWellFormed.Statement .frameParse := by
  rw [EncodingWellFormed.Statement, encode, fieldsOf_commandWord]; rfl

end Sys2Proof.Laws
end

