-- ==== Sys2Proof/Laws/Step.lean ====
section
/-! SUPPORT. All that the engine's turn and a step can do. -/

namespace Sys2Proof.Machine

/-- All that the engine's turn can do (R113): stand still with no command pending, raise the error of a failed
decode check, or run the command. -/
theorem engineStep_cases (s : State) :
    (s.pend = none ∧ engineStep s = .fault .noCommandPending) ∨
    ∃ c, s.pend = some c ∧
      ((∃ e, decode c = .error e ∧ engineStep s = .next (s.raise (decodeErrorKind e))) ∨
        ∃ i, decode c = .ok i ∧ engineStep s = exec i s) := by
  unfold engineStep
  cases s.pend with
  | none => exact .inl ⟨rfl, rfl⟩
  | some c =>
    refine .inr ⟨c, rfl, ?_⟩
    dsimp only
    cases decode c with
    | error e => exact .inl ⟨e, rfl, rfl⟩
    | ok i => exact .inr ⟨i, rfl, rfl⟩

/-- All that a step can do (R30, R88): the engine's turn, with an empty agenda or its turn spent, an access of the
host, or a reset. -/
theorem step_cases (s : State) :
    (s.agenda = [] ∧ step s = engineStep s) ∨
    (∃ rest, s.agenda = .engine :: rest ∧ step s = engineStep { s with agenda := rest }) ∨
    (∃ a rest, s.agenda = .host a :: rest ∧ step s = hostStep a { s with agenda := rest }) ∨
    (∃ rest, s.agenda = .reset :: rest ∧ step s = .next (State.reassertReset { s with agenda := rest })) := by
  unfold step
  cases s.agenda with
  | nil => exact .inl ⟨rfl, rfl⟩
  | cons turn rest =>
    cases turn with
    | engine => exact .inr (.inl ⟨rest, rfl, rfl⟩)
    | host a => exact .inr (.inr (.inl ⟨a, rest, rfl, rfl⟩))
    | reset => exact .inr (.inr (.inr ⟨rest, rfl, rfl⟩))

end Sys2Proof.Machine
end

