-- ==== Sys2Proof/Tests/Slice0.lean ====
section
/-! SUPPORT. Tests of the model against words and vectors written out from the spec (spec/30_encoding.md R115, spec/95_test_vectors.md), and for each statement with hypotheses a state and operands that meet them. -/

namespace Sys2Proof.Tests

open Sys2Proof.Machine

-- One declaration at a time: checked side by side, the kernel evaluations below pile up a thread each.
set_option Elab.async false

/-! ### Well-formedness: one ill-formed word for each check -/

theorem test_illegal_op_is_refused :
    ({ op := 0x08, imm8 := 0, rsv := 0 } : CmdFields).legalOp = false ∧ decode 0x00000008 = .error .illegalCommand := by decide

theorem test_reserved_bits_are_refused :
    ({ op := 0x10, imm8 := 8, rsv := 1 } : CmdFields).rsvClear = false ∧ decode 0x00010810 = .error .reservedField := by decide

theorem test_stray_imm8_is_refused :
    ({ op := 0x01, imm8 := 1, rsv := 0 } : CmdFields).immClear = false ∧ decode 0x00000101 = .error .reservedField := by decide

/-- The legality of OP is checked before RSV and IMM8 (R117). -/
theorem test_illegal_op_comes_first : decode 0xFFFFFF08 = .error .illegalCommand := by decide

theorem test_well_formed_fields : (fieldsOf 0x00000810).wellFormed = true ∧ (fieldsOf 0x00000152).wellFormed = false := by decide

/-! ### Decoding: the words of R115, bits 31:16 RSV, 15:8 IMM8, 7:0 OP -/

theorem test_decode_nop : decode 0b00000000000000000000000000000000 = .ok .nop := by decide
theorem test_decode_spInit : decode 0b00000000000000000000000000000001 = .ok .spInit := by decide
theorem test_decode_spAbsorb : decode 0b00000000000000000000000000000010 = .ok .spAbsorb := by decide
theorem test_decode_spAbsorbImm : decode 0b00000000000000000101101000000011 = .ok (.spAbsorbImm 0x5A) := by decide
theorem test_decode_spAbsorbStop : decode 0b00000000000000000000000000000100 = .ok .spAbsorbStop := by decide
theorem test_decode_spShuffle : decode 0b00000000000000000000000000000101 = .ok .spShuffle := by decide
theorem test_decode_spSqueeze : decode 0b00000000000000000000000000000110 = .ok .spSqueeze := by decide
theorem test_decode_spDrip : decode 0b00000000000000000000000000000111 = .ok .spDrip := by decide
theorem test_decode_hash : decode 0b00000000000000000000100000010000 = .ok (.hash 8) := by decide
theorem test_decode_keyid : decode 0b00000000000000000000000000010001 = .ok .keyid := by decide
theorem test_decode_aeadSeal : decode 0b00000000000000000010000000100000 = .ok (.aeadSeal 32) := by decide
theorem test_decode_aeadOpen : decode 0b00000000000000001111111100100001 = .ok (.aeadOpen 255) := by decide
theorem test_decode_b85Enc : decode 0b00000000000000000000000000110000 = .ok .b85Enc := by decide
theorem test_decode_b85Dec : decode 0b00000000000000000000000000110001 = .ok .b85Dec := by decide
theorem test_decode_krLoad : decode 0b00000000000000000000000001000000 = .ok .krLoad := by decide
theorem test_decode_krLookup : decode 0b00000000000000000000000001000001 = .ok .krLookup := by decide
theorem test_decode_krClear : decode 0b00000000000000000000000001000010 = .ok .krClear := by decide
theorem test_decode_frameAad : decode 0b00000000000000000000000001010000 = .ok .frameAad := by decide
theorem test_decode_frameSeal : decode 0b00000000000000000000000001010001 = .ok .frameSeal := by decide
theorem test_decode_frameParse : decode 0b00000000000000000000000001010010 = .ok .frameParse := by decide

/-- The opcode table numbers the bits of the word as R110 does. -/
theorem test_table_words : decodeTableWord 32 0x5A03 = some (.spAbsorbImm 0x5A) ∧ decodeTableWord 32 0x53 = none := by decide

/-! ### Small states -/

/-- Right after reset, with 4096 bytes of DMEM, room for 2 keys of 32 bytes, and B85_VARIANT 0. -/
def board : State := State.resetWith { b85Variant := 0, dmemTop := 0xFFF, krTop := 1, keyTop := 31 }

/-- Region `n` lies at 0x100 * n and holds `bs`. -/
def src (s : State) (n : Fin 8) (bs : Bytes) : State :=
  { s with
    desc := s.desc.set n { addr := BitVec.ofNat 32 (0x100 * n.val), len := BitVec.ofNat 32 bs.length }
    dmem := s.dmem.writeBytes (0x100 * n.val) bs }

/-- Region `n` lies at 0x100 * n with room for `len` bytes. -/
def dst (s : State) (n : Fin 8) (len : Nat) : State :=
  { s with desc := s.desc.set n { addr := BitVec.ofNat 32 (0x100 * n.val), len := BitVec.ofNat 32 len } }

/-- Region `n` at any place. -/
def region (s : State) (n : Fin 8) (addr len : Word) : State := { s with desc := s.desc.set n { addr := addr, len := len } }

/-- The state one step after a command word is started. -/
def after (c : Word) (s : State) : State :=
  match step (s.startCommand c) with
  | .next t => t
  | _ => s

/-- STATUS, RES0, RES1 and the first `n` bytes at an address. -/
def seen (t : State) (a n : Nat) : Word × Word × Word × List (Option Byte) :=
  (t.statusWord, t.res0, t.res1, (List.range n).map (fun k => t.dmem.read (a + k)))

/-- `Holds`, computed. -/
def holdsCheck (s : State) (n : Fin 8) (bs : Bytes) : Bool :=
  bs.length == s.regionLen n && (List.range bs.length).all (fun k => s.dmem.read (s.regionAddr n + k) == bs[k]?)

theorem holds_of_check {s : State} {n : Fin 8} {bs : Bytes} (h : holdsCheck s n bs = true) : Holds s n bs := by
  simp only [holdsCheck, Bool.and_eq_true, beq_iff_eq, List.all_eq_true, List.mem_range] at h
  exact h

theorem ok_of_check {s : State} {i : Instr} (h : operandError s (sources i) (destinations i) = none) : OperandsOk s i :=
  (operandsOk_iff s i).2 h

/-! ### One step of each command -/

theorem test_nop : seen (after 0x00 board) 0 0 = (0x2, 0, 0, []) := by decide +kernel

/-- V-L2-S1. -/
theorem test_spInit : ((after 0x01 { board with sponge := { board.sponge with i := 9, w := 7 } }).readReg .spIjkz,
    (after 0x01 { board with sponge := { board.sponge with i := 9, w := 7 } }).readReg .spAw) = (0, 0x100) := by
  decide +kernel

/-- V-L2-S2: `ABC`. -/
theorem test_spAbsorb : (after 0x02 (src board 0 [0x41, 0x42, 0x43])).sponge.a = 6 ∧
    ([0, 1, 2, 3, 4, 5, 128, 129, 130, 131, 132, 133].map (after 0x02 (src board 0 [0x41, 0x42, 0x43])).sponge.at) =
      [129, 132, 130, 1, 131, 3, 128, 0, 2, 4, 5, 133] := by decide +kernel

/-- V-L2-S16: the sum of the region check does not wrap. -/
theorem test_spAbsorb_range : seen (after 0x02 (region board 0 0xFFFFFFFF 2)) 0 0 = (0x1206, 0, 0, []) := by decide +kernel

/-- V-L2-S3. -/
theorem test_spAbsorbImm : (after 0x5A03 board).sponge.a = 2 ∧
    ([0, 1, 133, 138].map (after 0x5A03 board).sponge.at) = [138, 133, 1, 0] := by decide +kernel

/-- V-L2-S4. -/
theorem test_spAbsorbStop : (after 0x04 board).sponge = { Sponge.init with a := 1 } := by decide +kernel

/-- V-L2-S5. -/
theorem test_spShuffle : (let g := (after 0x05 board).sponge
    (g.i, g.j, g.k, g.z, g.a, g.w, [0, 1, 2, 3, 4, 5, 6, 7].map g.at)) =
      (0, 185, 144, 0, 0, 7, [28, 117, 99, 103, 8, 86, 80, 165]) := by decide +kernel

/-- V-L2-S8: no shuffle at `a = 0`. -/
theorem test_spSqueeze : seen (after 0x06 (dst board 0 8)) 0 8 =
    (0x2, 8, 0, [0x04, 0x14, 0x45, 0xce, 0x39, 0xfc, 0xe3, 0xdf].map some) ∧
    (after 0x06 (dst board 0 8)).sponge.w = 1 := by decide +kernel

/-- V-L2-S7. -/
theorem test_spDrip : seen (after 0x07 board) 0 0 = (0x2, 4, 0, []) ∧
    ((after 0x07 board).sponge.i, (after 0x07 board).sponge.k) = (1, 2) := by decide +kernel

/-- V-L2-H1: `ABC`, 8. -/
theorem test_hash : seen (after 0x0810 (dst (src board 0 [0x41, 0x42, 0x43]) 1 8)) 0x100 8 =
    (0x2, 8, 0, [0xc9, 0xdc, 0x57, 0x62, 0x7f, 0x7e, 0x2e, 0xe4].map some) := by decide +kernel

/-- V-L2-H12. -/
theorem test_hash_small : seen (after 0x0810 (dst (src board 0 [0x41, 0x42, 0x43]) 1 7)) 0x100 1 =
    (0x1406, 0, 0, [none]) := by decide +kernel

/-- V-L2-H18. -/
theorem test_keyid_small : seen (after 0x11 (dst (src board 0 (List.replicate 32 1)) 1 9)) 0x100 1 =
    (0x1406, 0, 0, [none]) := by decide +kernel

/-- V-L2-B8. -/
theorem test_b85Enc : seen (after 0x30 (dst (src board 0 [0x41, 0x42, 0x43, 0x44, 0x45]) 1 7)) 0x100 8 =
    (0x2, 7, 0, [some 0x3b, some 0x7b, some 0x6c, some 0x79, some 0x32, some 0x3d, some 0x36, none]) := by decide +kernel

/-- V-L2-B9 under variant 0: digit 6 is `+`. -/
theorem test_b85Enc_variant : seen (after 0x30 (dst (src board 0 [0, 1, 2, 3, 4, 5, 6, 7]) 1 10)) 0x100 10 =
    (0x2, 10, 0, [0x21, 0x21, 0x30, 0x33, 0x2b, 0x23, 0x3f, 0x6d, 0x7e, 0x3d].map some) := by decide +kernel

/-- V-L2-B15: a non-canonical final group. -/
theorem test_b85Dec : seen (after 0x31 (dst (src board 0 [0x7a, 0x7b]) 1 4)) 0x100 2 =
    (0x2, 1, 0, [some 0xff, none]) := by decide +kernel

/-- V-L2-B23: the length check comes before the symbol check. -/
theorem test_b85Dec_order : seen (after 0x31 (dst (src board 0 [0x22, 0x21]) 1 0)) 0x100 1 = (0x1406, 0, 0, [none]) ∧
    seen (after 0x31 (dst (src board 0 [0x22, 0x21]) 1 1)) 0x100 1 = (0x0406, 0, 0, [none]) := by decide +kernel

/-- V-L2-K4. -/
theorem test_krLoad_blank : seen (after 0x40 (src board 0 [0x20, 0x09, 0x0a, 0x0d, 0x0a])) 0 0 = (0x0206, 0, 0, []) := by
  decide +kernel

/-- V-L2-F2. -/
theorem test_frameAad : seen (after 0x50 (dst (src (src board 0 [0x00, 0x03, 0x61, 0x70, 0x70, 0x00, 0x01, 0x78]) 1 [0x73]) 2 64))
    0x200 24 = (0x2, 23, 0, [some 0x7b, some 0x22, some 0x61, some 0x70, some 0x70, some 0x22, some 0x3a, some 0x22, some 0x78,
      some 0x22, some 0x2c, some 0x22, some 0x73, some 0x63, some 0x6f, some 0x70, some 0x65, some 0x22, some 0x3a, some 0x22,
      some 0x73, some 0x22, some 0x7d, none]) := by decide +kernel

/-- V-L2-F4b. -/
theorem test_frameAad_truncated : seen (after 0x50 (dst (src (src board 0 [0x00]) 1 [0x73]) 2 64)) 0x200 1 =
    (0x1706, 0, 0, [none]) := by decide +kernel

/-! ### The parts of the reference token (V-L1-1) -/

/-- The material line: 40 times `a`. -/
def a40 : Bytes := List.replicate 40 0x61

/-- K_a. -/
def keyA : Bytes := (List.replicate 8 [0xb0, 0x50, 0x09, 0xd8]).flatten

/-- Z0. -/
def z0 : Bytes := List.replicate 12 0

/-- `test_scope`. -/
def scopeRef : Bytes := [0x74, 0x65, 0x73, 0x74, 0x5f, 0x73, 0x63, 0x6f, 0x70, 0x65]

/-- H_ref. -/
def headerRef : Bytes :=
  [0x7b, 0x22, 0x73, 0x63, 0x6f, 0x70, 0x65, 0x22, 0x3a, 0x22, 0x74, 0x65, 0x73, 0x74, 0x5f, 0x73, 0x63, 0x6f, 0x70,
    0x65, 0x22, 0x7d]

/-- KeyIdDigest(K_a). -/
def digestA : Bytes := [0x07, 0x46, 0xd0, 0x1a, 0xf3, 0xfb, 0xfd, 0x82]

/-- `%Cl*awJGQB`. -/
def field1 : Bytes := [0x25, 0x43, 0x6c, 0x2a, 0x61, 0x77, 0x4a, 0x47, 0x51, 0x42]

/-- The keyring of `a40`. -/
def ringA : Keyring := { entries := [{ id := digestA, key := keyA }], cur := 0 }

/-- V-L2-H14. -/
theorem test_digest : keyIdDigest keyA = digestA := by decide +kernel

/-- V-L2-H14: the token's field 1. -/
theorem test_keyid_text : keyIdText 0 keyA = field1 := by
  rw [keyIdText, test_digest]; decide +kernel

/-- The token's field 3. -/
theorem test_header_field : composeAad [] scopeRef = some headerRef ∧ enc85 0 headerRef =
    [0x4e, 0x57, 0x75, 0x54, 0x46, 0x4a, 0x6e, 0x48, 0x3e, 0x39, 0x39, 0x63, 0x35, 0x62, 0x5f, 0x4c, 0x30, 0x2d, 0x6b,
      0x37, 0x46, 0x7a, 0x4e, 0x42, 0x7c, 0x32, 0x2d, 0x36] := by decide +kernel

/-- The keystream KS of the token's field 4. -/
theorem test_keystream : keystream keyA z0 headerRef 18 =
    [0x39, 0x1b, 0xa1, 0x0c, 0x79, 0x37, 0x20, 0x9c, 0x75, 0x4a, 0x29, 0x28, 0xfa, 0xad, 0x18, 0x89, 0xa6, 0x35] := by
  decide +kernel

/-- V-L2-K10: leading blanks and a trailing token. -/
theorem test_load : loadKeyring board.params ([0x20, 0x20] ++ a40 ++ [0x20, 0x6a]) = .ok ringA ∧
    loadKeyring board.params a40 = .ok ringA := by
  have h1 : loadKeyring board.params ([0x20, 0x20] ++ a40 ++ [0x20, 0x6a]) =
      .ok { entries := [{ id := keyIdDigest keyA, key := keyA }], cur := 0 } := by rfl
  have h2 : loadKeyring board.params a40 = .ok { entries := [{ id := keyIdDigest keyA, key := keyA }], cur := 0 } := by rfl
  rw [h1, h2, test_digest]
  exact ⟨rfl, rfl⟩

/-- The board with K_a in its store. -/
def withRing (s : State) : State := { s with keyring := ringA }

/-- V-L2-K16. -/
theorem test_krLookup : seen (after 0x41 (dst (src (withRing board) 0 field1) 1 32)) 0x100 3 =
    (0x2, 32, 0, [some 0xb0, some 0x50, some 0x09]) := by decide +kernel

/-- V-L2-K20: a text of four bytes. -/
theorem test_krLookup_short : seen (after 0x41 (dst (src (withRing board) 0 [0x25, 0x43, 0x6c, 0x2a, 0x61]) 1 32)) 0x100 1 =
    (0x0306, 0, 0, [none]) := by decide +kernel

theorem test_krClear : seen (after 0x42 (withRing board)) 0 0 = (0x2, 0, 0, []) ∧
    (after 0x42 (withRing board)).readReg .krCount = 0 := by decide +kernel

/-! ### AEAD and frames -/

/-- V-L2-A4: K = 01, Z0, H empty. -/
theorem test_tag : aeadTag [1] z0 [] [0x59] 8 = [0x7b, 0x3e, 0x99, 0xda, 0x0a, 0x57, 0x2f, 0x61] := by decide +kernel

/-- V-L2-A4: `A` gives 59, so the keystream byte is 18. -/
theorem test_seal : sealCore [1] z0 [] [0x41] 8 = [0x59, 0x7b, 0x3e, 0x99, 0xda, 0x0a, 0x57, 0x2f, 0x61] := by
  have h : keystream [1] z0 [] 1 = [0x18] := by decide +kernel
  show List.zipWith (· + ·) [0x41] (keystream [1] z0 [] 1) ++
    aeadTag [1] z0 [] (List.zipWith (· + ·) [0x41] (keystream [1] z0 [] 1)) 8 = _
  rw [h]
  show [0x59] ++ aeadTag [1] z0 [] [0x59] 8 = _
  rw [test_tag]
  rfl

/-- An input of V-L2-A4's sealed message opens; with the last bit flipped it does not (R212). -/
theorem test_open : (∃ M : Bytes, M.length = 1 ∧
      openCore [1] z0 [] [0x59, 0x7b, 0x3e, 0x99, 0xda, 0x0a, 0x57, 0x2f, 0x61] 8 = some M) ∧
    openCore [1] z0 [] [0x59, 0x7b, 0x3e, 0x99, 0xda, 0x0a, 0x57, 0x2f, 0x60] 8 = none := by
  have h1 : tagEqual [0x7b, 0x3e, 0x99, 0xda, 0x0a, 0x57, 0x2f, 0x61]
      [0x7b, 0x3e, 0x99, 0xda, 0x0a, 0x57, 0x2f, 0x61] = true := by decide
  constructor
  · refine ⟨List.zipWith (· - ·) [0x59] (keystream [1] z0 [] 1), ?_, ?_⟩
    · simp [keystream]
    · rw [openCore, if_neg (by decide)]
      show (if tagEqual _ (aeadTag [1] z0 [] [0x59] 8) = true then _ else none) = _
      rw [test_tag]
      exact if_pos h1
  · rw [openCore, if_neg (by decide)]
    show (if tagEqual _ (aeadTag [1] z0 [] [0x59] 8) = true then _ else none) = _
    rw [test_tag]
    exact if_neg (by decide)

/-- The regions of an AEAD command: key, nonce, header, message, room. -/
def aeadBoard (r : Nat) (m : Bytes) : State :=
  dst (src (src (src (src board 0 [1]) 1 z0) 2 []) 3 m) 4 r

/-- V-L2-A14: one byte too few. -/
theorem test_aeadSeal_small : seen (after 0x2020 (aeadBoard 32 [0x41])) 0x400 1 = (0x1406, 0, 0, [none]) := by decide +kernel

/-- V-L2-A10: an input shorter than its tag. -/
theorem test_aeadOpen_short : seen (after 0x2021 (aeadBoard 1 (List.replicate 31 0))) 0x400 1 =
    (0x0606, 0, 0, [none]) := by decide +kernel

/-- The regions of FRAME_SEAL. -/
def sealBoard (m z : Bytes) (room : Nat) : State :=
  dst (src (src (src (src (src board 0 m) 1 []) 2 scopeRef) 3 z) 4 [0x68, 0x69]) 5 room

/-- V-L2-F5a. -/
theorem test_frameSeal_nonce : seen (after 0x51 (withRing (sealBoard a40 (List.replicate 11 0) 99))) 0x500 1 =
    (0x1506, 0, 0, [none]) ∧ (after 0x51 (withRing (sealBoard a40 (List.replicate 11 0) 99))).keyring = ringA := by
  decide +kernel

/-- V-L2-F5c: no key, and the store ends empty. -/
theorem test_frameSeal_no_key : seen (after 0x51 (withRing (sealBoard [] z0 99))) 0x500 1 = (0x0206, 0, 0, [none]) ∧
    (after 0x51 (withRing (sealBoard [] z0 99))).keyring = Keyring.empty := by decide +kernel

/-- The regions of FRAME_PARSE. -/
def parseBoard (m t : Bytes) (room2 room3 : Nat) : State := dst (dst (src (src board 0 m) 1 t) 2 room2) 3 room3

/-- V-L2-F14: three fields; the store stays. -/
theorem test_frameParse_fields :
    seen (after 0x52 (withRing (parseBoard a40 [0x61, 0x2f, 0x62, 0x2f, 0x63] 64 64))) 0x200 1 = (0x0506, 0, 0, [none]) ∧
    (after 0x52 (withRing (parseBoard a40 [0x61, 0x2f, 0x62, 0x2f, 0x63] 64 64))).keyring = ringA := by decide +kernel

/-- V-L2-F22. -/
theorem test_frameParse_no_key :
    seen (after 0x52 (parseBoard [] [0x61, 0x2f, 0x62, 0x2f, 0x63, 0x2f, 0x64] 64 64)) 0x200 1 = (0x0206, 0, 0, [none]) := by
  decide +kernel

/-! ### Witnesses: for each statement with hypotheses, what meets them, clause by clause -/

/-- A state with a command word pending. -/
def pending (c : Word) (s : State) : State := { s with pend := some c }

theorem witness_EveryWordHasOneOutcome :
    ((pending 0x08 board).agenda = [] ∧ (pending 0x08 board).pend = some 0x08 ∧ IllegalOp (opOf 0x08)) ∧
    (({ pending 0x08 board with agenda := [.engine, .reset] }.agenda = .engine :: [.reset]) ∧
      { pending 0x08 board with agenda := [.engine, .reset] }.pend = some 0x08) ∧
    (IllegalOp (opOf 0x0F) ∧ IllegalOp (opOf 0x12) ∧ IllegalOp (opOf 0x53) ∧ IllegalOp (opOf 0xFFFFFFFF)) ∧
    (¬ IllegalOp (opOf 0x00010003) ∧ rsvOf 0x00010003 ≠ 0) ∧
    (¬ IllegalOp (opOf 0x00000152) ∧ ¬ TakesImm8 (opOf 0x00000152) ∧ imm8Of 0x00000152 ≠ 0) ∧
    (¬ IllegalOp (opOf 0x0000FF21) ∧ rsvOf 0x0000FF21 = 0 ∧ TakesImm8 (opOf 0x0000FF21)) ∧
    (¬ IllegalOp (opOf 0x00000052) ∧ rsvOf 0x00000052 = 0 ∧ imm8Of 0x00000052 = 0) := by
  unfold IllegalOp TakesImm8
  refine ⟨⟨rfl, rfl, ?_⟩, ⟨rfl, rfl⟩, ⟨?_, ?_, ?_, ?_⟩, ⟨?_, ?_⟩, ⟨?_, ?_, ?_⟩, ⟨?_, ?_, ?_⟩, ?_, ?_, ?_⟩ <;> decide

theorem witness_StepTakesTheNextTurn :
    ((pending 0x00 board).pend = some 0x00 ∧ decode 0x00 = .ok .nop ∧ (pending 0x00 board).agenda = []) ∧
    ({ pending 0x00 board with agenda := [.engine, .reset] }.agenda = .engine :: [.reset]) ∧
    (board.pend = none ∧ board.agenda = []) ∧
    ({ board with agenda := [wrTurn 0x004 0x07] }.agenda = .host (.regWrite 0x004 .word 0x07) :: []) :=
  ⟨⟨rfl, by decide, rfl⟩, rfl, ⟨rfl, rfl⟩, rfl⟩

theorem witness_ResetGivesTheResetTable :
    { pending 0x10 (withRing board) with agenda := [.reset, .engine] }.agenda = .reset :: [.engine] := rfl

theorem witness_CmdWriteStartsACommandOrSetsWerr : board.pend = none ∧ (pending 0x00 board).pend ≠ none :=
  ⟨rfl, by simp [pending]⟩

theorem witness_DescriptorRegistersHoldWhatIsWritten :
    (0x040#12).toNat = 0x040 + 8 * (0 : Fin 8).val ∧ (0x078#12).toNat = 0x040 + 8 * (7 : Fin 8).val ∧
    (0x044#12).toNat = 0x044 + 8 * (0 : Fin 8).val ∧ (0x07C#12).toNat = 0x044 + 8 * (7 : Fin 8).val ∧
    board.pend = none ∧ (pending 0x00 board).pend ≠ none := ⟨rfl, rfl, rfl, rfl, rfl, by simp [pending]⟩

theorem witness_ReservedOffsetsReadZeroAndIgnoreWrites :
    ∀ off ∈ [0x024#12, 0x03C#12, 0x080#12, 0x0FC#12, 0x200#12, 0xFFC#12], off.toNat % 4 = 0 ∧
      ((0x024 ≤ off.toNat ∧ off.toNat ≤ 0x03C) ∨ (0x080 ≤ off.toNat ∧ off.toNat ≤ 0x0FC) ∨
        (0x200 ≤ off.toNat ∧ off.toNat ≤ 0xFFC)) := by decide

theorem witness_ReadOnlyRegistersViewTheState :
    (∀ off ∈ [0x000#12, 0x00C#12, 0x020#12, 0x100#12, 0x1FC#12], off.toNat % 4 = 0 ∧
      (off.toNat = 0 ∨ (0x00C ≤ off.toNat ∧ off.toNat ≤ 0x020) ∨ (0x100 ≤ off.toNat ∧ off.toNat < 0x200))) ∧
    (0x100#12).toNat = 0x100 + 4 * 0 ∧ (0x1FC#12).toNat = 0x100 + 4 * 63 ∧ 63 < 64 ∧ 3 < 4 := by decide

/-- The last word and the last byte of DMEM, and a byte with a value. -/
theorem witness_HostMemoryAccessesAreLittleEndian :
    ((0xFFC#32).toNat % accessBytes .word = 0 ∧ (0xFFC#32).toNat + accessBytes .word ≤ board.params.dmemBytes) ∧
    ((0xFFE#32).toNat % accessBytes .half = 0 ∧ (0xFFE#32).toNat + accessBytes .half ≤ board.params.dmemBytes) ∧
    ((0xFFF#32).toNat % accessBytes .byte = 0 ∧ (0xFFF#32).toNat + accessBytes .byte ≤ board.params.dmemBytes) ∧
    (3 < accessBytes .word ∧ (src board 0 [1, 2, 3, 4]).dmem.read ((0x0#32).toNat + 3) = some 4) := by decide

theorem witness_AccessViolationsHaveNoStep :
    (AccessSize.half ≠ .word ∧ (0x002#12).toNat % 4 ≠ 0) ∧ (0x001#32).toNat % accessBytes .half ≠ 0 ∧
    board.params.dmemBytes < (0x1000#32).toNat + accessBytes .byte ∧
    board.params.dmemBytes < (0xFFFFFFFC#32).toNat + accessBytes .word := by decide

theorem spongeOk_init : SpongeOk Sponge.init := by
  refine ⟨?_, by decide, by decide⟩
  rw [show Sponge.init.at = id from funext at_init]
  exact Function.bijective_id

theorem witness_SpongeProceduresKeepTheirInvariants :
    SpongeOk Sponge.init ∧ SpongeOk { Sponge.init with a := 128, w := 255 } :=
  ⟨spongeOk_init, spongeOk_init.1, by decide, by decide⟩

theorem witness_WhipAdvancesTheStepSize : (1#8).toNat % 2 = 1 ∧ (255#8).toNat % 2 = 1 := by decide

theorem witness_SpAbsorbAbsorbsTheRegion :
    OperandsOk (src board 0 [0x41]) .spAbsorb ∧ MayRead (src board 0 [0x41]) 0 [0x41] ∧
    OperandsOk (region board 0 0x1000 0) .spAbsorb ∧ MayRead (region board 0 0x1000 0) 0 [] := by
  refine ⟨ok_of_check (by decide +kernel), ?_, ok_of_check (by decide +kernel), rfl, fun k b h => by cases h⟩
  have h : Holds (src board 0 [0x41]) 0 [0x41] := holds_of_check (by decide +kernel)
  exact ⟨h.1, fun k b hk hb => by rw [← h.2 k hk]; exact hb⟩

theorem witness_SpAbsorbStopTakesOnePosition :
    board.sponge.a ≠ 128 ∧ { board with sponge := { Sponge.init with a := 128 } }.sponge.a = 128 := ⟨by decide, rfl⟩

/-- A destination that ends where DMEM does, and one of no byte past the end. -/
theorem witness_SpSqueezeWritesKeystream :
    OperandsOk (region board 0 0xFF0 0x10) .spSqueeze ∧ OperandsOk (region board 0 0x1000 0) .spSqueeze :=
  ⟨ok_of_check (by decide +kernel), ok_of_check (by decide +kernel)⟩

theorem witness_SpDripIsAOneByteSqueeze :
    (region board 0 0xFFF 1).desc[(0 : Fin 8)].len = 1 ∧ OperandsOk (region board 0 0xFFF 1) .spSqueeze :=
  ⟨by decide, ok_of_check (by decide +kernel)⟩

/-- The regions of a command with one source and one destination. -/
def pair (bs : Bytes) (room : Nat) : State := dst (src board 0 bs) 1 room

theorem witness_HashWritesTheDigest :
    (OperandsOk (pair [0x41] 255) (.hash 255) ∧ (255 : Byte).toNat ≤ (pair [0x41] 255).regionLen 1) ∧
    (OperandsOk (pair [] 0) (.hash 0) ∧ (0 : Byte).toNat ≤ (pair [] 0).regionLen 1) :=
  ⟨⟨ok_of_check (by decide +kernel), by decide +kernel⟩, ok_of_check (by decide +kernel), by decide +kernel⟩

theorem witness_KeyidWritesTheKeyIdText : OperandsOk (pair keyA 10) .keyid ∧ 10 ≤ (pair keyA 10).regionLen 1 :=
  ⟨ok_of_check (by decide +kernel), by decide +kernel⟩

/-- "this is some data!", the plaintext of rule R213's example. -/
def plainRef : Bytes :=
  [0x74, 0x68, 0x69, 0x73, 0x20, 0x69, 0x73, 0x20, 0x73, 0x6f, 0x6d, 0x65, 0x20, 0x64, 0x61, 0x74, 0x61, 0x21]

theorem witness_SealedMessageIsCiphertextThenTag :
    (∃ g, g = absorbStop (absorb (absorbStop (absorb (absorbStop (absorb Sponge.init [1])) z0)) [])) ∧
    (([0x59] : Bytes) = (sealCore [1] z0 [] [0x41] 8).take ([0x41] : Bytes).length) ∧
    plainRef[17]? = some 0x21 ∧ (keystream keyA z0 headerRef plainRef.length)[17]? = some 0x35 ∧ 0 ≤ 18 ∧
    ([1, 2] : Bytes).length = ([1, 3] : Bytes).length := by
  rw [show plainRef.length = 18 from rfl, test_keystream, test_seal]
  exact ⟨⟨_, rfl⟩, by decide⟩

theorem witness_AeadSealWritesTheSealedMessage :
    OperandsOk (aeadBoard 33 [0x41]) (.aeadSeal 32) ∧ (aeadBoard 33 [0x41]).regionLen 1 = 12 ∧
    (aeadBoard 33 [0x41]).regionLen 3 + (32 : Byte).toNat ≤ (aeadBoard 33 [0x41]).regionLen 4 :=
  ⟨ok_of_check (by decide +kernel), by decide +kernel, by decide +kernel⟩

/-- V-L2-A4's sealed message. -/
def sealedA : Bytes := [0x59, 0x7b, 0x3e, 0x99, 0xda, 0x0a, 0x57, 0x2f, 0x61]

theorem aeadBoard_holds (r : Nat) (x : Bytes) (h : (holdsCheck (aeadBoard r x) 0 [1] && holdsCheck (aeadBoard r x) 1 z0 &&
      holdsCheck (aeadBoard r x) 2 [] && holdsCheck (aeadBoard r x) 3 x) = true) :
    Holds (aeadBoard r x) 0 [1] ∧ Holds (aeadBoard r x) 1 z0 ∧ Holds (aeadBoard r x) 2 [] ∧ Holds (aeadBoard r x) 3 x := by
  simp only [Bool.and_eq_true] at h
  obtain ⟨⟨⟨h0, h1⟩, h2⟩, h3⟩ := h
  exact ⟨holds_of_check h0, holds_of_check h1, holds_of_check h2, holds_of_check h3⟩

theorem witness_AeadOpenWritesTheVerifiedPlaintext :
    OperandsOk (aeadBoard 1 sealedA) (.aeadOpen 8) ∧
    (Holds (aeadBoard 1 sealedA) 0 [1] ∧ Holds (aeadBoard 1 sealedA) 1 z0 ∧ Holds (aeadBoard 1 sealedA) 2 [] ∧
      Holds (aeadBoard 1 sealedA) 3 sealedA) ∧ z0.length = 12 ∧
    ∃ M : Bytes, M.length ≤ (aeadBoard 1 sealedA).regionLen 4 ∧ openCore [1] z0 [] sealedA 8 = some M := by
  obtain ⟨M, h1, h2⟩ := test_open.1
  exact ⟨ok_of_check (by decide +kernel), aeadBoard_holds _ _ (by decide +kernel), rfl, M,
    by rw [h1]; decide +kernel, h2⟩

/-- V-L2-A4's sealed message with a bit of the tag flipped. -/
def brokenA : Bytes := [0x59, 0x7b, 0x3e, 0x99, 0xda, 0x0a, 0x57, 0x2f, 0x60]

theorem witness_AeadOpenFailureRevealsNothing :
    (OperandsOk (aeadBoard 1 brokenA) (.aeadOpen 8) ∧
      (Holds (aeadBoard 1 brokenA) 0 [1] ∧ Holds (aeadBoard 1 brokenA) 1 z0 ∧ Holds (aeadBoard 1 brokenA) 2 [] ∧
        Holds (aeadBoard 1 brokenA) 3 brokenA) ∧
      brokenA.length - (8 : Byte).toNat ≤ (aeadBoard 1 brokenA).regionLen 4 ∧ openCore [1] z0 [] brokenA 8 = none) ∧
    (OperandsOk (aeadBoard 1 [9]) (.aeadOpen 2) ∧
      (Holds (aeadBoard 1 [9]) 0 [1] ∧ Holds (aeadBoard 1 [9]) 1 z0 ∧ Holds (aeadBoard 1 [9]) 2 [] ∧
        Holds (aeadBoard 1 [9]) 3 [9]) ∧ ([9] : Bytes).length < (2 : Byte).toNat) ∧ z0.length = 12 :=
  ⟨⟨ok_of_check (by decide +kernel), aeadBoard_holds _ _ (by decide +kernel), by decide +kernel, test_open.2⟩,
    ⟨ok_of_check (by decide +kernel), aeadBoard_holds _ _ (by decide +kernel), by decide⟩, rfl⟩

theorem witness_AlphabetIsAnAscendingBijection :
    (0 < 84 ∧ 84 < 85) ∧ digit 0 0x21 = some 0 ∧ digit 0 0x7E = some 84 ∧ digit 5 0x29 = some 4 ∧ digit 5 0x2C = some 6 := by
  decide +kernel

theorem witness_Base85LengthsAreTheFormulas :
    (digestA.length = 8 ∧ z0.length = 12 ∧ headerRef.length = 22 ∧ (List.replicate 50 (0 : Byte)).length = 50) ∧
    (([0x61] : Bytes).length % 5 = 1 ∧ (List.replicate 6 (0x21 : Byte)).length % 5 = 1) ∧
    dec85 0 field1 = some digestA := by decide +kernel

theorem witness_Base85RoundTrips :
    field1.length % 5 = 0 ∧ dec85 0 field1 = some digestA ∧ ([] : Bytes).length % 5 = 0 ∧ dec85 0 [] = some [] := by
  decide +kernel

/-- A `"`; the group of value 2^32; a last group that starts with digit 83. -/
theorem witness_BadSymbolsAndOverflowFail :
    ((0x22 : Byte) ∈ [0x21, 0x22] ∧ digit 0 0x22 = none) ∧
    (symbolDigits 0 [0x7b, 0x3e, 0x5f, 0x33, 0x23] = some [82, 23, 54, 12, 1] ∧ 2 ^ 32 ≤ value85 [82, 23, 54, 12, 1] ∧
      ([] : Bytes).length % 5 = 0 ∧ ([0x7b, 0x3e, 0x5f, 0x33, 0x23] : Bytes).length = 5) ∧
    (field1 ++ [0x7C, 0x21] = field1 ++ 0x7C :: [0x21] ∧ field1.length % 5 = 0) := by decide +kernel

theorem witness_B85EncWritesTheText :
    OperandsOk (pair headerRef 28) .b85Enc ∧
    encodedLength ((pair headerRef 28).regionLen 0) ≤ (pair headerRef 28).regionLen 1 :=
  ⟨ok_of_check (by decide +kernel), by decide +kernel⟩

theorem witness_B85DecWritesTheBytes :
    OperandsOk (pair field1 8) .b85Dec ∧ Holds (pair field1 8) 0 field1 ∧
    dec85 (pair field1 8).params.b85Variant field1 = some digestA ∧ digestA.length ≤ (pair field1 8).regionLen 1 :=
  ⟨ok_of_check (by decide +kernel), holds_of_check (by decide +kernel), by decide +kernel, by decide +kernel⟩

/-- A well-formed store. -/
theorem ringA_ok : KeyringOk board.params ringA := by
  refine ⟨by decide, by decide, ?_, .inl (by decide)⟩
  intro e he
  rw [show ringA.entries = [{ id := digestA, key := keyA }] from rfl, List.mem_singleton] at he
  rw [he]
  exact ⟨rfl, test_digest.symm, by decide, by decide⟩

theorem witness_DecodingCommandErrors :
    (OperandsOk (pair [0x61] 0) .b85Dec ∧ Holds (pair [0x61] 0) 0 [0x61] ∧ ([0x61] : Bytes).length % 5 = 1) ∧
    (OperandsOk (pair [0x21, 0x21] 0) .b85Dec ∧ Holds (pair [0x21, 0x21] 0) 0 [0x21, 0x21] ∧
      (pair [0x21, 0x21] 0).regionLen 1 < decodedLength 2) ∧
    (OperandsOk (pair [0x22, 0x21] 1) .b85Dec ∧ Holds (pair [0x22, 0x21] 1) 0 [0x22, 0x21] ∧
      decodedLength 2 ≤ (pair [0x22, 0x21] 1).regionLen 1 ∧ dec85 0 [0x22, 0x21] = none) ∧
    (OperandsOk (pair [0x61] 0) .krLookup ∧ dec85 0 [0x61] = none) ∧
    (dec85 0 [0x21, 0x21] = some [0] ∧ ([0] : Bytes).length ≠ 8) ∧
    (OperandsOk (pair field1 31) .krLookup ∧ Holds (pair field1 31) 0 field1 ∧ dec85 0 field1 = some digestA ∧
      ∀ e ∈ board.keyring.entries, e.id ≠ digestA) ∧
    (OperandsOk (withRing (pair field1 31)) .krLookup ∧ Holds (withRing (pair field1 31)) 0 field1 ∧
      KeyringOk (withRing (pair field1 31)).params (withRing (pair field1 31)).keyring ∧
      (withRing (pair field1 31)).keyring.entries[0]? = some { id := digestA, key := keyA } ∧
      (withRing (pair field1 31)).regionLen 1 < keyA.length) :=
  ⟨⟨ok_of_check (by decide +kernel), holds_of_check (by decide +kernel), by decide⟩,
    ⟨ok_of_check (by decide +kernel), holds_of_check (by decide +kernel), by decide +kernel⟩,
    ⟨ok_of_check (by decide +kernel), holds_of_check (by decide +kernel), by decide +kernel, by decide +kernel⟩,
    ⟨ok_of_check (by decide +kernel), by decide +kernel⟩, by decide +kernel,
    ⟨ok_of_check (by decide +kernel), holds_of_check (by decide +kernel), by decide +kernel,
      fun e he => absurd he (by simp [board, State.resetWith, Keyring.empty])⟩,
    ok_of_check (by decide +kernel), holds_of_check (by decide +kernel), ringA_ok, rfl, by decide +kernel⟩

theorem witness_LoadedKeyringIsWellFormed : loadKeyring board.params a40 = .ok ringA := test_load.2

/-- A blank material; a dangling symbol after a good line; a key one byte too long; a store of one entry, full. -/
theorem witness_LoadFailsAtTheFirstBadLine :
    keyTokens [0x20, 0x0A] = [] ∧
    (lines (a40 ++ [0x0A, 0x61]) = [a40] ++ [0x61] :: [] ∧
      loadLines board.params [a40] [] none = .ok (ringA.entries, some 0) ∧ firstToken [0x61] = some [0x61] ∧
      dec85 0 [0x61] = none) ∧
    (firstToken (List.replicate 42 0x21) = some (List.replicate 42 0x21) ∧
      dec85 0 (List.replicate 42 0x21) = some (List.replicate 33 0) ∧ board.params.keyMaxBytes < 33) ∧
    (∃ es, loadLines { board.params with krTop := 0 } [a40] [] none = .ok (es, some 0) ∧
      es.length = Params.krMaxEntries { board.params with krTop := 0 } ∧ ∀ e ∈ es, e.id ≠ keyIdDigest [0, 0, 0, 0]) := by
  refine ⟨by decide +kernel, ⟨by decide +kernel, ?_, by decide +kernel, by decide +kernel⟩, by decide +kernel,
    ringA.entries, ?_, rfl, ?_⟩
  · have h : loadLines board.params [a40] [] none = .ok ([{ id := keyIdDigest keyA, key := keyA }], some 0) := by rfl
    rw [h, test_digest]; rfl
  · have h : loadLines { board.params with krTop := 0 } [a40] [] none =
        .ok ([{ id := keyIdDigest keyA, key := keyA }], some 0) := by rfl
    rw [h, test_digest]; rfl
  · intro e he
    rw [show ringA.entries = [{ id := digestA, key := keyA }] from rfl, List.mem_singleton] at he
    rw [he]
    exact fun h => absurd (congrArg List.head? h) (by decide +kernel)

theorem witness_RotationKeepsEarlierKeys :
    loadKeyring board.params a40 = .ok ringA ∧ loadKeyring board.params (a40 ++ [0x0A] ++ [0x20]) = .ok ringA ∧
    ringA.entries[0]? = some { id := digestA, key := keyA } := by
  have h : loadKeyring board.params (a40 ++ [0x0A] ++ [0x20]) =
      .ok { entries := [{ id := keyIdDigest keyA, key := keyA }], cur := 0 } := by rfl
  exact ⟨test_load.2, by rw [h, test_digest]; rfl, rfl⟩

theorem witness_KrLoadFillsOrEmptiesTheStore :
    (OperandsOk (src board 0 a40) .krLoad ∧ Holds (src board 0 a40) 0 a40 ∧
      loadKeyring (src board 0 a40).params a40 = .ok ringA) ∧
    (OperandsOk (src board 0 []) .krLoad ∧ Holds (src board 0 []) 0 [] ∧
      loadKeyring (src board 0 []).params [] = .error .noUsableKeys) :=
  ⟨⟨ok_of_check (by decide +kernel), holds_of_check (by decide +kernel), test_load.2⟩, ok_of_check (by decide +kernel),
    holds_of_check (by decide +kernel), rfl⟩

theorem witness_KrLookupCopiesTheKey :
    OperandsOk (withRing (pair field1 32)) .krLookup ∧ Holds (withRing (pair field1 32)) 0 field1 ∧
    KeyringOk (withRing (pair field1 32)).params (withRing (pair field1 32)).keyring ∧
    (withRing (pair field1 32)).keyring.entries[0]? = some { id := digestA, key := keyA } ∧
    dec85 (withRing (pair field1 32)).params.b85Variant field1 = some digestA ∧
    keyA.length ≤ (withRing (pair field1 32)).regionLen 1 :=
  ⟨ok_of_check (by decide +kernel), holds_of_check (by decide +kernel), ringA_ok, rfl, by decide +kernel,
    by decide +kernel⟩

theorem witness_HeaderListParsesToAnAscendingMapping :
    (∀ e ∈ [(([0x6b], [0x31]) : Bytes × Bytes), ([], []), ([0x6b], [0x32])], EntryFits e) ∧
    parseHeaderList [0x00, 0x01, 0x6b, 0x00, 0x01, 0x31] = some [([0x6b], [0x31])] ∧
    parseHeaderList [0x00, 0x01, 0x6b, 0x00, 0x01] = none := by
  unfold EntryFits; decide

theorem witness_AadContainsTheScopeEntry :
    composeAad [] scopeRef = some headerRef ∧ parseHeaderList [] ≠ none ∧ ([0x65, 0x76] : Bytes).length < 2 ^ 16 ∧
    parseHeaderList [0x00] = none := ⟨test_header_field.1, by decide, by decide, by decide⟩

theorem witness_EscapingIsSafeAndKeepsPlainText :
    (∀ b ∈ ([0x20, 0x21, 0x7F, 0xFF] : Bytes), 0x20 ≤ b.toNat ∧ b ≠ 0x22 ∧ b ≠ 0x5C) ∧
    (escBytes [0x61, 0x22])[2]? = some 0x22 := by decide

/-- The regions of FRAME_AAD. -/
def aadBoard (b : Bytes) (room : Nat) : State := dst (src (src board 0 b) 1 scopeRef) 2 room

theorem witness_FrameAadWritesTheAad :
    OperandsOk (aadBoard [] 22) .frameAad ∧ Holds (aadBoard [] 22) 0 [] ∧ Holds (aadBoard [] 22) 1 scopeRef ∧
    composeAad [] scopeRef = some headerRef ∧ headerRef.length ≤ (aadBoard [] 22).regionLen 2 :=
  ⟨ok_of_check (by decide +kernel), holds_of_check (by decide +kernel), holds_of_check (by decide +kernel),
    test_header_field.1, by decide +kernel⟩

/-- The plaintext of V-L2-F7. -/
def hi : Bytes := [0x68, 0x69]

theorem sealBoard_ok (m : Bytes) (room : Nat) (h : ((operandError (sealBoard m z0 room) [0, 1, 2, 3, 4] [5]).isNone &&
      (holdsCheck (sealBoard m z0 room) 0 m && holdsCheck (sealBoard m z0 room) 1 [] &&
        holdsCheck (sealBoard m z0 room) 2 scopeRef && holdsCheck (sealBoard m z0 room) 3 z0 &&
        holdsCheck (sealBoard m z0 room) 4 hi)) = true) :
    OperandsOk (sealBoard m z0 room) .frameSeal ∧ Holds (sealBoard m z0 room) 0 m ∧ Holds (sealBoard m z0 room) 1 [] ∧
      Holds (sealBoard m z0 room) 2 scopeRef ∧ Holds (sealBoard m z0 room) 3 z0 ∧ Holds (sealBoard m z0 room) 4 hi := by
  simp only [Bool.and_eq_true] at h
  obtain ⟨h, ⟨⟨⟨h0, h1⟩, h2⟩, h3⟩, h4⟩ := h
  exact ⟨ok_of_check (Option.isNone_iff_eq_none.1 h), holds_of_check h0, holds_of_check h1, holds_of_check h2,
    holds_of_check h3, holds_of_check h4⟩

theorem witness_FrameSealWritesTheToken :
    (OperandsOk (sealBoard a40 z0 99) .frameSeal ∧ Holds (sealBoard a40 z0 99) 0 a40 ∧ Holds (sealBoard a40 z0 99) 1 [] ∧
      Holds (sealBoard a40 z0 99) 2 scopeRef ∧ Holds (sealBoard a40 z0 99) 3 z0 ∧ Holds (sealBoard a40 z0 99) 4 hi) ∧
    z0.length = 12 ∧ composeAad [] scopeRef = some headerRef ∧ loadKeyring (sealBoard a40 z0 99).params a40 = .ok ringA ∧
    10 + 1 + 15 + 1 + encodedLength headerRef.length + 1 + encodedLength (hi.length + 32) ≤
      (sealBoard a40 z0 99).regionLen 5 :=
  ⟨sealBoard_ok _ _ (by decide +kernel), rfl, test_header_field.1, test_load.2, by decide +kernel⟩

/-- `{"scope":""}`. -/
def headerA : Bytes := [0x7b, 0x22, 0x73, 0x63, 0x6f, 0x70, 0x65, 0x22, 0x3a, 0x22, 0x22, 0x7d]

/-- The model's tag of the empty message under K_a, Z0 and that header. -/
def tagA : Bytes :=
  [0xe7, 0xe9, 0x2a, 0xa7, 0xe3, 0x7c, 0x14, 0x57, 0x6a, 0xe7, 0x73, 0x74, 0xed, 0x71, 0x91, 0xf1, 0xd1, 0xe9, 0x57,
    0x55, 0xe5, 0x3a, 0xfa, 0x41, 0x9a, 0x56, 0xe1, 0x95, 0x09, 0xa3, 0x26, 0x8c]

theorem tagA_opens : openCore keyA z0 headerA tagA 32 = some [] := by
  have h : aeadTag keyA z0 headerA [] 32 = tagA := by decide +kernel
  have h1 : tagEqual tagA tagA = true := by decide
  rw [openCore, if_neg (by decide)]
  show (if tagEqual tagA (aeadTag keyA z0 headerA [] 32) = true then _ else none) = _
  rw [h]
  exact if_pos h1

/-- A token under K_a, Z0 and that header. -/
def tokenOf (x : Bytes) : Bytes :=
  field1 ++ [0x2F] ++ List.replicate 15 0x21 ++ [0x2F] ++ enc85 0 headerA ++ [0x2F] ++ enc85 0 x

theorem parse_loaded {p : Params} {m : Bytes} {kr : Keyring} (h : loadKeyring p m = .ok kr) (f1 f2 f3 f4 : Bytes)
    {t : Bytes} (ht : splitFields t = [f1, f2, f3, f4]) : parseToken p m t = parseFields p.b85Variant kr f1 f2 f3 f4 := by
  rw [parseToken, ht]
  simp only [h]

theorem tokenA_parses : parseToken board.params a40 (tokenOf tagA) =
    .ok { key := keyA, nonce := z0, header := headerA, sealed := tagA } := by
  rw [parse_loaded test_load.2 field1 (List.replicate 15 0x21) (enc85 0 headerA) (enc85 0 tagA) (by decide +kernel)]
  rfl

/-- A token whose last field is one byte shorter than a tag (V-L2-F21). -/
theorem tokenShort_parses : parseToken board.params a40 (tokenOf (List.replicate 31 0)) =
    .ok { key := keyA, nonce := z0, header := headerA, sealed := List.replicate 31 0 } := by
  rw [parse_loaded test_load.2 field1 (List.replicate 15 0x21) (enc85 0 headerA) (enc85 0 (List.replicate 31 0))
    (by decide +kernel)]
  rfl

theorem parseBoard_ok (m t : Bytes) (r2 r3 : Nat) (h : ((operandError (parseBoard m t r2 r3) [0, 1] [2, 3]).isNone &&
      (holdsCheck (parseBoard m t r2 r3) 0 m && holdsCheck (parseBoard m t r2 r3) 1 t)) = true) :
    OperandsOk (parseBoard m t r2 r3) .frameParse ∧ Holds (parseBoard m t r2 r3) 0 m ∧ Holds (parseBoard m t r2 r3) 1 t := by
  simp only [Bool.and_eq_true] at h
  obtain ⟨h, h0, h1⟩ := h
  exact ⟨ok_of_check (Option.isNone_iff_eq_none.1 h), holds_of_check h0, holds_of_check h1⟩

theorem witness_FrameParseWritesHeaderAndPlaintext :
    (OperandsOk (parseBoard a40 (tokenOf tagA) 12 0) .frameParse ∧ Holds (parseBoard a40 (tokenOf tagA) 12 0) 0 a40 ∧
      Holds (parseBoard a40 (tokenOf tagA) 12 0) 1 (tokenOf tagA)) ∧
    parseToken (parseBoard a40 (tokenOf tagA) 12 0).params a40 (tokenOf tagA) =
      .ok { key := keyA, nonce := z0, header := headerA, sealed := tagA } ∧
    openCore keyA z0 headerA tagA 32 = some [] ∧ headerA.length ≤ (parseBoard a40 (tokenOf tagA) 12 0).regionLen 2 ∧
    ([] : Bytes).length ≤ (parseBoard a40 (tokenOf tagA) 12 0).regionLen 3 :=
  ⟨parseBoard_ok _ _ _ _ (by decide +kernel), tokenA_parses, tagA_opens, by decide +kernel, by decide +kernel⟩

theorem witness_FrameParseReturnsTheHeaderOnAuthFailure :
    (OperandsOk (parseBoard a40 (tokenOf (List.replicate 31 0)) 12 0) .frameParse ∧
      Holds (parseBoard a40 (tokenOf (List.replicate 31 0)) 12 0) 0 a40 ∧
      Holds (parseBoard a40 (tokenOf (List.replicate 31 0)) 12 0) 1 (tokenOf (List.replicate 31 0))) ∧
    parseToken (parseBoard a40 (tokenOf (List.replicate 31 0)) 12 0).params a40 (tokenOf (List.replicate 31 0)) =
      .ok { key := keyA, nonce := z0, header := headerA, sealed := List.replicate 31 0 } ∧
    openCore keyA z0 headerA (List.replicate 31 0) 32 = none ∧
    headerA.length ≤ (parseBoard a40 (tokenOf (List.replicate 31 0)) 12 0).regionLen 2 ∧
    (List.replicate 31 (0 : Byte)).length - 32 ≤ (parseBoard a40 (tokenOf (List.replicate 31 0)) 12 0).regionLen 3 :=
  ⟨parseBoard_ok _ _ _ _ (by decide +kernel), tokenShort_parses, by rw [openCore]; exact if_pos (by decide),
    by decide +kernel, by decide +kernel⟩

/-- Fields 1 and 2 of tokens that fail: field 1 with a byte outside the alphabet, of one byte, of an unknown id; field 2
with a byte outside the alphabet, then empty, which is a nonce of no byte. -/
def fieldCases : List (Bytes × Bytes) :=
  [([0x22], []), ([0x21, 0x21], []), (List.replicate 10 0x21, []), (field1, [0x22]), (field1, [])]

/-- A token with those two fields and empty fields 3 and 4. -/
def tokenWith (c : Bytes × Bytes) : Bytes := c.1 ++ [0x2F] ++ c.2 ++ [0x2F, 0x2F]

/-- Three fields; no key in the material; each cause of an error in the fields; a header, then a plaintext, one byte too long for its room. -/
theorem witness_FrameParseErrors :
    (OperandsOk (parseBoard a40 [0x2F, 0x2F] 0 0) .frameParse ∧ Holds (parseBoard a40 [0x2F, 0x2F] 0 0) 0 a40 ∧
      Holds (parseBoard a40 [0x2F, 0x2F] 0 0) 1 [0x2F, 0x2F]) ∧ (splitFields [0x2F, 0x2F]).length ≠ 4 ∧
    (OperandsOk (parseBoard [] [0x2F, 0x2F, 0x2F] 0 0) .frameParse ∧ Holds (parseBoard [] [0x2F, 0x2F, 0x2F] 0 0) 0 [] ∧
      Holds (parseBoard [] [0x2F, 0x2F, 0x2F] 0 0) 1 [0x2F, 0x2F, 0x2F]) ∧
    (splitFields [0x2F, 0x2F, 0x2F]).length = 4 ∧
    loadKeyring board.params [] = .error .noUsableKeys ∧
    parseToken board.params [] [0x2F, 0x2F, 0x2F] = .error .noUsableKeys ∧
    (∀ c ∈ fieldCases, (OperandsOk (parseBoard a40 (tokenWith c) 0 0) .frameParse ∧
        Holds (parseBoard a40 (tokenWith c) 0 0) 0 a40 ∧ Holds (parseBoard a40 (tokenWith c) 0 0) 1 (tokenWith c)) ∧
      splitFields (tokenWith c) = [c.1, c.2, [], []]) ∧
    loadKeyring board.params a40 = .ok ringA ∧
    dec85 0 [0x22] = none ∧ dec85 0 [0x21, 0x21] = some [0] ∧
    (dec85 0 (List.replicate 10 0x21) = some (List.replicate 8 0) ∧ ∀ e ∈ ringA.entries, e.id ≠ List.replicate 8 0) ∧
    ((∃ e ∈ ringA.entries, dec85 0 field1 = some e.id) ∧ dec85 0 [] = some []) ∧
    (OperandsOk (parseBoard a40 (tokenOf tagA) 11 0) .frameParse ∧ Holds (parseBoard a40 (tokenOf tagA) 11 0) 0 a40 ∧
      Holds (parseBoard a40 (tokenOf tagA) 11 0) 1 (tokenOf tagA)) ∧
    (parseBoard a40 (tokenOf tagA) 11 0).regionLen 2 < headerA.length ∧
    parseToken board.params a40 (tokenOf (0 :: tagA)) =
      .ok { key := keyA, nonce := z0, header := headerA, sealed := 0 :: tagA } ∧
    (32 ≤ (0 :: tagA).length ∧ (parseBoard a40 (tokenOf (0 :: tagA)) 12 0).regionLen 3 < (0 :: tagA).length - 32) := by
  refine ⟨parseBoard_ok _ _ _ _ (by decide +kernel), by decide, parseBoard_ok _ _ _ _ (by decide +kernel), by decide, rfl, rfl,
    ?_, test_load.2, by decide +kernel, by decide +kernel, by decide +kernel, ⟨⟨_, .head _, by decide +kernel⟩, rfl⟩,
    parseBoard_ok _ _ _ _ (by decide +kernel), by decide +kernel, ?_, by decide +kernel⟩
  · intro c hc
    have h : fieldCases.all (fun c => (operandError (parseBoard a40 (tokenWith c) 0 0) [0, 1] [2, 3]).isNone &&
        (holdsCheck (parseBoard a40 (tokenWith c) 0 0) 0 a40 &&
          holdsCheck (parseBoard a40 (tokenWith c) 0 0) 1 (tokenWith c))) = true := by decide +kernel
    have h' : fieldCases.all (fun c => splitFields (tokenWith c) == [c.1, c.2, [], []]) = true := by decide +kernel
    exact ⟨parseBoard_ok _ _ _ _ (List.all_eq_true.1 h c hc), eq_of_beq (List.all_eq_true.1 h' c hc)⟩
  · rw [parse_loaded test_load.2 field1 (List.replicate 15 0x21) (enc85 0 headerA) (enc85 0 (0 :: tagA))
      (by decide +kernel)]
    rfl

theorem witness_SealParseIdentity :
    loadKeyring board.params a40 = .ok ringA ∧ composeAad [] scopeRef = some headerRef ∧ z0.length = 12 :=
  ⟨test_load.2, test_header_field.1, rfl⟩

/-- A source past the end by a byte; a destination over a source; two destinations over each other. -/
theorem witness_OperandChecksComeFirst :
    (0 ∈ sources .krLoad ++ destinations .krLoad ∧ ¬ InDmem (region board 0 0x1000 1) 0) ∧
    ((∀ n ∈ sources .keyid ++ destinations .keyid, InDmem (region (src board 0 [1, 2, 3]) 1 0x002 8) n) ∧
      ¬ Apart (region (src board 0 [1, 2, 3]) 1 0x002 8) 1 0) ∧
    ((∀ n ∈ sources .frameParse ++ destinations .frameParse,
        InDmem (region (region board 2 0x10 4) 3 0x13 4) n) ∧
      (2 : Fin 8) ≠ 3 ∧ ¬ Apart (region (region board 2 0x10 4) 3 0x13 4) 2 3) := by
  refine ⟨⟨by decide, by unfold InDmem; decide +kernel⟩, ⟨by unfold InDmem; decide +kernel, fun h => ?_⟩,
    by unfold InDmem; decide +kernel, by decide, fun h => ?_⟩
  · exact h 2 ⟨by unfold InRegion; decide +kernel, by unfold InRegion; decide +kernel⟩
  · exact h 0x13 ⟨by unfold InRegion; decide +kernel, by unfold InRegion; decide +kernel⟩

theorem witness_LengthChecksEndTheCommand :
    (OperandsOk (pair [1] 7) (.hash 8) ∧ (pair [1] 7).regionLen 1 < (8 : Byte).toNat) ∧
    (OperandsOk (pair [1] 9) .keyid ∧ (pair [1] 9).regionLen 1 < 10) ∧
    (OperandsOk (pair [1] 11) (.aeadSeal 0) ∧ (pair [1] 11).regionLen 1 ≠ 12) ∧
    (OperandsOk (aeadBoard 32 [0x41]) (.aeadSeal 32) ∧ (aeadBoard 32 [0x41]).regionLen 1 = 12 ∧
      (aeadBoard 32 [0x41]).regionLen 4 < (aeadBoard 32 [0x41]).regionLen 3 + (32 : Byte).toNat) ∧
    (OperandsOk (pair [1] 13) (.aeadOpen 0) ∧ (pair [1] 13).regionLen 1 ≠ 12) ∧
    (OperandsOk (aeadBoard 0 [0x41]) (.aeadOpen 0) ∧ (aeadBoard 0 [0x41]).regionLen 1 = 12 ∧
      (aeadBoard 0 [0x41]).regionLen 4 + (0 : Byte).toNat < (aeadBoard 0 [0x41]).regionLen 3) ∧
    (OperandsOk (pair [1] 1) .b85Enc ∧ (pair [1] 1).regionLen 1 < encodedLength ((pair [1] 1).regionLen 0)) :=
  ⟨⟨ok_of_check (by decide +kernel), by decide +kernel⟩, ⟨ok_of_check (by decide +kernel), by decide +kernel⟩,
    ⟨ok_of_check (by decide +kernel), by decide +kernel⟩, ⟨ok_of_check (by decide +kernel), by decide +kernel⟩,
    ⟨ok_of_check (by decide +kernel), by decide +kernel⟩, ⟨ok_of_check (by decide +kernel), by decide +kernel⟩,
    ok_of_check (by decide +kernel), by decide +kernel⟩

theorem witness_FramerChecksInOrder :
    (OperandsOk (aadBoard [0] 22) .frameAad ∧ Holds (aadBoard [0] 22) 0 [0] ∧ Holds (aadBoard [0] 22) 1 scopeRef ∧
      composeAad [0] scopeRef = none) ∧
    (OperandsOk (aadBoard [] 21) .frameAad ∧ Holds (aadBoard [] 21) 0 [] ∧ Holds (aadBoard [] 21) 1 scopeRef ∧
      (aadBoard [] 21).regionLen 2 < headerRef.length) ∧
    (OperandsOk (sealBoard a40 (List.replicate 11 0) 99) .frameSeal ∧
      (sealBoard a40 (List.replicate 11 0) 99).regionLen 3 ≠ 12) ∧
    (OperandsOk (src (sealBoard a40 z0 99) 1 [0]) .frameSeal ∧ Holds (src (sealBoard a40 z0 99) 1 [0]) 1 [0] ∧
      Holds (src (sealBoard a40 z0 99) 1 [0]) 2 scopeRef ∧ (src (sealBoard a40 z0 99) 1 [0]).regionLen 3 = 12) ∧
    ((OperandsOk (sealBoard a40 z0 98) .frameSeal ∧ Holds (sealBoard a40 z0 98) 0 a40 ∧ Holds (sealBoard a40 z0 98) 1 [] ∧
      Holds (sealBoard a40 z0 98) 2 scopeRef ∧ Holds (sealBoard a40 z0 98) 3 z0 ∧ Holds (sealBoard a40 z0 98) 4 hi) ∧
      (sealBoard a40 z0 98).regionLen 3 = 12 ∧ composeAad [] scopeRef = some headerRef ∧
      (sealBoard a40 z0 98).regionLen 5 <
        10 + 1 + 15 + 1 + encodedLength headerRef.length + 1 + encodedLength ((sealBoard a40 z0 98).regionLen 4 + 32)) ∧
    ((OperandsOk (sealBoard [] z0 99) .frameSeal ∧ Holds (sealBoard [] z0 99) 0 [] ∧ Holds (sealBoard [] z0 99) 1 [] ∧
      Holds (sealBoard [] z0 99) 2 scopeRef ∧ Holds (sealBoard [] z0 99) 3 z0 ∧ Holds (sealBoard [] z0 99) 4 hi) ∧
      10 + 1 + 15 + 1 + encodedLength headerRef.length + 1 + encodedLength ((sealBoard [] z0 99).regionLen 4 + 32) ≤
        (sealBoard [] z0 99).regionLen 5 ∧
      loadKeyring (sealBoard [] z0 99).params [] = .error .noUsableKeys) :=
  ⟨⟨ok_of_check (by decide +kernel), holds_of_check (by decide +kernel), holds_of_check (by decide +kernel), by decide⟩,
    ⟨ok_of_check (by decide +kernel), holds_of_check (by decide +kernel), holds_of_check (by decide +kernel),
      by decide +kernel⟩,
    ⟨ok_of_check (by decide +kernel), by decide +kernel⟩,
    ⟨ok_of_check (by decide +kernel), holds_of_check (by decide +kernel), holds_of_check (by decide +kernel),
      by decide +kernel⟩,
    ⟨sealBoard_ok _ _ (by decide +kernel), by decide +kernel, test_header_field.1, by decide +kernel⟩,
    sealBoard_ok _ _ (by decide +kernel), by decide +kernel, rfl⟩

theorem witness_FailedCommandsWriteNothing :
    exec .b85Dec (pair [0x61] 4) = .next (errorEnd (pair [0x61] 4) .invalidEncoding) ∧
    (errorEnd (pair [0x61] 4) .invalidEncoding).ecode ≠ 0 ∧
    ¬ (Instr.b85Dec = .frameParse ∧ (errorEnd (pair [0x61] 4) .invalidEncoding).ecode = errorCode .authenticationFailure) :=
  ⟨rfl, by decide, by decide⟩

theorem witness_OnlyDestinationsAreWritten : ∃ t, exec .b85Enc (pair [0] 4) = .next t ∧
    t.dmem.read 0x101 ≠ (pair [0] 4).dmem.read 0x101 :=
  ⟨_, rfl, by decide +kernel⟩

theorem witness_HighLevelCommandsScrub : ∃ t u, exec .nop board = .next t ∧ exec .keyid (pair [1] 9) = .next u ∧
    highLevel .keyid = true := ⟨_, _, rfl, rfl, rfl⟩

theorem witness_KeyringChangesOnlyByItsCommands :
    (∃ t, step (pending 0x42 (withRing board)) = .next t ∧ t.keyring ≠ (withRing board).keyring) ∧
    (∃ t, exec .frameSeal (withRing (sealBoard [] z0 99)) = .next t ∧ t.keyring = Keyring.empty) ∧
    ∃ t, exec .frameParse (withRing (parseBoard [] [] 0 0)) = .next t ∧ t.keyring = ringA :=
  ⟨⟨_, rfl, by decide⟩, ⟨_, rfl, rfl⟩, _, rfl, rfl⟩

theorem witness_EveryStepKeepsTheInvariant : Inv board ∧ ∃ t, step (pending 0x07 board) = .next t := by
  refine ⟨⟨⟨rfl, fun a b h => ?_⟩, spongeOk_init, ⟨by decide, by decide, fun e he => ?_, .inr ⟨rfl, rfl⟩⟩, .inl rfl,
    fun h => absurd rfl h, fun h => absurd rfl h⟩, _, rfl⟩
  · cases h
  · exact absurd he (by simp [board, State.resetWith, Keyring.empty])

end Sys2Proof.Tests
end

section
/-! PROOFS. The procedures of the permutation sponge keep its invariants (R41). -/

namespace Sys2Proof.Machine

/-- A swap of two entries reads S through the transposition of their indices. -/
theorem swap_at_eq_comp (g : Sponge) (p q : Byte) : (g.swap p q).at = g.at ∘ Equiv.swap p q := by
  funext r
  simp only [swap_at, Function.comp_apply, Equiv.swap_apply_def]
  split_ifs with hq hp
  · rw [← hp, hq]
  all_goals rfl

theorem SpongeOk.a_le {g : Sponge} (h : SpongeOk g) : g.a.toNat ≤ 128 := by
  obtain ⟨-, -, ha⟩ := h
  exact ha

/-- Only S, w and a matter to the invariants. -/
theorem SpongeOk.of_fields {g h : Sponge} (hg : SpongeOk g) (hS : h.S = g.S) (hw : h.w = g.w) (ha : h.a.toNat ≤ 128) :
    SpongeOk h := by
  obtain ⟨hbij, hodd, -⟩ := hg
  have hat : h.at = g.at := funext fun p => congrArg (boxGet · p) hS
  exact ⟨hat ▸ hbij, hw ▸ hodd, ha⟩

theorem SpongeOk.emptied {g : Sponge} (h : SpongeOk g) : SpongeOk { g with a := 0 } :=
  h.of_fields rfl rfl (Nat.zero_le _)

theorem SpongeOk.init : SpongeOk Sponge.init := by
  have hat : Sponge.init.at = id := funext at_init
  exact ⟨hat ▸ Function.bijective_id, by decide, by decide⟩

theorem SpongeOk.swap {g : Sponge} (h : SpongeOk g) (p q : Byte) : SpongeOk (g.swap p q) := by
  obtain ⟨hbij, hodd, ha⟩ := h
  exact ⟨swap_at_eq_comp g p q ▸ hbij.comp (Equiv.bijective _), hodd, ha⟩

theorem SpongeOk.update {g : Sponge} (h : SpongeOk g) : SpongeOk (update g) :=
  SpongeOk.swap (h.of_fields rfl rfl h.a_le) _ _

theorem SpongeOk.output {g : Sponge} (h : SpongeOk g) : SpongeOk (output g) :=
  h.of_fields rfl rfl h.a_le

theorem SpongeOk.updates {g : Sponge} (h : SpongeOk g) (r : Nat) : SpongeOk (updates r g) := by
  induction r generalizing g with
  | zero => exact h
  | succ r ih => exact ih h.update

theorem SpongeOk.whip {g : Sponge} (h : SpongeOk g) (r : Nat) : SpongeOk (whip r g) := by
  obtain ⟨hbij, hodd, ha⟩ := h.updates r
  refine ⟨hbij, ?_, ha⟩
  have hw : (Machine.whip r g).w.toNat = ((Machine.updates r g).w.toNat + 2) % 256 := BitVec.toNat_add _ _
  omega

theorem SpongeOk.crushAt {g : Sponge} (h : SpongeOk g) (v : Nat) : SpongeOk (crushAt g v) := by
  rcases crushAt_cases g v with hv | hv <;> rw [hv]
  · exact h
  · exact h.swap _ _

theorem SpongeOk.crush {g : Sponge} (h : SpongeOk g) : SpongeOk (crush g) :=
  List.foldlRecOn (motive := SpongeOk) _ _ h fun _ hb v _ => hb.crushAt v

theorem SpongeOk.shuffle {g : Sponge} (h : SpongeOk g) : SpongeOk (shuffle g) := by
  rw [shuffle_eq]
  exact ((h.whip 512).crush.whip 512).crush.whip 512 |>.emptied

/-- The shuffle at `a = 128` that absorbing starts with (R158, R161) keeps the invariants and leaves a free
position. -/
theorem SpongeOk.shuffle_if_full {g : Sponge} (h : SpongeOk g) :
    SpongeOk (if g.a = 128 then Machine.shuffle g else g) ∧
      (if g.a = 128 then Machine.shuffle g else g).a.toNat < 128 := by
  split
  · rw [shuffle_a]
    exact ⟨h.shuffle, by decide⟩
  · next hne =>
    have ha : g.a.toNat ≠ 128 := fun e => hne (BitVec.eq_of_toNat_eq e)
    exact ⟨h, lt_of_le_of_ne h.a_le ha⟩

/-- One position more, where one is free. -/
theorem succ_le_of_lt {a : Byte} (h : a.toNat < 128) : (a + 1).toNat ≤ 128 := by
  bv_omega

theorem SpongeOk.absorbNibble {g : Sponge} (h : SpongeOk g) (x : Byte) : SpongeOk (absorbNibble g x) := by
  obtain ⟨hf, ha⟩ := h.shuffle_if_full
  exact (hf.swap _ _).of_fields rfl rfl (succ_le_of_lt ha)

theorem SpongeOk.absorbByte {g : Sponge} (h : SpongeOk g) (b : Byte) : SpongeOk (absorbByte g b) :=
  (h.absorbNibble _).absorbNibble _

theorem SpongeOk.absorb {g : Sponge} (h : SpongeOk g) (bs : Bytes) : SpongeOk (absorb g bs) :=
  List.foldlRecOn (motive := SpongeOk) _ _ h fun _ hb b _ => hb.absorbByte b

theorem SpongeOk.absorbStop {g : Sponge} (h : SpongeOk g) : SpongeOk (absorbStop g) := by
  obtain ⟨hf, ha⟩ := h.shuffle_if_full
  exact hf.of_fields rfl rfl (succ_le_of_lt ha)

theorem SpongeOk.settle {g : Sponge} (h : SpongeOk g) : SpongeOk (settle g) := by
  rw [settle_eq]
  split
  · exact h
  · exact h.shuffle

theorem SpongeOk.drip {g : Sponge} (h : SpongeOk g) : SpongeOk (drip g).2 :=
  h.settle.update.output

theorem SpongeOk.drips {g : Sponge} (h : SpongeOk g) (r : Nat) : SpongeOk (drips r g).2 := by
  induction r generalizing g with
  | zero => exact h
  | succ r ih => exact ih h.drip

theorem SpongeOk.squeeze {g : Sponge} (h : SpongeOk g) (r : Nat) : SpongeOk (squeeze r g).2 :=
  h.settle.drips r

end Sys2Proof.Machine
end

section
/-! PROOFS. The lengths of what the commands write: codec texts, digests, sealed messages and tokens. -/

namespace Sys2Proof.Machine

@[simp] theorem bytesBe_length (n v : Nat) : (bytesBe n v).length = n := by
  induction n generalizing v with
  | zero => rfl
  | succ n ih => rw [bytesBe, List.length_cons, ih]

/-- A group of 1 to 4 bytes gives one symbol more than it has bytes (R251). -/
theorem encodeGroup_length (v : Fin 6) (g : Bytes) : (encodeGroup v g).length = min (g.length + 1) 5 := by
  rw [encodeGroup, List.length_map, List.length_take]
  rfl

@[simp] theorem enc85_length (v : Fin 6) (x : Bytes) : (enc85 v x).length = encodedLength x.length := by
  induction x using enc85.induct with
  | case1 a b c d rest ih =>
    rw [enc85, List.length_append, encodeGroup_length, ih]
    simp only [encodedLength, List.length_cons, List.length_nil]
    split_ifs <;> omega
  | case2 => rfl
  | case3 tail hlong hne =>
    match tail, hlong, hne with
    | [a], _, _ => simp [enc85, encodeGroup_length, encodedLength]
    | [a, b], _, _ => simp [enc85, encodeGroup_length, encodedLength]
    | [a, b, c], _, _ => simp [enc85, encodeGroup_length, encodedLength]
    | a :: b :: c :: d :: rest, hlong, _ => exact absurd rfl (hlong a b c d rest)

/-- A group of 2 to 5 symbols gives one byte less than it has symbols (R253). -/
theorem decodeGroup_length {v : Fin 6} {q g : Bytes} (h : decodeGroup v q = some g) :
    g.length = min (q.length - 1) 4 := by
  unfold decodeGroup at h
  split at h
  · cases h
  · dsimp only at h
    split at h
    · cases h
    · cases h
      simp

theorem decodeGroups_length {v : Fin 6} {t y : Bytes} (ht : t.length % 5 ≠ 1) (h : decodeGroups v t = some y) :
    y.length = decodedLength t.length := by
  induction t using decodeGroups.induct (v := v) generalizing y with
  | case1 a b c d e rest hg => rw [decodeGroups, hg] at h; cases h
  | case2 a b c d e rest g hg ih =>
    simp only [List.length_cons] at ht
    rw [decodeGroups, hg] at h
    obtain ⟨z, hz, rfl⟩ := Option.map_eq_some_iff.1 h
    rw [List.length_append, decodeGroup_length hg, ih (by omega) hz]
    simp only [decodedLength, List.length_cons, List.length_nil]
    split_ifs <;> omega
  | case3 => cases h; rfl
  | case4 tail hlong hne =>
    match tail, hlong, hne, ht with
    | [a, b], _, _, _ => simpa [decodedLength] using decodeGroup_length h
    | [a, b, c], _, _, _ => simpa [decodedLength] using decodeGroup_length h
    | [a, b, c, d], _, _, _ => simpa [decodedLength] using decodeGroup_length h
    | a :: b :: c :: d :: e :: rest, hlong, _, _ => exact absurd rfl (hlong a b c d e rest)

/-- A text that decodes has no dangling symbol, and gives as many bytes as R254 says. -/
theorem dec85_length {v : Fin 6} {t y : Bytes} (h : dec85 v t = some y) :
    t.length % 5 ≠ 1 ∧ y.length = decodedLength t.length := by
  unfold dec85 at h
  split at h
  · cases h
  · next ht => exact ⟨ht, decodeGroups_length ht h⟩

/-- A text with a symbol in it decodes to at least one byte, if at all. -/
theorem dec85_pos {v : Fin 6} {t y : Bytes} (h : dec85 v t = some y) (hne : t ≠ []) : 1 ≤ y.length := by
  obtain ⟨hmod, hy⟩ := dec85_length h
  have ht := List.length_pos_of_ne_nil hne
  rw [hy, decodedLength]
  split_ifs <;> omega

@[simp] theorem spritzHash_length (m : Bytes) (r : Byte) : (spritzHash m r).length = r.toNat := squeeze_length _ _

@[simp] theorem keyIdDigest_length (k : Bytes) : (keyIdDigest k).length = 8 := spritzHash_length k 8

@[simp] theorem keyIdText_length (v : Fin 6) (k : Bytes) : (keyIdText v k).length = Config.keyIdTextBytes := by
  rw [keyIdText, enc85_length, keyIdDigest_length]
  rfl

@[simp] theorem sealCore_length (k z h m : Bytes) (r : Byte) : (sealCore k z h m r).length = m.length + r.toNat := by
  obtain ⟨c, -, hc, hs⟩ := sealCore_parts k z h m r
  rw [hs, List.length_append, hc, aeadTag_length]

/-- What opens is as long as the input without its tag (R212). -/
theorem openCore_length {k z h x m : Bytes} {r : Byte} (ho : openCore k z h x r = some m) :
    m.length + r.toNat = x.length := by
  rcases openCore_cases k z h x r with ⟨-, hn⟩ | ⟨c, t, rfl, ht, ⟨-, hn⟩ | ⟨-, hs⟩⟩
  · rw [hn] at ho; cases ho
  · rw [hn] at ho; cases ho
  · rw [hs] at ho
    cases ho
    simp [ht]

/-- A token is as long as R311 says, for a current entry with an 8-byte id and a nonce of 12 bytes. -/
theorem composeToken_length (v : Fin 6) {kr : Keyring} {z : Bytes} (h p : Bytes) (hid : kr.current.id.length = 8)
    (hz : z.length = Config.nonceBytes) : (composeToken v kr z h p).length = tokenLength h.length p.length := by
  simp only [composeToken, tokenLength, List.length_append, enc85_length, sealCore_length, hid, hz,
    List.length_singleton]
  rfl

end Sys2Proof.Machine
end

section
/-! PROOFS. A load that succeeds gives a well-formed keyring (R42), and no operation on key material, keyrings or
tokens raises the host-only error kind (R343). -/

namespace Sys2Proof.Machine

theorem KeyringOk.empty (p : Params) : KeyringOk p Keyring.empty :=
  ⟨Nat.zero_le _, List.nodup_nil, fun _ he => absurd he List.not_mem_nil, .inr ⟨rfl, rfl⟩⟩

/-- The current entry of a store that has one is one of its entries, so its id has 8 bytes (R42, R275). -/
theorem KeyringOk.current_id_length {p : Params} {kr : Keyring} (h : KeyringOk p kr)
    (hcur : kr.cur < kr.entries.length) : kr.current.id.length = 8 := by
  obtain ⟨-, -, hent, -⟩ := h
  have hmem : kr.current ∈ kr.entries := by
    rw [Keyring.current, List.getD_eq_getElem _ _ hcur]
    exact List.getElem_mem hcur
  exact (hent _ hmem).1

/-- Registering a key of an admitted length under its digest keeps the store well-formed, with the entry
registered as the current one (R274, R275). -/
theorem registerKey_keeps_keyringOk {p : Params} {es es' : List KeyEntry} {c n : Nat} {new : KeyEntry}
    (hok : KeyringOk p { entries := es, cur := c }) (hid : new.id = keyIdDigest new.key) (hpos : 1 ≤ new.key.length)
    (hmax : new.key.length ≤ p.keyMaxBytes) (h : registerKey p.krMaxEntries es new = .ok (es', n)) :
    KeyringOk p { entries := es', cur := n } ∧ n < es'.length := by
  obtain ⟨hcap, hnodup, hent, -⟩ := hok
  dsimp only at hcap hnodup hent
  have hlen : new.id.length = 8 := by rw [hid, keyIdDigest_length]
  rcases registerKey_cases p.krMaxEntries es new with
    ⟨m, hm, hsame, hr⟩ | ⟨-, -, hr⟩ | ⟨hfresh, hroom, hr⟩ <;> rw [hr] at h <;> cases h
  · have hids : (es.set n new).map KeyEntry.id = es.map KeyEntry.id := by
      rw [List.map_set, ← hsame, ← List.getElem_map KeyEntry.id (h := by simpa using hm), List.set_getElem_self]
    have hn : n < (es.set n new).length := by simpa using hm
    refine ⟨⟨by simpa using hcap, hids ▸ hnodup, fun e he => ?_, .inl hn⟩, hn⟩
    rcases List.mem_or_eq_of_mem_set he with he | rfl
    · exact hent e he
    · exact ⟨hlen, hid, hpos, hmax⟩
  · have hn : es.length < (es ++ [new]).length := by simp
    refine ⟨⟨?_, ?_, fun e he => ?_, .inl hn⟩, hn⟩
    · rw [List.length_append, List.length_singleton]
      omega
    · rw [List.map_append, List.map_singleton, List.nodup_append]
      exact ⟨hnodup, List.nodup_singleton _, by simpa using hfresh⟩
    · rcases List.mem_append.1 he with he | he
      · exact hent e he
      · rw [List.mem_singleton.1 he]
        exact ⟨hlen, hid, hpos, hmax⟩

theorem firstToken_ne_nil {line t : Bytes} (h : firstToken line = some t) : t ≠ [] := by
  unfold firstToken at h
  split at h
  · cases h
  · next hne => cases h; exact hne

/-- Every run of lines keeps the store well-formed; `cur.getD 0` is KR_CUR so far (R270). -/
theorem loadLines_keeps_keyringOk {p : Params} {ls : List Bytes} {es es' : List KeyEntry} {cur cur' : Option Nat}
    (hok : KeyringOk p { entries := es, cur := cur.getD 0 }) (hcur : ∀ n ∈ cur, n < es.length)
    (h : loadLines p ls es cur = .ok (es', cur')) :
    KeyringOk p { entries := es', cur := cur'.getD 0 } ∧ ∀ n ∈ cur', n < es'.length := by
  induction ls generalizing es cur with
  | nil => cases h; exact ⟨hok, hcur⟩
  | cons line rest ih =>
    rw [loadLines] at h
    split at h
    · exact ih hok hcur h
    · next t ht =>
      rcases tokenKey_cases p t with ⟨-, hk⟩ | ⟨key, hd, ⟨-, hk⟩ | ⟨hmax, hk⟩⟩ <;> rw [hk] at h
      · cases h
      · cases h
      · dsimp only at h
        split at h
        · cases h
        · next r hr =>
          obtain ⟨hok', hlt⟩ := registerKey_keeps_keyringOk hok rfl (dec85_pos hd (firstToken_ne_nil ht)) hmax hr
          exact ih hok' (fun n hn => Option.mem_some.1 hn ▸ hlt) h

theorem loadLines_error {p : Params} {ls : List Bytes} {es : List KeyEntry} {cur : Option Nat} {e : ErrorKind}
    (h : loadLines p ls es cur = .error e) : e = .invalidEncoding ∨ e = .capacityExceeded := by
  induction ls generalizing es cur with
  | nil => cases h
  | cons line rest ih =>
    rw [loadLines] at h
    split at h
    · exact ih h
    · next t ht =>
      rcases tokenKey_cases p t with ⟨-, hk⟩ | ⟨key, -, ⟨-, hk⟩ | ⟨-, hk⟩⟩ <;> rw [hk] at h
      · cases h; exact .inl rfl
      · cases h; exact .inr rfl
      · dsimp only at h
        rcases registerKey_cases p.krMaxEntries es { id := keyIdDigest key, key := key } with
          ⟨n, -, -, hr⟩ | ⟨-, -, hr⟩ | ⟨-, -, hr⟩ <;> rw [hr] at h
        · exact ih h
        · cases h; exact .inr rfl
        · exact ih h

/-- A loaded keyring is well-formed and has a current entry (R42, R275). -/
theorem loadKeyring_ok {p : Params} {m : Bytes} {kr : Keyring} (h : loadKeyring p m = .ok kr) :
    KeyringOk p kr ∧ kr.cur < kr.entries.length := by
  rcases loadKeyring_cases p m with ⟨e, -, hl⟩ | ⟨es, -, hl⟩ | ⟨es, n, hlines, hl⟩ <;> rw [hl] at h <;> cases h
  obtain ⟨hok, hcur⟩ := loadLines_keeps_keyringOk (cur := none) (KeyringOk.empty p) (fun n hn => by cases hn) hlines
  exact ⟨hok, hcur n rfl⟩

/-- The error kinds that the engine raises: all but the host-only one (R343). -/
def EngineError (e : ErrorKind) : Prop := e ≠ .keyMaterialUnreadable

theorem loadKeyring_error {p : Params} {m : Bytes} {e : ErrorKind} (h : loadKeyring p m = .error e) :
    EngineError e := by
  rcases loadKeyring_cases p m with ⟨e', hlines, hl⟩ | ⟨es, -, hl⟩ | ⟨es, n, -, hl⟩ <;> rw [hl] at h <;> cases h
  · rcases loadLines_error hlines with rfl | rfl <;> exact nofun
  · exact nofun

theorem lookupKey_error {v : Fin 6} {es : List KeyEntry} {t : Bytes} {e : ErrorKind}
    (h : lookupKey v es t = .error e) : EngineError e := by
  rcases lookupKey_cases v es t with ⟨-, hl⟩ | ⟨d, -, ⟨-, hl⟩ | ⟨n, hn, -, -, -, hl⟩⟩ <;> rw [hl] at h <;> cases h
  · exact nofun
  · exact nofun

theorem parseToken_error {p : Params} {m t : Bytes} {e : ErrorKind} (h : parseToken p m t = .error e) :
    EngineError e := by
  rcases parseToken_cases p m t with ⟨-, hp⟩ | ⟨f1, f2, f3, f4, -, ⟨e', hl, hp⟩ | ⟨kr, -, hp⟩⟩ <;> rw [hp] at h
  · cases h; exact nofun
  · cases h; exact loadKeyring_error hl
  · rcases parseFields_cases p.b85Variant kr f1 f2 f3 f4 with
      ⟨e', hl, hf⟩ | ⟨n, key, -, ⟨-, hf⟩ | ⟨z, hd, x, -, -, -, ⟨-, hf⟩ | ⟨-, hf⟩⟩⟩ <;> rw [hf] at h <;> cases h
    · exact lookupKey_error hl
    · exact nofun
    · exact nofun

end Sys2Proof.Machine
end

section
/-! PROOFS. All the ways a command can end, stated once for the 20 commands (R345, R347 to R349): a command answers a
next state in every state, and that state is one of five forms. -/

namespace Sys2Proof.Machine

/-- The writes of an outcome go to destinations of the command that passed their region check, and each has room
there (R84, R86). -/
def Fits (s : State) (i : Instr) (ws : List (Fin 8 × Bytes)) : Prop :=
  ∀ w ∈ ws, w.1 ∈ destinations i ∧ InDmem s w.1 ∧ w.2.length ≤ s.regionLen w.1

theorem Fits.nil (s : State) (i : Instr) : Fits s i [] := fun _ hw => absurd hw List.not_mem_nil

theorem Fits.cons {s : State} {i : Instr} {n : Fin 8} {bs : Bytes} {ws : List (Fin 8 × Bytes)} (ok : OperandsOk s i)
    (hn : n ∈ destinations i) (hlen : bs.length ≤ s.regionLen n) (hws : Fits s i ws) : Fits s i ((n, bs) :: ws) := by
  intro w hw
  rcases List.mem_cons.1 hw with rfl | hw
  · exact ⟨hn, ok.1 _ (List.mem_append_right _ hn), hlen⟩
  · exact hws w hw

/-- The one write of most commands. -/
theorem Fits.one {s : State} {i : Instr} {n : Fin 8} {bs : Bytes} (ok : OperandsOk s i) (hn : n ∈ destinations i)
    (hlen : bs.length ≤ s.regionLen n) : Fits s i [(n, bs)] :=
  .cons ok hn hlen (.nil s i)

/-- The Spritz state that a success leaves: the primitive commands move it (R170 to R176), the high-level ones scrub
it (R348), the others leave it. -/
def spongeAfter (i : Instr) (s : State) : Sponge :=
  match i with
  | .spInit => Sponge.init
  | .spAbsorb => absorb s.sponge (s.region 0)
  | .spAbsorbImm b => absorbByte s.sponge b
  | .spAbsorbStop => absorbStop s.sponge
  | .spShuffle => shuffle s.sponge
  | .spSqueeze => (squeeze (s.regionLen 0) s.sponge).2
  | .spDrip => (drip s.sponge).2
  | .hash _ | .keyid | .aeadSeal _ | .aeadOpen _ | .krLoad | .frameSeal | .frameParse => Sponge.init
  | .nop | .b85Enc | .b85Dec | .krLookup | .krClear | .frameAad => s.sponge

/-- The keyring stores that a success may leave (R278, R280, R314). -/
def KeyringAfter (i : Instr) (s : State) (k : Keyring) : Prop :=
  match i with
  | .krLoad => loadKeyring s.params (s.region 0) = .ok k
  | .krClear | .frameSeal | .frameParse => k = Keyring.empty
  | _ => k = s.keyring

/-- `t` ends the command `i` begun in `s`. Draws are spent on every path; the five forms say what else changes. -/
inductive Ends (s : State) : Instr → State → Prop where
  /-- A pre-check failed: nothing but the status and the results changes (R347). -/
  | refused {i : Instr} {e : ErrorKind} (d : Nat) (he : EngineError e) : Ends s i (State.raise { s with draws := d } e)
  /-- AEAD_OPEN's tag differed or its input was short: scrubbed, and no byte written (R214, R348). -/
  | authFailed (r : Byte) (d : Nat) :
    Ends s (.aeadOpen r) (State.raise { s with draws := d } .authenticationFailure).scrub
  /-- The load, or what a load precedes, failed: the store is empty, the Spritz state scrubbed (R278, R314, R348). -/
  | loadFailed {i : Instr} {e : ErrorKind} (d : Nat) (hi : i = .krLoad ∨ i = .frameSeal ∨ i = .frameParse)
    (he : EngineError e) : Ends s i ((State.clearKeyring { s with draws := d }).raise e).scrub
  /-- FRAME_PARSE's tag differed: as after a failed load, but the header and its length are returned (R322). -/
  | headerReturned (h : Bytes) (d : Nat) (hfit : Fits s .frameParse [(2, h)]) :
    Ends s .frameParse
      (((State.clearKeyring { s with draws := d }).commit [(2, h)]).finish (errorCode .authenticationFailure)
        (BitVec.ofNat 32 h.length) 0).scrub
  /-- Success: the writes, the Spritz state and the store of the command (R349). -/
  | succeeded {i : Instr} {k : Keyring} {ws : List (Fin 8 × Bytes)} {r0 r1 : Word} (d : Nat) (hfit : Fits s i ws)
    (hk : KeyringAfter i s k) :
    Ends s i (State.complete { s with sponge := spongeAfter i s, keyring := k, draws := d } r0 r1 ws)

/-- The command `i` begun in `s` answers a next state, which is one of the ways it can end. -/
def Completes (s : State) (i : Instr) (o : StepOutcome) : Prop := ∃ t, o = .next t ∧ Ends s i t

theorem Completes.next {s : State} {i : Instr} {t : State} (h : Ends s i t) : Completes s i (.next t) := ⟨t, rfl, h⟩

theorem UpToDraws.refl (s : State) : UpToDraws s s := rfl

theorem UpToDraws.eq {t u : State} (h : UpToDraws t u) : t = { u with draws := t.draws } := h

/-- The reads of operands, one after the other, spend draws and change nothing else (U1). -/
theorem UpToDraws.afterRead {u s : State} (h : UpToDraws u s) (n : Fin 8) : UpToDraws (u.afterRead n) s := by
  rw [h.eq]
  rfl

/-- A command over operands completes when its work, done on operands in order, does (R346, R347). -/
theorem withOperands_completes {s : State} {i : Instr} {body : StepOutcome}
    (h : OperandsOk s i → Completes s i body) :
    Completes s i (withOperands s (sources i) (destinations i) body) := by
  rcases withOperands_cases s i body with ⟨ok, hw⟩ | ⟨e, he, hw⟩ <;> rw [hw]
  · exact h ok
  · exact .next (.refused s.draws (by rcases he with rfl | rfl <;> exact nofun))

end Sys2Proof.Machine
end

section
/-! PROOFS. Each command completes, in the order of the opcode map (R115). -/

namespace Sys2Proof.Machine

variable (s : State)

theorem nop_completes : Completes s .nop (exec .nop s) :=
  .next (.succeeded s.draws (.nil _ _) rfl)

theorem spInit_completes : Completes s .spInit (exec .spInit s) :=
  .next (.succeeded s.draws (.nil _ _) rfl)

theorem spAbsorb_completes : Completes s .spAbsorb (exec .spAbsorb s) :=
  withOperands_completes (i := .spAbsorb) fun _ => .next (.succeeded (s.afterRead 0).draws (.nil _ _) rfl)

theorem spAbsorbImm_completes (b : Byte) : Completes s (.spAbsorbImm b) (exec (.spAbsorbImm b) s) :=
  .next (.succeeded s.draws (.nil _ _) rfl)

theorem spAbsorbStop_completes : Completes s .spAbsorbStop (exec .spAbsorbStop s) :=
  .next (.succeeded s.draws (.nil _ _) rfl)

theorem spShuffle_completes : Completes s .spShuffle (exec .spShuffle s) :=
  .next (.succeeded s.draws (.nil _ _) rfl)

theorem spSqueeze_completes : Completes s .spSqueeze (exec .spSqueeze s) :=
  withOperands_completes (i := .spSqueeze) fun ok =>
    .next (.succeeded s.draws (.one ok (.head _) (squeeze_length _ _).le) rfl)

theorem spDrip_completes : Completes s .spDrip (exec .spDrip s) :=
  .next (.succeeded s.draws (.nil _ _) rfl)

theorem hash_completes (r : Byte) : Completes s (.hash r) (exec (.hash r) s) :=
  withOperands_completes (i := .hash r) fun ok => by
    split
    · exact .next (.refused s.draws nofun)
    · next hroom =>
      have hfit := Fits.one (bs := spritzHash (s.region 0) r) ok (.head _)
        (by rw [spritzHash_length]; exact Nat.le_of_not_gt hroom)
      exact .next (.succeeded (s.afterRead 0).draws hfit rfl)

theorem keyid_completes : Completes s .keyid (exec .keyid s) :=
  withOperands_completes (i := .keyid) fun ok => by
    split
    · exact .next (.refused s.draws nofun)
    · next hroom =>
      have hfit := Fits.one (bs := keyIdText s.params.b85Variant (s.region 0)) ok (.head _)
        (by rw [keyIdText_length]; exact Nat.le_of_not_lt hroom)
      exact .next (.succeeded (s.afterRead 0).draws hfit rfl)

theorem aeadSeal_completes (r : Byte) : Completes s (.aeadSeal r) (exec (.aeadSeal r) s) :=
  withOperands_completes (i := .aeadSeal r) fun ok => by
    split
    · exact .next (.refused s.draws nofun)
    · split
      · exact .next (.refused s.draws nofun)
      · next hroom =>
        dsimp only
        have hread := (UpToDraws.refl s).afterRead 0 |>.afterRead 1 |>.afterRead 2 |>.afterRead 3
        rw [hread.eq]
        refine .next (.succeeded _ (.one ok (.head _) ?_) rfl)
        rw [sealCore_length, region_length]
        exact Nat.le_of_not_gt hroom

theorem aeadOpen_completes (r : Byte) : Completes s (.aeadOpen r) (exec (.aeadOpen r) s) :=
  withOperands_completes (i := .aeadOpen r) fun ok => by
    split
    · exact .next (.refused s.draws nofun)
    · split
      · exact .next (.refused s.draws nofun)
      · next hroom =>
        dsimp only
        have hread := (UpToDraws.refl s).afterRead 0 |>.afterRead 1 |>.afterRead 2 |>.afterRead 3
        rw [hread.eq]
        split
        · exact .next (.authFailed r _)
        · next m hm =>
          have hlen := openCore_length hm
          rw [region_length] at hlen
          simp only [afterRead_regionLen] at hlen
          exact .next (.succeeded _ (.one ok (.head _) (by omega)) rfl)

theorem b85Enc_completes : Completes s .b85Enc (exec .b85Enc s) :=
  withOperands_completes (i := .b85Enc) fun ok => by
    dsimp only
    split
    · exact .next (.refused s.draws nofun)
    · next hroom =>
      have hfit := Fits.one (bs := enc85 s.params.b85Variant (s.region 0)) ok (.head _)
        (by rw [enc85_length, region_length]; exact Nat.le_of_not_gt hroom)
      exact .next (.succeeded (s.afterRead 0).draws hfit rfl)

theorem b85Dec_completes : Completes s .b85Dec (exec .b85Dec s) :=
  withOperands_completes (i := .b85Dec) fun ok => by
    split
    · exact .next (.refused s.draws nofun)
    · dsimp only
      split
      · exact .next (.refused s.draws nofun)
      · next hroom =>
        split
        · exact .next (.refused (s.afterRead 0).draws nofun)
        · next y hy =>
          have hfit := Fits.one (bs := y) ok (.head _)
            (by rw [(dec85_length hy).2, region_length]; exact Nat.le_of_not_gt hroom)
          exact .next (.succeeded (s.afterRead 0).draws hfit rfl)

theorem krLoad_completes : Completes s .krLoad (exec .krLoad s) :=
  withOperands_completes (i := .krLoad) fun _ => by
    dsimp only
    split
    · next e he => exact .next (.loadFailed (s.afterRead 0).draws (.inl rfl) (loadKeyring_error he))
    · next kr hkr => exact .next (.succeeded (s.afterRead 0).draws (.nil _ _) hkr)

theorem krLookup_completes : Completes s .krLookup (exec .krLookup s) :=
  withOperands_completes (i := .krLookup) fun ok => by
    dsimp only
    split
    · next e he => exact .next (.refused (s.afterRead 0).draws (lookupKey_error he))
    · split
      · exact .next (.refused (s.afterRead 0).draws nofun)
      · next hroom =>
        exact .next (.succeeded (s.afterRead 0).draws (.one ok (.head _) (Nat.le_of_not_gt hroom)) rfl)

theorem krClear_completes : Completes s .krClear (exec .krClear s) :=
  .next (.succeeded s.draws (.nil _ _) rfl)

theorem frameAad_completes : Completes s .frameAad (exec .frameAad s) :=
  withOperands_completes (i := .frameAad) fun ok => by
    dsimp only
    split
    · exact .next (.refused ((s.afterRead 0).afterRead 1).draws nofun)
    · split
      · exact .next (.refused ((s.afterRead 0).afterRead 1).draws nofun)
      · next hroom =>
        exact .next (.succeeded ((s.afterRead 0).afterRead 1).draws (.one ok (.head _) (Nat.le_of_not_gt hroom))
          rfl)

theorem frameSeal_completes : Completes s .frameSeal (exec .frameSeal s) :=
  withOperands_completes (i := .frameSeal) fun ok => by
    split
    · exact .next (.refused s.draws nofun)
    · next hnonce =>
      dsimp only
      split
      · exact .next (.refused ((s.afterRead 1).afterRead 2).draws nofun)
      · next h hh =>
        split
        · exact .next (.refused ((s.afterRead 1).afterRead 2).draws nofun)
        · next hroom =>
          split
          · next e he => exact .next (.loadFailed _ (.inr (.inl rfl)) (loadKeyring_error he))
          · next kr hkr =>
            obtain ⟨hok, hcur⟩ := loadKeyring_ok hkr
            have hread := (UpToDraws.refl s).afterRead 1 |>.afterRead 2 |>.afterRead 0 |>.afterRead 3 |>.afterRead 4
            rw [hread.eq]
            refine .next (.succeeded _ (.one ok (.head _) ?_) rfl)
            rw [composeToken_length _ _ _ (hok.current_id_length hcur) (by simpa using hnonce), region_length]
            exact Nat.le_of_not_gt hroom

/-- The end of FRAME_PARSE on parsed parts, from a state that reading the operands has left (R321, R322). -/
theorem frameParseFinish_ends (d : Nat) (parts : TokenParts) (ok : OperandsOk s .frameParse) :
    Ends s .frameParse (frameParseFinish { s with draws := d } parts) := by
  unfold frameParseFinish
  dsimp only
  split
  · exact .loadFailed d (.inr (.inr rfl)) nofun
  · next hheader =>
    have hhead : Fits s .frameParse [(2, parts.header)] := .one ok (.head _) (Nat.le_of_not_gt hheader)
    split
    · exact .loadFailed d (.inr (.inr rfl)) nofun
    · next hplain =>
      split
      · exact .headerReturned _ d hhead
      · next m hm =>
        have hlen := openCore_length hm
        have hroom : m.length ≤ s.regionLen 3 := by
          change ¬ (_ ∧ _ > s.regionLen 3) at hplain
          omega
        exact .succeeded d (.cons ok (.head _) (Nat.le_of_not_gt hheader)
          (.one ok (.tail _ (.head _)) hroom)) rfl

theorem frameParse_completes : Completes s .frameParse (exec .frameParse s) :=
  withOperands_completes (i := .frameParse) fun ok => by
    dsimp only
    split
    · exact .next (.refused (s.afterRead 1).draws nofun)
    · split
      · next e he => exact .next (.loadFailed _ (.inr (.inr rfl)) (parseToken_error he))
      · next parts _ => exact .next (frameParseFinish_ends s _ parts ok)

/-- Every command completes, in one of the ways commands end. -/
theorem exec_completes (i : Instr) : Completes s i (exec i s) :=
  match i with
  | .nop => nop_completes s
  | .spInit => spInit_completes s
  | .spAbsorb => spAbsorb_completes s
  | .spAbsorbImm b => spAbsorbImm_completes s b
  | .spAbsorbStop => spAbsorbStop_completes s
  | .spShuffle => spShuffle_completes s
  | .spSqueeze => spSqueeze_completes s
  | .spDrip => spDrip_completes s
  | .hash r => hash_completes s r
  | .keyid => keyid_completes s
  | .aeadSeal r => aeadSeal_completes s r
  | .aeadOpen r => aeadOpen_completes s r
  | .b85Enc => b85Enc_completes s
  | .b85Dec => b85Dec_completes s
  | .krLoad => krLoad_completes s
  | .krLookup => krLookup_completes s
  | .krClear => krClear_completes s
  | .frameAad => frameAad_completes s
  | .frameSeal => frameSeal_completes s
  | .frameParse => frameParse_completes s

/-- All that a command can do, read off its answer. -/
theorem exec_ends {i : Instr} {s t : State} (h : exec i s = .next t) : Ends s i t := by
  obtain ⟨u, hu, hends⟩ := exec_completes s i
  rw [hu] at h
  cases h
  exact hends

end Sys2Proof.Machine
end

section
/-! PROOFS. Every step keeps the invariant of the machine: the engine's, by the ways a command ends; the host's, by its
access; and a reset (R10, R33, R34, R41, R42, R80, R112, R341). -/

namespace Sys2Proof.Machine

/-! ### DMEM -/

/-- A commit changes no byte outside what it writes (R86). -/
theorem commit_read_outside (s : State) (ws : List (Fin 8 × Bytes)) (a : Nat)
    (h : ∀ w ∈ ws, ¬ (s.regionAddr w.1 ≤ a ∧ a < s.regionAddr w.1 + w.2.length)) :
    (s.commit ws).dmem.read a = s.dmem.read a := by
  rw [commit_dmem]
  refine List.foldlRecOn (motive := fun m => Memory.read m a = s.dmem.read a) ws _ rfl fun m hm w hw => ?_
  rw [memory_read_writeBytes, if_neg (h w hw), hm]

/-- Writes that fit their destinations keep DMEM canonical and within its bounds (R80, R84). -/
theorem MemoryOk.commit {s : State} {i : Instr} {ws : List (Fin 8 × Bytes)} (h : MemoryOk s) (hfit : Fits s i ws) :
    MemoryOk (s.commit ws) := by
  obtain ⟨hwf, hbound⟩ := h
  refine ⟨commit_wf s ws hwf, fun a b hab => ?_⟩
  by_cases hin : ∃ w ∈ ws, s.regionAddr w.1 ≤ a ∧ a < s.regionAddr w.1 + w.2.length
  · obtain ⟨w, hw, -, hlt⟩ := hin
    obtain ⟨-, hdmem, hlen⟩ := hfit w hw
    exact lt_of_lt_of_le (lt_of_lt_of_le hlt (Nat.add_le_add_left hlen _)) hdmem
  · have hout := commit_read_outside s ws a fun w hw hc => hin ⟨w, hw, hc⟩
    exact hbound a b (hout ▸ hab)

/-- A host write below DMEM_BYTES keeps DMEM canonical and within its bounds (R80, R82). -/
theorem MemoryOk.writeBytes {s : State} {addr : Nat} {bs : Bytes} (h : MemoryOk s)
    (hroom : addr + bs.length ≤ s.params.dmemBytes) : MemoryOk { s with dmem := s.dmem.writeBytes addr bs } := by
  obtain ⟨hwf, hbound⟩ := h
  refine ⟨memory_wf_writeBytes _ _ _ hwf, fun a b hab => ?_⟩
  dsimp only at hab
  rw [memory_read_writeBytes] at hab
  split at hab
  · next hin => exact lt_of_lt_of_le hin.2 hroom
  · exact hbound a b hab

/-! ### Status and results -/

/-- The end of a command leaves the status registers in agreement, when its code is one of the engine's and an error
carries no result but a returned header's length (R33, R34, R345, R349). -/
theorem StatusOk.finish (s : State) {code : Byte} {r0 r1 : Word} (hcode : EngineCode code)
    (hres : code ≠ 0 → r1 = 0 ∧ (code ≠ errorCode .authenticationFailure → r0 = 0)) :
    StatusOk (s.finish code r0 r1) :=
  ⟨hcode, fun hp => absurd rfl hp, hres⟩

theorem StatusOk.raise (s : State) {e : ErrorKind} (he : EngineError e) : StatusOk (s.raise e) :=
  .finish s (.inr ⟨e, he, rfl⟩) fun _ => ⟨rfl, fun _ => rfl⟩

theorem StatusOk.complete (s : State) (r0 r1 : Word) (ws : List (Fin 8 × Bytes)) : StatusOk (s.complete r0 r1 ws) :=
  .finish _ (.inl rfl) fun hne => absurd rfl hne

theorem StatusOk.scrub {s : State} (h : StatusOk s) : StatusOk s.scrub := h

/-- Clearing DONE or WERR disturbs nothing that BUSY excludes (R33). -/
theorem StatusOk.writeStatus {s : State} (h : StatusOk s) (v : Word) : StatusOk (s.writeStatus v) := by
  obtain ⟨hcode, hbusy, herr⟩ := h
  refine ⟨hcode, fun hp => ?_, herr⟩
  obtain ⟨hdone, hrest⟩ := hbusy hp
  exact ⟨by rw [writeStatus_done, hdone, Bool.false_and], hrest⟩

/-! ### The ends of a command -/

theorem Ends.params_eq {s t : State} {i : Instr} (h : Ends s i t) : t.params = s.params := by
  cases h <;> rfl

theorem Ends.memoryOk {s t : State} {i : Instr} (h : Ends s i t) (hs : MemoryOk s) : MemoryOk t := by
  cases h with
  | refused => exact hs
  | authFailed => exact hs
  | loadFailed => exact hs
  | headerReturned h d hfit => exact MemoryOk.commit (s := State.clearKeyring { s with draws := d }) hs hfit
  | succeeded d hfit =>
    exact MemoryOk.commit (s := { s with sponge := spongeAfter i s, keyring := _, draws := d }) hs hfit

theorem spongeAfter_ok (i : Instr) {s : State} (h : SpongeOk s.sponge) : SpongeOk (spongeAfter i s) := by
  cases i with
  | spAbsorb => exact h.absorb _
  | spAbsorbImm b => exact h.absorbByte b
  | spAbsorbStop => exact h.absorbStop
  | spShuffle => exact h.shuffle
  | spSqueeze => exact h.squeeze _
  | spDrip => exact h.drip
  | spInit | hash | keyid | aeadSeal | aeadOpen | krLoad | frameSeal | frameParse => exact .init
  | nop | b85Enc | b85Dec | krLookup | krClear | frameAad => exact h

theorem Ends.spongeOk {s t : State} {i : Instr} (h : Ends s i t) (hs : SpongeOk s.sponge) : SpongeOk t.sponge := by
  cases h with
  | refused => exact hs
  | authFailed | loadFailed | headerReturned => exact .init
  | succeeded => exact spongeAfter_ok i hs

theorem KeyringAfter.keyringOk {s : State} {i : Instr} {k : Keyring} (h : KeyringAfter i s k)
    (hs : KeyringOk s.params s.keyring) : KeyringOk s.params k := by
  unfold KeyringAfter at h
  split at h
  · exact (loadKeyring_ok h).1
  · exact h ▸ .empty _
  · exact h ▸ .empty _
  · exact h ▸ .empty _
  · exact h ▸ hs

theorem Ends.keyringOk {s t : State} {i : Instr} (h : Ends s i t) (hs : KeyringOk s.params s.keyring) :
    KeyringOk t.params t.keyring := by
  cases h with
  | refused | authFailed => exact hs
  | loadFailed | headerReturned => exact .empty _
  | succeeded d hfit hk => exact hk.keyringOk hs

theorem Ends.statusOk {s t : State} {i : Instr} (h : Ends s i t) : StatusOk t := by
  cases h with
  | refused d he => exact .raise _ he
  | authFailed => exact .scrub (.raise _ nofun)
  | loadFailed d hi he => exact .scrub (.raise _ he)
  | headerReturned h d =>
    have hcode : EngineCode (errorCode .authenticationFailure) := .inr ⟨.authenticationFailure, nofun, rfl⟩
    exact .scrub (.finish _ hcode fun _ => ⟨rfl, fun hne => absurd rfl hne⟩)
  | succeeded => exact .complete _ _ _ _

/-! ### Steps -/

/-- From `s` to `t` the build parameters stay and the invariant is kept. -/
def Keeps (s t : State) : Prop := t.params = s.params ∧ (Inv s → Inv t)

theorem Ends.keeps {s t : State} {i : Instr} (h : Ends s i t) : Keeps s t :=
  ⟨h.params_eq, fun hs => ⟨h.memoryOk hs.memory, h.spongeOk hs.sponge, h.keyringOk hs.keyring, h.statusOk⟩⟩

theorem decodeErrorKind_engineError (e : DecodeError) : EngineError (decodeErrorKind e) := by
  cases e <;> exact nofun

theorem raise_keeps (s : State) {e : ErrorKind} (he : EngineError e) : Keeps s (s.raise e) :=
  ⟨rfl, fun hs => ⟨hs.memory, hs.sponge, hs.keyring, .raise s he⟩⟩

theorem engineStep_keeps {s t : State} (h : engineStep s = .next t) : Keeps s t := by
  rcases engineStep_cases s with ⟨-, hstep⟩ | ⟨c, -, ⟨e, -, hstep⟩ | ⟨i, -, hstep⟩⟩ <;> rw [hstep] at h
  · cases h
  · cases h
    exact raise_keeps s (decodeErrorKind_engineError e)
  · exact (exec_ends h).keeps

/-- A register write that BUSY turns away sets WERR, which is no part of the invariant (R32, R37). -/
theorem whenIdle_keeps {s t : State} (h : Keeps s t) : Keeps s (s.whenIdle t) := by
  unfold State.whenIdle
  split
  · exact ⟨rfl, fun hs => ⟨hs.memory, hs.sponge, hs.keyring, hs.status⟩⟩
  · exact h

/-- A command start leaves no code and no result, and DONE clear (R112). -/
theorem startCommand_keeps (s : State) (c : Word) : Keeps s (s.startCommand c) :=
  ⟨rfl, fun hs => ⟨hs.memory, hs.sponge, hs.keyring, .inl rfl, fun _ => ⟨rfl, rfl, rfl, rfl⟩, fun hne => absurd rfl hne⟩⟩

theorem writeReg_keeps (s : State) (r : RegName) (v : Word) : Keeps s (s.writeReg r v) := by
  cases r with
  | cmd => exact whenIdle_keeps (startCommand_keeps s v)
  | status => exact ⟨rfl, fun hs => ⟨hs.memory, hs.sponge, hs.keyring, hs.status.writeStatus v⟩⟩
  | descAddr n | descLen n => exact whenIdle_keeps ⟨rfl, fun hs => ⟨hs.memory, hs.sponge, hs.keyring, hs.status⟩⟩
  | id | res0 | res1 | krCount | krCur | spIjkz | spAw | spS | reserved => exact ⟨rfl, fun hs => hs⟩

theorem hostStep_keeps {a : HostAccess} {s t : State} (h : hostStep a s = .next t) : Keeps s t := by
  unfold hostStep at h
  split at h
  · next hallowed =>
    cases h
    cases a with
    | regRead => exact ⟨rfl, fun hs => ⟨hs.memory, hs.sponge, hs.keyring, hs.status⟩⟩
    | regWrite off size v => exact writeReg_keeps s _ v
    | memRead => exact ⟨rfl, fun hs => ⟨hs.memory, hs.sponge, hs.keyring, hs.status⟩⟩
    | memWrite addr size v =>
      have hroom : addr.toNat + (bytesLe (accessBytes size) v).length ≤ s.params.dmemBytes := by
        rw [bytesLe_length]
        exact of_decide_eq_true (Bool.and_eq_true_iff.1 hallowed).2
      exact ⟨rfl, fun hs => ⟨hs.memory.writeBytes hroom, hs.sponge, hs.keyring, hs.status⟩⟩
  · cases h

/-- The state after reset has the invariant (R380). -/
theorem resetWith_inv (p : Params) : Inv (State.resetWith p) :=
  ⟨⟨rfl, nofun⟩, .init, .empty p, .inl rfl, fun hp => absurd rfl hp, fun hne => absurd rfl hne⟩

theorem reassertReset_keeps (s : State) : Keeps s s.reassertReset :=
  have hreset := resetWith_inv s.params
  ⟨rfl, fun _ => ⟨hreset.memory, hreset.sponge, hreset.keyring, hreset.status⟩⟩

/-- Spending a turn is no part of the invariant. -/
theorem Keeps.of_agenda {s t : State} {rest : List Turn} (h : Keeps { s with agenda := rest } t) : Keeps s t :=
  ⟨h.1, fun hs => h.2 ⟨hs.memory, hs.sponge, hs.keyring, hs.status⟩⟩

theorem step_keeps {s t : State} (h : step s = .next t) : Keeps s t := by
  rcases step_cases s with ⟨-, hstep⟩ | ⟨rest, -, hstep⟩ | ⟨a, rest, -, hstep⟩ | ⟨rest, -, hstep⟩ <;> rw [hstep] at h
  · exact engineStep_keeps h
  · exact (engineStep_keeps h).of_agenda
  · exact (hostStep_keeps h).of_agenda
  · cases h
    exact (reassertReset_keeps _).of_agenda

/-- One state with the invariant and a next step: SP_DRIP pending after reset. -/
theorem inv_and_step_of_pending_drip (p : Params) :
    Inv ((State.resetWith p).startCommand 0x07) ∧
      ∃ t, step ((State.resetWith p).startCommand 0x07) = .next t :=
  ⟨(startCommand_keeps _ _).2 (resetWith_inv p), _, rfl⟩

end Sys2Proof.Machine

namespace Sys2Proof.Proofs

/-- Settles O60, by the ways a command ends, the host's accesses and reset, each of which keeps the invariant. -/
theorem everyStepKeepsTheInvariant : Obligations.EveryStepKeepsTheInvariant := by
  unfold Obligations.EveryStepKeepsTheInvariant
  exact fun _ _ h => Machine.step_keeps h

end Sys2Proof.Proofs
end

section
/-! PROOFS. Rules of the whole machine, from the ways a command ends: whose turn a step takes (R30, R88, R113), what
every command leaves alone (R345, R349), what a failed one leaves (R347), and what reaches the keyring store (R42). -/

namespace Sys2Proof.Machine

/-! ### Turns -/

theorem step_of_agenda_nil {s : State} (h : s.agenda = []) : step s = engineStep s := by
  rw [step, h]

theorem step_of_agenda_engine {s : State} {rest : List Turn} (h : s.agenda = .engine :: rest) :
    step s = engineStep { s with agenda := rest } := by
  rw [step, h]

theorem step_of_agenda_host {s : State} {a : HostAccess} {rest : List Turn} (h : s.agenda = .host a :: rest) :
    step s = hostStep a { s with agenda := rest } := by
  rw [step, h]

theorem engineStep_of_pend_none {s : State} (h : s.pend = none) : engineStep s = .fault .noCommandPending := by
  rw [engineStep, h]

/-- The engine runs the command whose word is pending (R113). -/
theorem engineStep_of_decode_ok {s : State} {c : Word} {i : Instr} (hc : s.pend = some c) (hi : decode c = .ok i) :
    engineStep s = exec i s := by
  simp only [engineStep, hc, hi]

/-! ### Every end of a command -/

/-- However a command ends, BUSY has fallen and DONE risen, and WERR, the descriptors, the build parameters and the
host's own fields are as they were (R345, R349). -/
theorem Ends.lifecycle {s t : State} {i : Instr} (h : Ends s i t) :
    t.pend = none ∧ t.done = true ∧ t.werr = s.werr ∧ t.desc = s.desc ∧ t.params = s.params ∧ t.agenda = s.agenda ∧
      t.hostReads = s.hostReads := by
  cases h <;> exact ⟨rfl, rfl, rfl, rfl, rfl, rfl, rfl⟩

theorem errorCode_ne_zero (e : ErrorKind) : errorCode e ≠ 0 := by
  cases e <;> exact nofun

theorem Ends.engineCode {s t : State} {i : Instr} (h : Ends s i t) : EngineCode t.ecode := by
  obtain ⟨hcode, -⟩ := h.statusOk
  exact hcode

/-- An error leaves DMEM alone and RES0 at 0, but where FRAME_PARSE returns a header (R86, R322, R347). -/
theorem Ends.dmem_res0_of_error {s t : State} {i : Instr} (h : Ends s i t) (herr : t.ecode ≠ 0)
    (hheader : ¬ (i = .frameParse ∧ t.ecode = errorCode .authenticationFailure)) : t.dmem = s.dmem ∧ t.res0 = 0 := by
  cases h with
  | refused | authFailed | loadFailed => exact ⟨rfl, rfl⟩
  | headerReturned => exact absurd ⟨rfl, rfl⟩ hheader
  | succeeded => exact absurd rfl herr

theorem Ends.res1_of_error {s t : State} {i : Instr} (h : Ends s i t) (herr : t.ecode ≠ 0) : t.res1 = 0 := by
  obtain ⟨-, -, hres⟩ := h.statusOk
  exact (hres herr).1

/-! ### The keyring store -/

/-- The commands that may change the keyring store (R278, R280, R314). -/
def ChangesKeyring (i : Instr) : Prop := i = .krLoad ∨ i = .krClear ∨ i = .frameSeal ∨ i = .frameParse

theorem KeyringAfter.eq_or_changes {s : State} {i : Instr} {k : Keyring} (h : KeyringAfter i s k) :
    k = s.keyring ∨ ChangesKeyring i := by
  cases i with
  | krLoad => exact .inr (.inl rfl)
  | krClear => exact .inr (.inr (.inl rfl))
  | frameSeal => exact .inr (.inr (.inr (.inl rfl)))
  | frameParse => exact .inr (.inr (.inr (.inr rfl)))
  | _ => exact .inl h

theorem Ends.keyring_eq_or_changes {s t : State} {i : Instr} (h : Ends s i t) :
    t.keyring = s.keyring ∨ ChangesKeyring i := by
  cases h with
  | refused | authFailed => exact .inl rfl
  | loadFailed d hi => exact .inr (hi.imp_right .inr)
  | headerReturned => exact .inr (.inr (.inr (.inr rfl)))
  | succeeded d hfit hk => exact hk.eq_or_changes

/-- A framer command leaves the store empty, or fails before its load with the store as it was (R314). -/
theorem Ends.framer_keyring {s t : State} {i : Instr} (h : Ends s i t) (hi : i = .frameSeal ∨ i = .frameParse) :
    t.keyring = Keyring.empty ∨ (t.ecode ≠ 0 ∧ t.keyring = s.keyring) := by
  cases h with
  | refused => exact .inr ⟨errorCode_ne_zero _, rfl⟩
  | authFailed => exact .inr ⟨errorCode_ne_zero .authenticationFailure, rfl⟩
  | loadFailed | headerReturned => exact .inl rfl
  | succeeded d hfit hk => rcases hi with rfl | rfl <;> exact .inl hk

theorem engineStep_keyring {s t : State} (h : engineStep s = .next t) :
    t.keyring = s.keyring ∨ ∃ c i, s.pend = some c ∧ decode c = .ok i ∧ ChangesKeyring i := by
  rcases engineStep_cases s with ⟨-, hstep⟩ | ⟨c, hc, ⟨e, -, hstep⟩ | ⟨i, hi, hstep⟩⟩ <;> rw [hstep] at h
  · cases h
  · cases h
    exact .inl rfl
  · exact (exec_ends h).keyring_eq_or_changes.imp_right fun hch => ⟨c, i, hc, hi, hch⟩

theorem whenIdle_keyring {s t : State} (h : t.keyring = s.keyring) : (s.whenIdle t).keyring = s.keyring := by
  unfold State.whenIdle
  split
  · rfl
  · exact h

@[simp] theorem writeReg_keyring (s : State) (r : RegName) (v : Word) : (s.writeReg r v).keyring = s.keyring := by
  cases r with
  | cmd | descAddr | descLen => exact whenIdle_keyring rfl
  | _ => rfl

/-- No access of the host reaches the keyring store (R42, R47). -/
theorem hostStep_keyring {a : HostAccess} {s t : State} (h : hostStep a s = .next t) : t.keyring = s.keyring := by
  unfold hostStep at h
  split at h
  · cases h
    cases a with
    | regWrite off size v => exact writeReg_keyring s _ v
    | regRead | memRead | memWrite => rfl
  · cases h

/-- A step that changes the keyring store is a reset, or the engine's with one of four commands pending (R42). -/
theorem step_keyring {s t : State} (h : step s = .next t) :
    t.keyring = s.keyring ∨ (∃ rest, s.agenda = .reset :: rest) ∨
      ((s.agenda = [] ∨ ∃ rest, s.agenda = .engine :: rest) ∧
        ∃ c i, s.pend = some c ∧ decode c = .ok i ∧ ChangesKeyring i) := by
  rcases step_cases s with ⟨hag, hstep⟩ | ⟨rest, hag, hstep⟩ | ⟨a, rest, -, hstep⟩ | ⟨rest, hag, -⟩
  · rw [hstep] at h
    exact (engineStep_keyring h).imp_right fun hch => .inr ⟨.inl hag, hch⟩
  · rw [hstep] at h
    exact (engineStep_keyring h).imp_right fun hch => .inr ⟨.inr ⟨rest, hag⟩, hch⟩
  · rw [hstep] at h
    exact .inl (hostStep_keyring (s := { s with agenda := rest }) h)
  · exact .inr (.inl ⟨rest, hag⟩)

end Sys2Proof.Machine

namespace Sys2Proof.Proofs

open Sys2Proof.Machine

/-- Settles O4, by the equation of a step at each turn. -/
theorem stepTakesTheNextTurn : Obligations.StepTakesTheNextTurn := by
  unfold Obligations.StepTakesTheNextTurn
  intro s rest
  refine ⟨fun c i hc hi => ⟨fun h => ?_, fun h => ?_⟩, fun hp h => ?_, fun a h => step_of_agenda_host h⟩
  · rw [step_of_agenda_nil h, engineStep_of_decode_ok hc hi]
  · rw [step_of_agenda_engine h]
    exact engineStep_of_decode_ok hc hi
  · rcases h with h | h
    · rw [step_of_agenda_nil h, engineStep_of_pend_none hp]
    · rw [step_of_agenda_engine h]
      exact engineStep_of_pend_none hp

/-- Settles O13, each procedure by its own lemma. -/
theorem spongeProceduresKeepTheirInvariants : Obligations.SpongeProceduresKeepTheirInvariants := by
  unfold Obligations.SpongeProceduresKeepTheirInvariants
  exact ⟨.init, fun _ h => ⟨h.update, h.output, h.crush, h.whip, h.shuffle, h.absorb, h.absorbStop, h.drip, h.squeeze⟩⟩

/-- Settles O54, by the ways a command ends. -/
theorem everyCommandCompletes : Obligations.EveryCommandCompletes := by
  unfold Obligations.EveryCommandCompletes
  intro i s
  obtain ⟨t, ht, hends⟩ := exec_completes s i
  obtain ⟨hpend, hdone, hwerr, hdesc, hparams, hagenda, hreads⟩ := hends.lifecycle
  exact ⟨t, ht, hpend, hdone, hwerr, hdesc, hparams, hagenda, hreads, hends.engineCode⟩

/-- Settles O55, by the ways a command ends. -/
theorem failedCommandsWriteNothing : Obligations.FailedCommandsWriteNothing := by
  unfold Obligations.FailedCommandsWriteNothing
  intro i s t h herr
  exact ⟨(exec_ends h).res1_of_error herr, (exec_ends h).dmem_res0_of_error herr⟩

/-- Settles O58: of the turns only the engine's and reset's reach the store, and of the commands only four. -/
theorem keyringChangesOnlyByItsCommands : Obligations.KeyringChangesOnlyByItsCommands := by
  unfold Obligations.KeyringChangesOnlyByItsCommands
  refine ⟨fun s t h => step_keyring h, fun i s t hi h => ?_⟩
  refine ((exec_ends h).framer_keyring hi).imp_left fun hempty => ?_
  rw [hempty]
  exact ⟨rfl, rfl⟩

end Sys2Proof.Proofs
end

section
/-! PROOFS. The keyring (R270 to R281): what a load registers and which entry is current, how a load fails, the lookup
of a stored entry's id, and the two commands over them. -/

namespace Sys2Proof.Machine

/-! ### Loads -/

/-- A key that is registered is at the index answered, and no id is lost (R274). -/
theorem registerKey_ok {max : Nat} {es es' : List KeyEntry} {new : KeyEntry} {n : Nat}
    (h : registerKey max es new = .ok (es', n)) :
    es'[n]? = some new ∧ ∀ x ∈ es, ∃ y ∈ es', y.id = x.id := by
  rcases registerKey_cases max es new with
    ⟨m, hm, hsame, hr⟩ | ⟨-, -, hr⟩ | ⟨-, -, hr⟩ <;> rw [hr] at h <;> cases h
  · refine ⟨by simp [hm], fun x hx => ?_⟩
    obtain ⟨k, hk, rfl⟩ := List.mem_iff_getElem.1 hx
    by_cases hkn : n = k
    · subst hkn
      exact ⟨new, List.mem_set hm new, hsame.symm⟩
    · refine ⟨es[k], ?_, rfl⟩
      rw [← List.getElem_set_ne hkn (by simpa using hk)]
      exact List.getElem_mem _
  · exact ⟨by simp, fun x hx => ⟨x, List.mem_append_left _ hx, rfl⟩⟩

/-- All that a line of a load that succeeds can do (R270): be blank, or register the key of its first token. -/
theorem loadLines_cons_ok {p : Params} {line : Bytes} {rest : List Bytes} {es : List KeyEntry} {cur : Option Nat}
    {r : List KeyEntry × Option Nat} (h : loadLines p (line :: rest) es cur = .ok r) :
    (firstToken line = none ∧ loadLines p rest es cur = .ok r) ∨
    ∃ t key es1 n, firstToken line = some t ∧ dec85 p.b85Variant t = some key ∧
      es1[n]? = some { id := keyIdDigest key, key := key } ∧ (∀ x ∈ es, ∃ y ∈ es1, y.id = x.id) ∧
      loadLines p rest es1 (some n) = .ok r := by
  rw [loadLines] at h
  split at h
  · next ht => exact .inl ⟨ht, h⟩
  · next t ht =>
    rcases tokenKey_cases p t with ⟨-, hk⟩ | ⟨key, hd, ⟨-, hk⟩ | ⟨-, hk⟩⟩ <;> rw [hk] at h
    · cases h
    · cases h
    · dsimp only at h
      split at h
      · cases h
      · next q hq =>
        obtain ⟨hnew, hkept⟩ := registerKey_ok hq
        exact .inr ⟨t, key, q.1, q.2, ht, hd, hnew, hkept, h⟩

/-- A load keeps every id it has, and registers the key of every non-blank line (R273, R274). -/
theorem loadLines_registers {p : Params} {ls : List Bytes} {es es' : List KeyEntry} {cur cur' : Option Nat}
    (h : loadLines p ls es cur = .ok (es', cur')) :
    (∀ x ∈ es, ∃ y ∈ es', y.id = x.id) ∧
      ∀ t ∈ ls.filterMap firstToken, ∃ key, dec85 p.b85Variant t = some key ∧ ∃ e ∈ es', e.id = keyIdDigest key := by
  induction ls generalizing es cur with
  | nil => cases h; exact ⟨fun x hx => ⟨x, hx, rfl⟩, nofun⟩
  | cons line rest ih =>
    rcases loadLines_cons_ok h with ⟨ht, hrest⟩ | ⟨t, key, es1, n, ht, hd, hnew, hkept, hrest⟩
    · rw [List.filterMap_cons_none ht]
      exact ih hrest
    · rw [List.filterMap_cons_some ht]
      obtain ⟨hkept', hregs⟩ := ih hrest
      refine ⟨fun x hx => ?_, fun u hu => ?_⟩
      · obtain ⟨y, hy, hyx⟩ := hkept x hx
        obtain ⟨z, hz, hzy⟩ := hkept' y hy
        exact ⟨z, hz, hzy.trans hyx⟩
      · rcases List.mem_cons.1 hu with rfl | hu
        · exact ⟨key, hd, hkept' _ (List.mem_of_getElem? hnew)⟩
        · exact hregs u hu

/-- A load whose lines are all blank changes nothing (R270). -/
theorem loadLines_of_blank {p : Params} {ls : List Bytes} {es : List KeyEntry} {cur : Option Nat}
    {r : List KeyEntry × Option Nat} (hblank : ls.filterMap firstToken = []) (h : loadLines p ls es cur = .ok r) :
    r = (es, cur) := by
  induction ls with
  | nil => cases h; rfl
  | cons line rest ih =>
    have ht : firstToken line = none := List.filterMap_eq_nil_iff.1 hblank line (.head _)
    rw [List.filterMap_cons_none ht] at hblank
    rw [loadLines, ht] at h
    exact ih hblank h

/-- The current entry after a load is the key of its last non-blank line (R275). -/
theorem loadLines_current {p : Params} {ls : List Bytes} {es es' : List KeyEntry} {cur cur' : Option Nat} {t : Bytes}
    (hlast : (ls.filterMap firstToken).getLast? = some t) (h : loadLines p ls es cur = .ok (es', cur')) :
    ∃ key n, dec85 p.b85Variant t = some key ∧ cur' = some n ∧
      es'[n]? = some { id := keyIdDigest key, key := key } := by
  induction ls generalizing es cur with
  | nil => cases hlast
  | cons line rest ih =>
    rcases loadLines_cons_ok h with ⟨ht, hrest⟩ | ⟨u, key, es1, n, hu, hd, hnew, -, hrest⟩
    · rw [List.filterMap_cons_none ht] at hlast
      exact ih hlast hrest
    · rw [List.filterMap_cons_some hu] at hlast
      cases htail : rest.filterMap firstToken with
      | nil =>
        rw [htail] at hlast
        cases hlast
        cases loadLines_of_blank htail hrest
        exact ⟨key, n, hd, rfl, hnew⟩
      | cons v vs =>
        rw [htail, List.getLast?_cons_cons, ← htail] at hlast
        exact ih hlast hrest

/-- A load that succeeds is a run of the loop over the lines that ends with a current entry (R270, R276). -/
theorem loadLines_of_loadKeyring_ok {p : Params} {m : Bytes} {kr : Keyring} (h : loadKeyring p m = .ok kr) :
    loadLines p (lines m) [] none = .ok (kr.entries, some kr.cur) := by
  rcases loadKeyring_cases p m with ⟨e, -, hl⟩ | ⟨es, -, hl⟩ | ⟨es, n, hlines, hl⟩ <;> rw [hl] at h <;> cases h
  exact hlines

theorem loadKeyring_registers {p : Params} {m : Bytes} {kr : Keyring} (h : loadKeyring p m = .ok kr) :
    ∀ t ∈ keyTokens m, ∃ key, dec85 p.b85Variant t = some key ∧ ∃ e ∈ kr.entries, e.id = keyIdDigest key := by
  obtain ⟨-, hregs⟩ := loadLines_registers (loadLines_of_loadKeyring_ok h)
  exact hregs

theorem loadKeyring_current {p : Params} {m : Bytes} {kr : Keyring} (h : loadKeyring p m = .ok kr) :
    ∃ t key, (keyTokens m).getLast? = some t ∧ dec85 p.b85Variant t = some key ∧
      kr.entries[kr.cur]? = some { id := keyIdDigest key, key := key } := by
  have hlines := loadLines_of_loadKeyring_ok h
  cases htok : (keyTokens m).getLast? with
  | none =>
    have hnone := congrArg Prod.snd (loadLines_of_blank (List.getLast?_eq_none_iff.1 htok) hlines)
    cases hnone
  | some t =>
    obtain ⟨key, n, hd, hn, hkey⟩ := loadLines_current htok hlines
    cases hn
    exact ⟨t, key, rfl, hd, hkey⟩

/-- The three errors of a load (R276). -/
theorem loadKeyring_error_kinds {p : Params} {m : Bytes} {e : ErrorKind} (h : loadKeyring p m = .error e) :
    e = .invalidEncoding ∨ e = .noUsableKeys ∨ e = .capacityExceeded := by
  rcases loadKeyring_cases p m with ⟨e', hlines, hl⟩ | ⟨es, -, hl⟩ | ⟨es, n, -, hl⟩ <;> rw [hl] at h <;> cases h
  · exact (loadLines_error hlines).imp_right .inr
  · exact .inr (.inl rfl)

/-! ### Lookups -/

/-- Looking up the id of an entry of a well-formed store finds that entry, since ids are distinct (R42, R277). -/
theorem lookupKey_of_entry {p : Params} {kr : Keyring} {n : Nat} {e : KeyEntry} {v : Fin 6} {x : Bytes}
    (hok : KeyringOk p kr) (he : kr.entries[n]? = some e) (hx : dec85 v x = some e.id) :
    lookupKey v kr.entries x = .ok (n, e.key) := by
  obtain ⟨-, hnodup, hent, -⟩ := hok
  obtain ⟨hn, rfl⟩ := List.getElem?_eq_some_iff.1 he
  have hmem : kr.entries[n] ∈ kr.entries := List.getElem_mem hn
  obtain ⟨hlen, -⟩ := hent _ hmem
  rcases lookupKey_cases v kr.entries x with ⟨hnone, -⟩ | ⟨d, hd, ⟨hbad, -⟩ | ⟨m, hm, -, hid, -, hl⟩⟩
  · rw [hx] at hnone; cases hnone
  · rw [hx] at hd
    cases hd
    exact absurd hbad (by simpa [hlen] using ⟨_, hmem, rfl⟩)
  · rw [hx] at hd
    cases hd
    have hinj := hnodup.getElem_inj_iff (i := m) (j := n) (hi := by simpa using hm) (hj := by simpa using hn)
    obtain rfl : m = n := hinj.1 (by simpa using hid)
    exact hl

/-! ### The commands -/

/-- KR_LOAD of material that is held and loads (R278). -/
theorem exec_krLoad_ok {s : State} {m : Bytes} {kr : Keyring} (ok : OperandsOk s .krLoad) (hm : Holds s 0 m)
    (h : loadKeyring s.params m = .ok kr) :
    exec .krLoad s =
      .next ((s.setKeyring kr).complete (BitVec.ofNat 32 kr.entries.length) (BitVec.ofNat 32 kr.cur) []).scrub := by
  refine (withOperands_ok s .krLoad _ ok).trans ?_
  rw [holds_region hm, holds_afterRead hm, h]

/-- KR_LOAD of material that is held and does not load (R278). -/
theorem exec_krLoad_error {s : State} {m : Bytes} {e : ErrorKind} (ok : OperandsOk s .krLoad) (hm : Holds s 0 m)
    (h : loadKeyring s.params m = .error e) :
    exec .krLoad s = .next (scrubbedErrorEnd s e Keyring.empty) := by
  refine (withOperands_ok s .krLoad _ ok).trans ?_
  rw [holds_region hm, holds_afterRead hm, h]
  rfl

/-- KR_LOOKUP of a text that is held and found, with room for the key (R279). -/
theorem exec_krLookup_ok {s : State} {x key : Bytes} {n : Nat} (ok : OperandsOk s .krLookup) (hx : Holds s 0 x)
    (h : lookupKey s.params.b85Variant s.keyring.entries x = .ok (n, key)) (hroom : key.length ≤ s.regionLen 1) :
    exec .krLookup s = .next (s.complete (BitVec.ofNat 32 key.length) (BitVec.ofNat 32 n) [(1, key)]) := by
  refine (withOperands_ok s .krLookup _ ok).trans ?_
  rw [holds_region hx, holds_afterRead hx, h]
  exact if_neg (Nat.not_lt.2 hroom)

end Sys2Proof.Machine

namespace Sys2Proof.Proofs

open Sys2Proof.Machine

/-- Settles O36, by induction on the lines of the material. -/
theorem loadedKeyringIsWellFormed : Obligations.LoadedKeyringIsWellFormed := by
  unfold Obligations.LoadedKeyringIsWellFormed
  intro p m kr h
  obtain ⟨hok, -⟩ := loadKeyring_ok h
  exact ⟨hok, loadKeyring_registers h, loadKeyring_current h⟩

/-- Settles O39, by the two ends of KR_LOAD; a loaded keyring has an entry, so KR_CUR reads its index. -/
theorem krLoadFillsOrEmptiesTheStore : Obligations.KrLoadFillsOrEmptiesTheStore := by
  unfold Obligations.KrLoadFillsOrEmptiesTheStore
  intro s m ok hm
  refine ⟨fun kr h => ?_, fun e h => ⟨exec_krLoad_error ok hm h, loadKeyring_error_kinds h⟩⟩
  obtain ⟨-, hcur⟩ := loadKeyring_ok h
  have hcurWord : kr.curWord = BitVec.ofNat 32 kr.cur := if_neg (by omega)
  refine ⟨_, exec_krLoad_ok ok hm h, rfl, rfl, rfl, hostStep_regRead _ 0x014 rfl, ?_⟩
  rw [← hcurWord]
  exact hostStep_regRead _ 0x018 rfl

/-- Settles O40: ids are distinct, so the lookup finds the entry itself, and KR_LOOKUP stores its key. -/
theorem krLookupCopiesTheKey : Obligations.KrLookupCopiesTheKey := by
  unfold Obligations.KrLookupCopiesTheKey
  intro s x n e ok hx hok he hd hroom
  exact ⟨_, exec_krLookup_ok ok hx (lookupKey_of_entry hok he hd) hroom, succeeds_complete s s.draws _ _ _, rfl,
    stored_commit s 1 e.key⟩

end Sys2Proof.Proofs
end

section
/-! PROOFS. The host's port (R31 to R39, R80 to R83): the registers it writes and reads, word by word, and its DMEM
accesses, byte by byte. -/

namespace Sys2Proof.Machine

/-! ### Writes that BUSY turns away -/

theorem whenIdle_of_idle {s : State} (h : s.pend = none) (t : State) : s.whenIdle t = t := by
  rw [State.whenIdle, State.busy, h]
  rfl

theorem whenIdle_of_busy {s : State} (h : s.pend ≠ none) (t : State) : s.whenIdle t = { s with werr := true } := by
  have hbusy : s.busy = true := Option.isSome_iff_ne_none.2 h
  rw [State.whenIdle, if_pos hbusy]

/-! ### STATUS -/

open BitVec (extractLsb'_append_eq_of_le extractLsb'_append_eq_right extractLsb'_append_eq_left)

/-- STATUS with the widths of its fields in its type, for the lemmas about bit vectors put together. -/
def statusBits (s : State) : BitVec (16 + 8 + 4 + 1 + 1 + 1 + 1) :=
  (0 : BitVec 16) ++ s.ecode ++ (0 : BitVec 4) ++ BitVec.ofBool s.werr ++ BitVec.ofBool s.err ++
    BitVec.ofBool s.done ++ BitVec.ofBool s.busy

theorem statusWord_eq_statusBits (s : State) : s.statusWord = statusBits s := rfl

/-- The flags of STATUS (R33). -/
theorem statusWord_flags (s : State) :
    s.statusWord.getLsbD 0 = s.busy ∧ s.statusWord.getLsbD 1 = s.done ∧ s.statusWord.getLsbD 2 = s.err ∧
      s.statusWord.getLsbD 3 = s.werr := by
  simp only [statusWord_eq_statusBits, statusBits, BitVec.getLsbD_append]
  simp

/-- Above the four flags stand the reserved bits 7:4, ECODE, and the reserved bits 31:16 (R33). -/
theorem statusWord_extract_above_flags (s : State) {start len : Nat} (h : 4 ≤ start) :
    s.statusWord.extractLsb' start len =
      ((0 : BitVec 16) ++ s.ecode ++ (0 : BitVec 4)).extractLsb' (start - 4) len := by
  change (statusBits s).extractLsb' start len = _
  rw [statusBits, extractLsb'_append_eq_of_le (by omega), extractLsb'_append_eq_of_le (by omega),
    extractLsb'_append_eq_of_le (by omega), extractLsb'_append_eq_of_le (by omega)]
  rfl

/-- ECODE is in bits 15:8 of STATUS, and the reserved bits are 0 (R33). -/
theorem statusWord_fields (s : State) :
    s.statusWord.extractLsb' 4 4 = 0 ∧ s.statusWord.extractLsb' 8 8 = s.ecode ∧
      s.statusWord.extractLsb' 16 16 = 0 := by
  refine ⟨?_, ?_, ?_⟩ <;> rw [statusWord_extract_above_flags s (by decide)]
  · exact extractLsb'_append_eq_right
  · rw [extractLsb'_append_eq_of_le (by decide)]
    exact extractLsb'_append_eq_right
  · rw [extractLsb'_append_eq_of_le (by decide)]
    exact extractLsb'_append_eq_left

theorem writeStatus_eq (s : State) (v : Word) :
    s.writeStatus v = { s with
      done := (if v.getLsbD 1 then false else s.done), werr := (if v.getLsbD 3 then false else s.werr) } := by
  rw [State.writeStatus]
  cases v.getLsbD 1 <;> cases v.getLsbD 3 <;> simp

/-! ### Descriptor registers -/

/-- An access of the register that holds one half of `D[n]`: `d` is the pair after the write (R37). -/
theorem hostStep_descWrite {s : State} {off : BitVec 12} {v : Word} {r : RegName} {n : Fin 8} {d : Desc}
    (halign : off.toNat % 4 = 0) (hr : regAt off.toNat = r)
    (hwrite : s.writeReg r v = s.whenIdle { s with desc := s.desc.set n d })
    (hread : ∀ t : State, t.desc[n] = d → t.readReg r = v) :
    (s.pend ≠ none → hostStep (.regWrite off .word v) s = .next { s with werr := true }) ∧
    (s.pend = none → ∃ t, hostStep (.regWrite off .word v) s = .next t ∧ t = { s with desc := t.desc } ∧
      t.desc[n] = d ∧ (∀ m : Fin 8, m ≠ n → t.desc[m] = s.desc[m]) ∧
      hostStep (.regRead off .word) t = .next (t.answer v)) := by
  rw [hostStep_regWrite s off v halign, hr, hwrite]
  refine ⟨fun hbusy => by rw [whenIdle_of_busy hbusy], fun hidle => ?_⟩
  have hself : (s.desc.set n d)[n] = d := Vector.getElem_set_self _
  refine ⟨_, by rw [whenIdle_of_idle hidle], rfl, hself, fun m hm => ?_, ?_⟩
  · exact Vector.getElem_set_ne n.isLt m.isLt fun h => hm (Fin.ext h.symm)
  · rw [hostStep_regRead _ off halign, hr, hread _ hself]

/-! ### Read-only registers -/

/-- A write to a read-only register is ignored (R31, R34, R35, R36, R38). -/
theorem writeReg_readOnly (s : State) (v : Word) {off : Nat} (halign : off % 4 = 0)
    (h : off = 0 ∨ (0x00C ≤ off ∧ off ≤ 0x020) ∨ (0x100 ≤ off ∧ off < 0x200)) : s.writeReg (regAt off) v = s := by
  rcases h with rfl | ⟨hlo, hhi⟩ | ⟨hlo, hhi⟩
  · rfl
  · have hoff : off = 0x00C ∨ off = 0x010 ∨ off = 0x014 ∨ off = 0x018 ∨ off = 0x01C ∨ off = 0x020 := by omega
    rcases hoff with rfl | rfl | rfl | rfl | rfl | rfl <;> rfl
  · have hoff : off = 0x100 + 4 * (⟨(off - 0x100) / 4, by omega⟩ : Fin 64).val := by
      dsimp only
      omega
    rw [hoff, regAt_spS]
    rfl

/-- The four bytes of a word put together, the lowest last (R36, R38). -/
theorem extract_append_bytes (b3 b2 b1 b0 : Byte) :
    let w : Word := b3 ++ b2 ++ b1 ++ b0
    w.extractLsb' 0 8 = b0 ∧ w.extractLsb' 8 8 = b1 ∧ w.extractLsb' 16 8 = b2 ∧ w.extractLsb' 24 8 = b3 := by
  dsimp only
  refine ⟨extractLsb'_append_eq_right, ?_, ?_, ?_⟩
  · rw [extractLsb'_append_eq_of_le (by decide)]
    exact extractLsb'_append_eq_right
  · rw [extractLsb'_append_eq_of_le (by decide), extractLsb'_append_eq_of_le (by decide)]
    exact extractLsb'_append_eq_right
  · rw [extractLsb'_append_eq_of_le (by decide), extractLsb'_append_eq_of_le (by decide)]
    exact extractLsb'_append_eq_left

/-- REG.SP_AW holds a in its low byte and w in the next, as a command word holds its OP and IMM8 (R36, R110). -/
theorem aw_eq_commandWord (g : Sponge) : g.aw = commandWord g.a g.w := rfl

/-- Byte `b` of word `m` of REG.SP_S is `S[4m + b]` (R38). -/
theorem window_byte (g : Sponge) (m : Fin 64) {b : Nat} (hb : b < 4) :
    (g.window m).extractLsb' (8 * b) 8 = g.at (BitVec.ofNat 8 (4 * m.val + b)) := by
  obtain ⟨h0, h1, h2, h3⟩ := extract_append_bytes (g.at (BitVec.ofNat 8 (4 * m.val + 3)))
    (g.at (BitVec.ofNat 8 (4 * m.val + 2))) (g.at (BitVec.ofNat 8 (4 * m.val + 1))) (g.at (BitVec.ofNat 8 (4 * m.val)))
  match b with
  | 0 => exact h0
  | 1 => exact h1
  | 2 => exact h2
  | 3 => exact h3

/-! ### DMEM accesses -/

/-- A word's low bytes, little-endian, make up its value modulo their width (R83). -/
theorem wordLe_bytesLe (n : Nat) (v : Word) : wordLe (bytesLe n v) = BitVec.ofNat 32 (v.toNat % 2 ^ (8 * n)) := by
  refine BitVec.eq_of_getLsbD_eq fun i hi => ?_
  rw [wordLe_bit _ i hi, BitVec.getLsbD_ofNat, Nat.testBit_mod_two_pow]
  by_cases hin : i < 8 * n
  · have hmod : i % 8 < 8 := Nat.mod_lt _ (by decide)
    rw [bytesLe_get n v (i / 8) (by omega), Option.getD_some, BitVec.getLsbD_extractLsb', Nat.div_add_mod]
    simp [hi, hin, hmod, BitVec.getLsbD]
  · rw [List.getElem?_eq_none (by rw [bytesLe_length]; omega)]
    simp [hin]

/-- Above its bytes a little-endian word is 0 (R83). -/
theorem wordLe_lt (bs : Bytes) : (wordLe bs).toNat < 2 ^ (8 * bs.length) := by
  refine Nat.lt_pow_two_of_testBit _ fun i hi => ?_
  change (wordLe bs).getLsbD i = false
  by_cases h32 : i < 32
  · rw [wordLe_bit _ _ h32, List.getElem?_eq_none (by omega)]
    simp
  · exact BitVec.getLsbD_of_ge _ _ (by omega)

/-- Each byte of a little-endian word is in its place (R83). -/
theorem wordLe_byte {bs : Bytes} {k : Nat} {b : Byte} (hk : k < 4) (hb : bs[k]? = some b) :
    (wordLe bs).extractLsb' (8 * k) 8 = b := by
  refine BitVec.eq_of_getLsbD_eq fun i hi => ?_
  have hdiv : (8 * k + i) / 8 = k := by omega
  have hmod : (8 * k + i) % 8 = i := by omega
  rw [BitVec.getLsbD_extractLsb', wordLe_bit _ _ (by omega), hdiv, hmod, hb]
  simp [hi]

theorem accessBytes_le (size : AccessSize) : accessBytes size ≤ 4 := by
  cases size <;> decide

/-- A read of what a host write has just stored gives it back and draws nothing (R80, R83). -/
theorem memRead_writeBytes (m : Memory) (a d : Nat) (bs : Bytes) :
    memRead (m.writeBytes a bs) a bs.length d = (bs, d) := by
  have hread : ∀ k, k < bs.length → (m.writeBytes a bs).read (a + k) = bs[k]? := fun k hk => by
    rw [memory_read_writeBytes, if_pos (by omega), Nat.add_sub_cancel_left]
  refine Prod.ext (List.ext_getElem? fun k => ?_) (memRead_draws _ _ _ _ fun k hk => ?_)
  · by_cases hk : k < bs.length
    · have hbyte := List.getElem?_eq_getElem hk
      rw [hbyte]
      exact memRead_written _ _ _ _ _ _ hk ((hread k hk).trans hbyte)
    · rw [List.getElem?_eq_none (by rw [memRead_length]; omega), List.getElem?_eq_none (Nat.le_of_not_lt hk)]
  · rw [hread k hk, List.getElem?_eq_getElem hk]
    exact Option.some_ne_none _

/-- A host read at the place of a host write returns the bytes written (R80, R82, R83). -/
theorem hostStep_memRead_of_memWrite {s t : State} {addr v : Word} {size : AccessSize}
    (halign : addr.toNat % accessBytes size = 0) (hroom : addr.toNat + accessBytes size ≤ s.params.dmemBytes)
    (ht : hostStep (.memWrite addr size v) s = .next t) :
    hostStep (.memRead addr size) t =
      .next (t.answer (BitVec.ofNat 32 (v.toNat % 2 ^ (8 * accessBytes size)))) := by
  rw [hostStep_memWrite s addr v size halign hroom] at ht
  have hdmem : t.dmem = s.dmem.writeBytes addr.toNat (bytesLe (accessBytes size) v) := by cases ht; rfl
  have hparams : t.params = s.params := by cases ht; rfl
  have hback := memRead_writeBytes s.dmem addr.toNat t.draws (bytesLe (accessBytes size) v)
  rw [bytesLe_length] at hback
  rw [hostStep_memRead t addr size halign (hparams ▸ hroom), hdmem, hback, wordLe_bytesLe,
    ← hdmem]

end Sys2Proof.Machine

namespace Sys2Proof.Proofs

open Sys2Proof.Machine

/-- Settles O6, by the write of CMD, idle and busy. -/
theorem cmdWriteStartsACommandOrSetsWerr : Obligations.CmdWriteStartsACommandOrSetsWerr := by
  unfold Obligations.CmdWriteStartsACommandOrSetsWerr
  intro s v
  have hwrite : hostStep (.regWrite 0x004 .word v) s = .next (s.whenIdle (s.startCommand v)) :=
    hostStep_regWrite s 0x004 v rfl
  refine ⟨fun hidle => ?_, fun hbusy => ?_, hostStep_regRead s 0x004 rfl⟩
  · rw [hwrite, whenIdle_of_idle hidle]
    rfl
  · rw [hwrite, whenIdle_of_busy hbusy]

/-- Settles O7, by the bits of STATUS. -/
theorem statusBitsReadAndClear : Obligations.StatusBitsReadAndClear := by
  unfold Obligations.StatusBitsReadAndClear
  intro s v
  obtain ⟨hbusy, hdone, herr, hwerr⟩ := statusWord_flags s
  refine ⟨⟨s.statusWord, hostStep_regRead s 0x008 rfl, hbusy, hdone, ?_, hwerr, statusWord_fields s⟩, ?_⟩
  · rw [herr]
    exact decide_eq_true_iff
  · rw [← writeStatus_eq]
    exact hostStep_regWrite s 0x008 v rfl

/-- Settles O8, both halves of a pair by the same lemma. -/
theorem descriptorRegistersHoldWhatIsWritten : Obligations.DescriptorRegistersHoldWhatIsWritten := by
  unfold Obligations.DescriptorRegistersHoldWhatIsWritten
  intro s n v off
  refine ⟨fun hoff => ?_, fun hoff => ?_⟩
  · exact hostStep_descWrite (r := .descAddr n) (by omega) (hoff ▸ regAt_descAddr n) rfl
      fun _ hpair => congrArg Desc.addr hpair
  · exact hostStep_descWrite (r := .descLen n) (by omega) (hoff ▸ regAt_descLen n) rfl
      fun _ hpair => congrArg Desc.len hpair

/-- Settles O9: the three ranges are what the register map leaves over. -/
theorem reservedOffsetsReadZeroAndIgnoreWrites : Obligations.ReservedOffsetsReadZeroAndIgnoreWrites := by
  unfold Obligations.ReservedOffsetsReadZeroAndIgnoreWrites
  intro s off v halign hrange
  have hr : regAt off.toNat = .reserved := regAt_reserved _ (by omega)
  rw [hostStep_regRead s off halign, hostStep_regWrite s off v halign, hr]
  exact ⟨rfl, rfl⟩

/-- Settles O10, register by register. -/
theorem readOnlyRegistersViewTheState : Obligations.ReadOnlyRegistersViewTheState := by
  unfold Obligations.ReadOnlyRegistersViewTheState
  intro s v
  refine ⟨fun off halign hoff => ?_, hostStep_regRead s 0x000 rfl, hostStep_regRead s 0x00C rfl,
    hostStep_regRead s 0x010 rfl, hostStep_regRead s 0x014 rfl, hostStep_regRead s 0x018 rfl,
    ⟨s.sponge.ijkz, hostStep_regRead s 0x01C rfl, extract_append_bytes _ _ _ _⟩,
    ⟨s.sponge.aw, hostStep_regRead s 0x020 rfl, ?_⟩, fun off m b hm hb hoff => ?_⟩
  · rw [hostStep_regWrite s off v halign, writeReg_readOnly s v halign hoff]
  · rw [aw_eq_commandWord]
    exact ⟨opOf_commandWord _ _, imm8Of_commandWord _ _, rsvOf_commandWord _ _⟩
  · have hr : regAt off.toNat = .spS ⟨m, hm⟩ := hoff ▸ regAt_spS ⟨m, hm⟩
    refine ⟨s.sponge.window ⟨m, hm⟩, ?_, window_byte s.sponge ⟨m, hm⟩ hb⟩
    rw [hostStep_regRead s off (by omega), hr]
    rfl

/-- Settles O11, by the bytes that a write stores and a read collects. -/
theorem hostMemoryAccessesAreLittleEndian : Obligations.HostMemoryAccessesAreLittleEndian := by
  unfold Obligations.HostMemoryAccessesAreLittleEndian
  intro s addr v size halign hroom
  have hwrite := hostStep_memWrite s addr v size halign hroom
  refine ⟨⟨_, hwrite, rfl, fun k hk => ?_, fun a ha => ?_, ?_⟩,
    _, _, hostStep_memRead s addr size halign hroom, ?_, fun k b hk hb => ?_⟩
  · dsimp only
    rw [memory_read_writeBytes, bytesLe_length, if_pos (by omega), Nat.add_sub_cancel_left, bytesLe_get _ _ _ hk]
  · dsimp only
    rw [memory_read_writeBytes, bytesLe_length, if_neg (by omega)]
  · exact hostStep_memRead_of_memWrite halign hroom hwrite
  · have hlt := wordLe_lt (memRead s.dmem addr.toNat (accessBytes size) s.draws).1
    rwa [memRead_length] at hlt
  · exact wordLe_byte (lt_of_lt_of_le hk (accessBytes_le size)) (memRead_written _ _ _ _ _ _ hk hb)

end Sys2Proof.Proofs
end

section
/-! PROOFS. DMEM and its checks (R82, R84 to R86): the accesses that have no step, the operand checks that come before
a command's work, and the bytes that a command may change. -/

namespace Sys2Proof.Machine

/-! ### The host's accesses -/

/-- An access that R82 does not allow has no step (R384). -/
theorem hostStep_of_not_allowed {s : State} {a : HostAccess} (h : ¬ accessAllowed s a = true) :
    hostStep a s = .refused .hostAccessViolation := by
  rw [hostStep, if_neg h]

/-- R82 allows a read of REG by aligned words only, and judges a write alike. -/
theorem accessAllowed_reg_iff (s : State) (off : BitVec 12) (size : AccessSize) (v : Word) :
    (accessAllowed s (.regRead off size) = true ↔ size = .word ∧ off.toNat % 4 = 0) ∧
      accessAllowed s (.regWrite off size v) = accessAllowed s (.regRead off size) :=
  ⟨by simp only [accessAllowed, Bool.and_eq_true, decide_eq_true_eq], rfl⟩

/-- R82 allows a read of DMEM aligned to its size and below DMEM_BYTES, and judges a write alike. -/
theorem accessAllowed_mem_iff (s : State) (addr : Word) (size : AccessSize) (v : Word) :
    (accessAllowed s (.memRead addr size) = true ↔
        addr.toNat % accessBytes size = 0 ∧ addr.toNat + accessBytes size ≤ s.params.dmemBytes) ∧
      accessAllowed s (.memWrite addr size v) = accessAllowed s (.memRead addr size) :=
  ⟨by simp only [accessAllowed, Bool.and_eq_true, decide_eq_true_eq], rfl⟩

/-! ### The operand checks -/

/-- With no operand there is nothing to check. -/
theorem withOperands_nil (s : State) (body : StepOutcome) : withOperands s [] [] body = body := rfl

/-- Every command is one over the operands of its row (R115). -/
theorem exec_eq_withOperands (i : Instr) (s : State) :
    ∃ body, exec i s = withOperands s (sources i) (destinations i) body := by
  cases i with
  | nop | spInit | spAbsorbImm | spAbsorbStop | spShuffle | spDrip | krClear => exact ⟨_, (withOperands_nil s _).symm⟩
  | spAbsorb | spSqueeze | hash | keyid | aeadSeal | aeadOpen | b85Enc | b85Dec | krLoad | krLookup | frameAad
  | frameSeal | frameParse => exact ⟨_, rfl⟩

/-- An operand check that fails is the end of the command, and nothing else changes (R346, R347). -/
theorem exec_of_operandError {i : Instr} {s : State} {e : ErrorKind}
    (h : operandError s (sources i) (destinations i) = some e) : exec i s = .next (errorEnd s e) := by
  obtain ⟨body, hbody⟩ := exec_eq_withOperands i s
  rw [hbody, withOperands, h, ← raise_eq_errorEnd]

/-- A region that fails its check is found before any overlap (R84, R346). -/
theorem operandError_of_not_inDmem {s : State} {srcs dsts : List (Fin 8)} (h : ∃ n ∈ srcs ++ dsts, ¬ InDmem s n) :
    operandError s srcs dsts = some .addressRange := by
  obtain ⟨n, hn, hout⟩ := h
  rcases operandError_cases s srcs dsts with ⟨he, -⟩ | ⟨-, hin, -⟩ | ⟨-, hin, -⟩
  · exact he
  · exact absurd (hin n hn) hout
  · exact absurd (hin n hn) hout

/-- With every region in range, a destination that overlaps a source or another destination is found (R85, R346). -/
theorem operandError_of_not_apart {s : State} {srcs dsts : List (Fin 8)} (hin : ∀ n ∈ srcs ++ dsts, InDmem s n)
    (h : (∃ d ∈ dsts, ∃ m ∈ srcs, ¬ Apart s d m) ∨ (∃ d ∈ dsts, ∃ e ∈ dsts, d ≠ e ∧ ¬ Apart s d e)) :
    operandError s srcs dsts = some .overlap := by
  rcases operandError_cases s srcs dsts with ⟨-, n, hn, hout⟩ | ⟨he, -⟩ | ⟨-, -, hsrc, hdst⟩
  · exact absurd (hin n hn) hout
  · exact he
  · obtain ⟨d, hd, m, hm, hshare⟩ | ⟨d, hd, e, he, hne, hshare⟩ := h
    · exact absurd (hsrc d hd m hm) hshare
    · exact absurd (hdst d hd e he hne) hshare

/-! ### The bytes a command may change -/

/-- A byte that fitting writes change lies in the region of a destination: a write stays in the room of its region
(R84, R86). -/
theorem Fits.inRegion_of_read_ne {s : State} {i : Instr} {ws : List (Fin 8 × Bytes)} (hfit : Fits s i ws) {a : Nat}
    (h : (s.commit ws).dmem.read a ≠ s.dmem.read a) : ∃ d ∈ destinations i, InRegion s d a := by
  by_contra hout
  refine h (commit_read_outside s ws a fun w hw ⟨hlo, hhi⟩ => hout ?_)
  obtain ⟨hdest, -, hroom⟩ := hfit w hw
  exact ⟨w.1, hdest, hlo, by omega⟩

/-- However a command ends, a byte that it changed lies in the region of a destination (R84, R86): the errors write
nothing, but for the header FRAME_PARSE returns, and the writes of a success fit. -/
theorem Ends.inRegion_of_read_ne {s t : State} {i : Instr} (hends : Ends s i t) {a : Nat}
    (h : t.dmem.read a ≠ s.dmem.read a) : ∃ d ∈ destinations i, InRegion s d a := by
  cases hends with
  | refused | authFailed | loadFailed => exact absurd rfl h
  | headerReturned _ _ hfit => exact hfit.inRegion_of_read_ne h
  | succeeded _ hfit => exact hfit.inRegion_of_read_ne h

end Sys2Proof.Machine

namespace Sys2Proof.Proofs

open Sys2Proof.Machine

/-- Settles O51: every command is one over its operands, and the checks answer in the order of R346. -/
theorem operandChecksComeFirst : Obligations.OperandChecksComeFirst := by
  unfold Obligations.OperandChecksComeFirst
  exact fun i s => ⟨fun hout => exec_of_operandError (operandError_of_not_inDmem hout),
    fun hin hshare => exec_of_operandError (operandError_of_not_apart hin hshare)⟩

/-- Settles O56, by the ways a command ends. -/
theorem onlyDestinationsAreWritten : Obligations.OnlyDestinationsAreWritten := by
  unfold Obligations.OnlyDestinationsAreWritten
  exact fun i s t a h hne => (exec_ends h).inRegion_of_read_ne hne

/-- Settles O12: none of these accesses is one that R82 allows. -/
theorem accessViolationsHaveNoStep : Obligations.AccessViolationsHaveNoStep := by
  unfold Obligations.AccessViolationsHaveNoStep
  intro s size off addr v
  obtain ⟨hreg, hregWrite⟩ := accessAllowed_reg_iff s off size v
  obtain ⟨hmem, hmemWrite⟩ := accessAllowed_mem_iff s addr size v
  refine ⟨fun hbad => ?_, fun hbad => ?_⟩
  · have hno : ¬ accessAllowed s (.regRead off size) = true := by
      rw [hreg]
      tauto
    exact ⟨hostStep_of_not_allowed hno, hostStep_of_not_allowed (hregWrite ▸ hno)⟩
  · have hno : ¬ accessAllowed s (.memRead addr size) = true := by
      rw [hmem]
      omega
    exact ⟨hostStep_of_not_allowed hno, hostStep_of_not_allowed (hmemWrite ▸ hno)⟩

end Sys2Proof.Proofs
end

section
/-! PROOFS. Command words (R110 to R118): the opcode map as the decoder and the encoder both read it, every outcome of
the decode checks, and the turn that runs a word. -/

namespace Sys2Proof.Machine

/-! ### The opcode map -/

/-- A row of the opcode map agrees with the encoder about `op`: whether IMM8 is an operand, and the words of the row's
commands (R115). -/
def RowAgrees (op : Byte) : OpRow → Prop
  | .plain i => ¬ TakesImm8 op ∧ encode i = commandWord op 0
  | .immediate mk => TakesImm8 op ∧ ∀ b, encode (mk b) = commandWord op b

theorem opcodeRow_agrees {op : Byte} {row : OpRow} (h : opcodeRow op = some row) : RowAgrees op row := by
  have hop : op = BitVec.ofNat 8 op.toNat := by simp
  unfold opcodeRow at h
  generalize op.toNat = n at hop h
  subst hop
  split at h <;> cases h <;> simp [RowAgrees, TakesImm8, encode]

/-- The OPs without a row are those R116 lists. -/
theorem opcodeRow_eq_none_iff (op : Byte) : opcodeRow op = none ↔ IllegalOp op := by
  have hlt : op.toNat < 256 := op.isLt
  unfold opcodeRow IllegalOp
  split
  case h_21 => exact ⟨fun _ => by grind, fun _ => rfl⟩ -- the OPs that no row names
  all_goals exact ⟨nofun, fun _ => by omega⟩

theorem exists_opcodeRow {op : Byte} (h : ¬ IllegalOp op) : ∃ row, opcodeRow op = some row :=
  Option.ne_none_iff_exists'.1 (mt (opcodeRow_eq_none_iff op).1 h)

/-! ### The outcomes of the decode checks, in their order -/

theorem decode_of_illegalOp {c : Word} (h : IllegalOp (opOf c)) : decode c = .error .illegalCommand := by
  rw [decode, (opcodeRow_eq_none_iff _).2 h]

/-- A legal OP with a field that must be 0 and is not (R117). -/
theorem decode_of_reserved {c : Word} (hop : ¬ IllegalOp (opOf c))
    (h : rsvOf c ≠ 0 ∨ (¬ TakesImm8 (opOf c) ∧ imm8Of c ≠ 0)) : decode c = .error .reservedField := by
  obtain ⟨row, hrow⟩ := exists_opcodeRow hop
  simp only [decode, hrow]
  split
  · rfl
  · next hrsv =>
    obtain ⟨hno, himm⟩ := h.resolve_left hrsv
    cases row with
    | plain i => exact if_pos himm
    | immediate mk => exact absurd (opcodeRow_agrees hrow).1 hno

/-- A word that passes the three checks is the word of the command it decodes to (R115, R118). -/
theorem decode_of_fields {c : Word} (hop : ¬ IllegalOp (opOf c)) (hrsv : rsvOf c = 0)
    (himm : TakesImm8 (opOf c) ∨ imm8Of c = 0) : ∃ i, c = encode i ∧ decode c = .ok i := by
  obtain ⟨row, hrow⟩ := exists_opcodeRow hop
  have hword := commandWord_of_fields c hrsv
  cases row with
  | plain i =>
    obtain ⟨hno, henc⟩ := opcodeRow_agrees hrow
    have hzero := himm.resolve_left hno
    exact ⟨i, by rw [henc, ← hzero, ← hword], by simp [decode, hrow, hrsv, hzero]⟩
  | immediate mk =>
    obtain ⟨-, henc⟩ := opcodeRow_agrees hrow
    exact ⟨mk (imm8Of c), by rw [henc, ← hword], by simp [decode, hrow, hrsv]⟩

/-! ### Decoding and encoding -/

theorem decode_commandWord_plain {op : Byte} {i : Instr} (h : opcodeRow op = some (.plain i)) :
    decode (commandWord op 0) = .ok i := by
  simp [decode, h]

theorem decode_commandWord_immediate {op : Byte} {mk : Byte → Instr} (h : opcodeRow op = some (.immediate mk))
    (b : Byte) : decode (commandWord op b) = .ok (mk b) := by
  simp [decode, h]

@[simp] theorem decode_encode (i : Instr) : decode (encode i) = .ok i := by
  cases i with
  | spAbsorbImm b | hash b | aeadSeal b | aeadOpen b => exact decode_commandWord_immediate rfl b
  | _ => exact decode_commandWord_plain rfl

/-- A word that decodes is the word of its command: each word that is of no command fails a check. -/
theorem eq_encode_of_decode {c : Word} {i : Instr} (h : decode c = .ok i) : c = encode i := by
  have hop : ¬ IllegalOp (opOf c) := fun hill => nomatch (decode_of_illegalOp hill).symm.trans h
  have hfields : ¬ (rsvOf c ≠ 0 ∨ (¬ TakesImm8 (opOf c) ∧ imm8Of c ≠ 0)) := fun hres =>
    nomatch (decode_of_reserved hop hres).symm.trans h
  obtain ⟨i', hc, hi'⟩ := decode_of_fields hop (by tauto) (by tauto)
  rw [h] at hi'
  cases hi'
  exact hc

/-! ### The turn of a pending word -/

/-- On the engine's turn the step is the engine's, from the state with the turn spent (R30, R88; log entry 3). -/
theorem step_of_engine_turn {s u : State} {rest : List Turn}
    (h : (s.agenda = .engine :: rest ∧ u = { s with agenda := rest }) ∨ (s.agenda = [] ∧ u = s)) :
    step s = engineStep u ∧ u.pend = s.pend := by
  rcases h with ⟨hag, rfl⟩ | ⟨hag, rfl⟩
  · exact ⟨step_of_agenda_engine hag, rfl⟩
  · exact ⟨step_of_agenda_nil hag, rfl⟩

/-- A failed decode check ends the command with its error and changes nothing else (R116, R117, R345). -/
theorem engineStep_of_decode_error {s : State} {c : Word} {e : DecodeError} (hc : s.pend = some c)
    (he : decode c = .error e) : engineStep s = .next (errorEnd s (decodeErrorKind e)) := by
  simp only [engineStep, hc, he, raise_eq_errorEnd]

end Sys2Proof.Machine

namespace Sys2Proof.Proofs

open Sys2Proof.Machine

/-- Settles O1: a word that passes the decode checks is put together from its fields, and so is the word of every
command. -/
theorem decodeAndEncodeAgree : Obligations.DecodeAndEncodeAgree := by
  unfold Obligations.DecodeAndEncodeAgree
  exact fun c i => ⟨eq_encode_of_decode, fun hc => hc ▸ decode_encode i⟩

/-- Settles O2, by the three outcomes of the decode checks. -/
theorem everyWordHasOneOutcome : Obligations.EveryWordHasOneOutcome := by
  unfold Obligations.EveryWordHasOneOutcome
  intro s u rest c hpend hturn
  obtain ⟨hstep, hu⟩ := step_of_engine_turn hturn
  rw [hpend] at hu
  rw [hstep]
  refine ⟨fun hill => ?_, fun hop hres => ?_, fun hop hrsv himm => ?_⟩
  · exact engineStep_of_decode_error hu (decode_of_illegalOp hill)
  · exact engineStep_of_decode_error hu (decode_of_reserved hop hres)
  · obtain ⟨i, hc, hi⟩ := decode_of_fields hop hrsv himm
    exact ⟨i, hc, engineStep_of_decode_ok hu hi⟩

/-- Settles O3: each word is the word of its command. -/
theorem wordsOfTheOpcodeMapDecode : Obligations.WordsOfTheOpcodeMapDecode := by
  unfold Obligations.WordsOfTheOpcodeMapDecode
  exact ⟨decode_encode .nop, decode_encode (.spAbsorbImm 0x5A), decode_encode (.hash 8),
    decode_encode (.aeadSeal 32), decode_encode .b85Dec, decode_encode .krLookup, decode_encode .frameParse⟩

end Sys2Proof.Proofs
end

section
/-! PROOFS. The permutation sponge (R150 to R164): what one move of each procedure does to the entries of S and to the
indices. -/

namespace Sys2Proof.Machine

/-! ### Swaps and the moves made of them -/

theorem swap_at_left (g : Sponge) (p q : Byte) : (g.swap p q).at p = g.at q := by
  rw [swap_at_eq_comp, Function.comp_apply, Equiv.swap_apply_left]

theorem swap_at_right (g : Sponge) (p q : Byte) : (g.swap p q).at q = g.at p := by
  rw [swap_at_eq_comp, Function.comp_apply, Equiv.swap_apply_right]

theorem swap_at_of_ne (g : Sponge) {p q r : Byte} (hp : r ≠ p) (hq : r ≠ q) : (g.swap p q).at r = g.at r := by
  rw [swap_at_eq_comp, Function.comp_apply, Equiv.swap_apply_of_ne_of_ne hp hq]

/-- Update exchanges the entries at its new `i` and `j` (R151). -/
theorem update_at_i (g : Sponge) : (update g).at (update g).i = g.at (update g).j := swap_at_left _ _ _

theorem update_at_j (g : Sponge) : (update g).at (update g).j = g.at (update g).i := swap_at_right _ _ _

theorem update_at_of_ne (g : Sponge) {p : Byte} (hi : p ≠ (update g).i) (hj : p ≠ (update g).j) :
    (update g).at p = g.at p :=
  swap_at_of_ne _ hi hj

/-! ### Rearrangements of S -/

theorem Rearranges.refl (g : Sponge) : Rearranges g g := ⟨id, Function.bijective_id, fun _ => rfl⟩

theorem Rearranges.trans {f g h : Sponge} (hfg : Rearranges f g) (hgh : Rearranges g h) : Rearranges f h := by
  obtain ⟨p, hp, hg⟩ := hfg
  obtain ⟨q, hq, hh⟩ := hgh
  exact ⟨p ∘ q, hp.comp hq, fun r => (hh r).trans (hg (q r))⟩

/-- Only S matters to a rearrangement. -/
theorem Rearranges.with_a {g h : Sponge} (hgh : Rearranges g h) (a : Byte) : Rearranges g { h with a := a } := hgh

theorem rearranges_swap (g : Sponge) (p q : Byte) : Rearranges g (g.swap p q) :=
  ⟨Equiv.swap p q, Equiv.bijective _, fun r => congrFun (swap_at_eq_comp g p q) r⟩

theorem rearranges_update (g : Sponge) : Rearranges g (update g) :=
  rearranges_swap { g with i := (update g).i, j := (update g).j, k := (update g).k } _ _

theorem rearranges_updates (r : Nat) (g : Sponge) : Rearranges g (updates r g) := by
  induction r generalizing g with
  | zero => exact .refl g
  | succ r ih => exact (rearranges_update g).trans (ih (update g))

theorem rearranges_whip (r : Nat) (g : Sponge) : Rearranges g (whip r g) := rearranges_updates r g

theorem rearranges_crushAt (g : Sponge) (v : Nat) : Rearranges g (crushAt g v) := by
  rcases crushAt_cases g v with hv | hv <;> rw [hv]
  · exact .refl g
  · exact rearranges_swap g _ _

theorem rearranges_crush (g : Sponge) : Rearranges g (crush g) :=
  List.foldlRecOn (motive := Rearranges g) _ _ (.refl g) fun h hh v _ => hh.trans (rearranges_crushAt h v)

/-! ### Whip, Crush and Shuffle -/

theorem coprime_256_iff_odd (n : Nat) : Nat.gcd n 256 = 1 ↔ n % 2 = 1 := by
  change Nat.Coprime n (2 ^ 8) ↔ n % 2 = 1
  rw [Nat.coprime_pow_right_iff (by decide), Nat.coprime_two_right, Nat.odd_iff]

theorem nextW_toNat (w : Byte) : (nextW w).toNat = (w.toNat + 2) % 256 := BitVec.toNat_add _ _

/-- Whips in a row, of whatever lengths, raise w by 2 each (R155). -/
theorem whips_w (rs : List Nat) (g : Sponge) :
    (rs.foldl (fun g r => whip r g) g).w.toNat = (g.w.toNat + 2 * rs.length) % 256 := by
  induction rs generalizing g with
  | nil => exact (Nat.mod_eq_of_lt g.w.isLt).symm
  | cons r rs ih =>
    rw [List.foldl_cons, ih, whip_w, nextW_toNat, List.length_cons]
    omega

@[simp] theorem crush_w (g : Sponge) : (crush g).w = g.w := by rw [crush_fields]

@[simp] theorem crush_z (g : Sponge) : (crush g).z = g.z := by rw [crush_fields]

/-- The three whips of a shuffle raise w by 6 (R156). -/
theorem shuffle_w (g : Sponge) : (shuffle g).w = g.w + 6 := by
  rw [shuffle_eq]
  simp only [whip_w, crush_w, nextW]
  bv_omega

theorem shuffle_z (g : Sponge) : (shuffle g).z = g.z := by
  -- Stated of any `f`: the same equation of the shuffle itself is checked by running its whips.
  have hz : ∀ f : Sponge, ({ f with a := 0 } : Sponge).z = f.z := fun _ => rfl
  rw [shuffle_eq, hz, whip_z, crush_z, whip_z, crush_z, whip_z]

theorem rearranges_shuffle (g : Sponge) : Rearranges g (shuffle g) := by
  rw [shuffle_eq]
  exact (rearranges_whip 512 g).trans (rearranges_crush _) |>.trans (rearranges_whip 512 _)
    |>.trans (rearranges_crush _) |>.trans (rearranges_whip 512 _) |>.with_a 0

/-! ### Absorbing -/

theorem nibbleAbsorbed_absorbNibble (g : Sponge) (x : Byte) : NibbleAbsorbed g x (absorbNibble g x) := by
  unfold NibbleAbsorbed absorbNibble
  generalize (if g.a = 128 then shuffle g else g) = f
  exact ⟨rfl, rfl, rfl, rfl, rfl, rfl, swap_at_left f _ _, swap_at_right f _ _, fun _ ha hx => swap_at_of_ne f ha hx⟩

/-- A byte is absorbed as two nibbles, the low one first (R157). -/
theorem absorbByte_nibbles (g : Sponge) (b : Byte) :
    ∃ h, NibbleAbsorbed g (b % 16) h ∧ NibbleAbsorbed h (b / 16) (absorbByte g b) :=
  ⟨_, nibbleAbsorbed_absorbNibble g _, nibbleAbsorbed_absorbNibble _ _⟩

theorem absorb_nil (g : Sponge) : absorb g [] = g := rfl

theorem absorb_cons (g : Sponge) (b : Byte) (bs : Bytes) : absorb g (b :: bs) = absorb (absorbByte g b) bs := rfl

theorem absorbStop_of_ne {g : Sponge} (h : g.a ≠ 128) : absorbStop g = { g with a := g.a + 1 } := by
  simp only [absorbStop, if_neg h]

theorem absorbStop_of_full {g : Sponge} (h : g.a = 128) : absorbStop g = { shuffle g with a := 1 } := by
  simp only [absorbStop, if_pos h, shuffle_a, zero_add]

/-! ### Squeezing -/

theorem settle_settle (g : Sponge) : settle (settle g) = settle g := settle_of_zero _ (settle_a g)

theorem drip_a (g : Sponge) : (drip g).2.a = 0 := settle_a g

/-- A shuffle made before a Drip is the one the Drip would make (R164). -/
theorem drip_settle (g : Sponge) : drip (settle g) = drip g := by
  simp only [drip, settle_settle]

theorem squeeze_zero (g : Sponge) : squeeze 0 g = ([], settle g) := rfl

/-- The opening shuffle is the first Drip's, and after it no Drip shuffles (R164). -/
theorem squeeze_succ (r : Nat) (g : Sponge) :
    squeeze (r + 1) g = ((drip g).1 :: (squeeze r (drip g).2).1, (squeeze r (drip g).2).2) := by
  have hrest : squeeze r (drip g).2 = drips r (drip g).2 := by rw [squeeze, settle_of_zero _ (drip_a g)]
  rw [hrest, squeeze, drips, drip_settle]

theorem squeeze_one (g : Sponge) : squeeze 1 g = ([(drip g).1], (drip g).2) := by
  rw [squeeze_succ, squeeze_zero, settle_of_zero _ (drip_a g)]

/-- One Update and one Output from `f`, entry by entry: the byte is the new z, and only the entries at the new `i` and
`j` have moved (R151, R152). -/
theorem output_update_eqs (f : Sponge) {g : Sponge} (h : g = output (update f)) :
    g.i = f.i + f.w ∧ g.j = f.k + f.at (f.j + f.at g.i) ∧ g.k = g.i + f.k + f.at g.j ∧
      g.at g.i = f.at g.j ∧ g.at g.j = f.at g.i ∧ (∀ p, p ≠ g.i → p ≠ g.j → g.at p = f.at p) ∧
      g.z = g.at (g.j + g.at (g.i + g.at (f.z + g.k))) ∧ g.w = f.w := by
  subst h
  simp only [output_i, output_j, output_k, output_w, output_at, output_z, update_z, true_and]
  exact ⟨update_i f, update_j f, update_k f, update_at_i f, update_at_j f, fun _ hi hj => update_at_of_ne f hi hj,
    update_w f⟩

/-! ### The primitive commands -/

/-- The completion of a primitive command that writes no memory (R170 to R176, R349). -/
theorem setSponge_complete_nil (s : State) (g : Sponge) (r0 r1 : Word) :
    (s.setSponge g).complete r0 r1 [] =
      { s with pend := none, done := true, ecode := 0, res0 := r0, res1 := r1, sponge := g } := rfl

theorem exec_spAbsorb_ok {s : State} (ok : OperandsOk s .spAbsorb) :
    exec .spAbsorb s =
      .next { s.afterRead 0 with
        pend := none, done := true, ecode := 0, res0 := 0, res1 := 0, sponge := absorb s.sponge (s.region 0) } :=
  (withOperands_ok s .spAbsorb _ ok).trans (congrArg Host.Outcome.next (setSponge_complete_nil _ _ 0 0))

theorem exec_spAbsorbImm (s : State) (b : Byte) :
    exec (.spAbsorbImm b) s =
      .next { s with
        pend := none, done := true, ecode := 0, res0 := 0, res1 := 0, sponge := absorbByte s.sponge b } :=
  congrArg Host.Outcome.next (setSponge_complete_nil s _ 0 0)

theorem exec_spAbsorbStop (s : State) :
    exec .spAbsorbStop s =
      .next { s with
        pend := none, done := true, ecode := 0, res0 := 0, res1 := 0, sponge := absorbStop s.sponge } :=
  congrArg Host.Outcome.next (setSponge_complete_nil s _ 0 0)

theorem exec_spShuffle (s : State) :
    exec .spShuffle s =
      .next { s with
        pend := none, done := true, ecode := 0, res0 := 0, res1 := 0, sponge := shuffle s.sponge } :=
  congrArg Host.Outcome.next (setSponge_complete_nil s _ 0 0)

theorem exec_spSqueeze_ok {s : State} (ok : OperandsOk s .spSqueeze) :
    exec .spSqueeze s =
      .next ((s.setSponge (squeeze (s.regionLen 0) s.sponge).2).complete s.desc[0].len 0
        [(0, (squeeze (s.regionLen 0) s.sponge).1)]) := by
  have hlen : BitVec.ofNat 32 (s.regionLen 0) = s.desc[0].len := by simp [State.regionLen]
  rw [← hlen]
  exact withOperands_ok s .spSqueeze _ ok

theorem exec_spDrip (s : State) :
    exec .spDrip s =
      .next { s with
        pend := none, done := true, ecode := 0, res0 := BitVec.ofNat 32 (drip s.sponge).1.toNat, res1 := 0,
        sponge := (drip s.sponge).2 } := by
  rw [BitVec.ofNat_toNat]
  exact congrArg Host.Outcome.next (setSponge_complete_nil s _ _ 0)

end Sys2Proof.Machine

namespace Sys2Proof.Proofs

open Sys2Proof.Machine

/-- Settles O14: 256 is a power of 2, so odd is coprime to it; the whips by induction on their list. -/
theorem whipAdvancesTheStepSize : Obligations.WhipAdvancesTheStepSize := by
  unfold Obligations.WhipAdvancesTheStepSize
  refine ⟨fun w => coprime_256_iff_odd _, fun w hodd => ⟨nextW_toNat w, ?_, ?_⟩, fun rs => whips_w rs Sponge.init⟩
  · rw [Ne, coprime_256_iff_odd, BitVec.toNat_add]
    simp only [BitVec.ofNat_eq_ofNat, BitVec.toNat_ofNat]
    omega
  · rw [coprime_256_iff_odd, nextW_toNat]
    omega

/-- Settles O15: the opening shuffle of a squeeze is the one its first Drip makes. -/
theorem squeezeIsSuccessiveDrips : Obligations.SqueezeIsSuccessiveDrips := by
  unfold Obligations.SqueezeIsSuccessiveDrips
  exact fun g r => ⟨squeeze_succ r g, squeeze_one g, drip_a g, rfl, settle_a g⟩

/-- Settles O17: the bytes absorbed are those a read of D0 gives, and the read changes no byte. -/
theorem spAbsorbAbsorbsTheRegion : Obligations.SpAbsorbAbsorbsTheRegion := by
  unfold Obligations.SpAbsorbAbsorbsTheRegion
  intro s ok
  refine ⟨s.region 0, _, region_mayRead s 0, exec_spAbsorb_ok ok, rfl, rfl, fun b rest hM => ?_, fun hM => ?_⟩
  · obtain ⟨g, hlow, hhigh⟩ := absorbByte_nibbles s.sponge b
    exact ⟨g, _, hlow, hhigh, by rw [hM, absorb_cons]⟩
  · rw [hM, absorb_nil]

/-- Settles O18: the command absorbs one byte, which is two nibbles. -/
theorem spAbsorbImmAbsorbsTwoNibbles : Obligations.SpAbsorbImmAbsorbsTwoNibbles := by
  unfold Obligations.SpAbsorbImmAbsorbsTwoNibbles
  intro s b
  obtain ⟨g, hlow, hhigh⟩ := absorbByte_nibbles s.sponge b
  exact ⟨g, _, exec_spAbsorbImm s b, hlow, hhigh⟩

/-- Settles O19, by whether every position is taken. -/
theorem spAbsorbStopTakesOnePosition : Obligations.SpAbsorbStopTakesOnePosition := by
  unfold Obligations.SpAbsorbStopTakesOnePosition
  intro s
  refine ⟨_, exec_spAbsorbStop s, absorbStop_of_ne, fun hfull => ?_⟩
  rw [absorbStop_of_full hfull]
  exact ⟨rfl, rfl⟩

/-- Settles O20: a shuffle is made of swaps, its three whips raise w by 2 each. -/
theorem spShuffleShufflesAlways : Obligations.SpShuffleShufflesAlways := by
  unfold Obligations.SpShuffleShufflesAlways
  exact fun s => ⟨_, shuffle s.sponge, exec_spShuffle s, rfl, shuffle_eq _, rearranges_shuffle _, shuffle_w _,
    shuffle_z _⟩

/-- Settles O21: the one write of the completion is the squeezed bytes at D0. -/
theorem spSqueezeWritesKeystream : Obligations.SpSqueezeWritesKeystream := by
  unfold Obligations.SpSqueezeWritesKeystream
  intro s ok
  exact ⟨_, exec_spSqueeze_ok ok, rfl, rfl, stored_commit s 0 _, squeeze_length _ _⟩

/-- Settles O22: a Drip is an Update and an Output from the settled state, and Squeeze(1) is a Drip. -/
theorem spDripIsAOneByteSqueeze : Obligations.SpDripIsAOneByteSqueeze := by
  unfold Obligations.SpDripIsAOneByteSqueeze
  intro s
  refine ⟨_, _, exec_spDrip s, ?_, fun hlen ok => ⟨_, exec_spSqueeze_ok ok, ?_⟩⟩
  · obtain ⟨hi, hj, hk, hati, hatj, hat, hz, hw⟩ := output_update_eqs (settle s.sponge) (g := (drip s.sponge).2) rfl
    exact ⟨settle s.sponge, settle_eq _, hi, hj, hk, hati, hatj, hat, hz, rfl, drip_a _, hw⟩
  · have hone : s.regionLen 0 = 1 := congrArg BitVec.toNat hlen
    rw [hone, squeeze_one]
    exact ⟨rfl, stored_commit s 0 _⟩

end Sys2Proof.Proofs
end

section
/-! PROOFS. HASH and KEYID (R190 to R193), and the length checks that end a command before its work (R191, R193, R213,
R214, R257, R347). -/

namespace Sys2Proof.Machine

/-! ### HASH and KEYID with room for their output -/

/-- HASH of a region, with room for the digest (R191, R348): RES0 is the length, the one write is the digest. -/
theorem exec_hash_ok {s : State} {r : Byte} (ok : OperandsOk s (.hash r)) (hroom : r.toNat ≤ s.regionLen 1) :
    exec (.hash r) s =
      .next ((s.afterRead 0).complete (BitVec.ofNat 32 r.toNat) 0 [(1, spritzHash (s.region 0) r)]).scrub := by
  rw [BitVec.ofNat_toNat]
  exact (withOperands_ok s (.hash r) _ ok).trans (if_neg (Nat.not_lt.2 hroom))

/-- KEYID of a region, with room for the 10 symbols (R193, R348): the one write is the key's identifier text. -/
theorem exec_keyid_ok {s : State} (ok : OperandsOk s .keyid) (hroom : 10 ≤ s.regionLen 1) :
    exec .keyid s =
      .next ((s.afterRead 0).complete 10 0 [(1, keyIdText s.params.b85Variant (s.region 0))]).scrub :=
  (withOperands_ok s .keyid _ ok).trans (if_neg (Nat.not_lt.2 hroom))

/-! ### Length checks that fail

With the operands in order a command comes to its length checks, and the first that fails is its end. -/

theorem exec_hash_of_no_room {s : State} {r : Byte} (ok : OperandsOk s (.hash r)) (hroom : s.regionLen 1 < r.toNat) :
    exec (.hash r) s = .next (errorEnd s .destTooSmall) :=
  (withOperands_ok s (.hash r) _ ok).trans (if_pos hroom)

theorem exec_keyid_of_no_room {s : State} (ok : OperandsOk s .keyid) (hroom : s.regionLen 1 < 10) :
    exec .keyid s = .next (errorEnd s .destTooSmall) :=
  (withOperands_ok s .keyid _ ok).trans (if_pos hroom)

theorem exec_aeadSeal_of_bad_nonce {s : State} {r : Byte} (ok : OperandsOk s (.aeadSeal r))
    (hnonce : s.regionLen 1 ≠ 12) : exec (.aeadSeal r) s = .next (errorEnd s .badLength) :=
  (withOperands_ok s (.aeadSeal r) _ ok).trans (if_pos hnonce)

theorem exec_aeadSeal_of_no_room {s : State} {r : Byte} (ok : OperandsOk s (.aeadSeal r))
    (hnonce : s.regionLen 1 = 12) (hroom : s.regionLen 4 < s.regionLen 3 + r.toNat) :
    exec (.aeadSeal r) s = .next (errorEnd s .destTooSmall) :=
  (withOperands_ok s (.aeadSeal r) _ ok).trans ((if_neg (not_not.2 hnonce)).trans (if_pos hroom))

theorem exec_aeadOpen_of_bad_nonce {s : State} {r : Byte} (ok : OperandsOk s (.aeadOpen r))
    (hnonce : s.regionLen 1 ≠ 12) : exec (.aeadOpen r) s = .next (errorEnd s .badLength) :=
  (withOperands_ok s (.aeadOpen r) _ ok).trans (if_pos hnonce)

/-- An input with more bytes before its tag than the room is long enough to hold the tag, so the room check of R214
applies to it. -/
theorem exec_aeadOpen_of_no_room {s : State} {r : Byte} (ok : OperandsOk s (.aeadOpen r))
    (hnonce : s.regionLen 1 = 12) (hroom : s.regionLen 4 + r.toNat < s.regionLen 3) :
    exec (.aeadOpen r) s = .next (errorEnd s .destTooSmall) := by
  have hcheck : s.regionLen 3 ≥ r.toNat ∧ s.regionLen 3 - r.toNat > s.regionLen 4 := by omega
  exact (withOperands_ok s (.aeadOpen r) _ ok).trans ((if_neg (not_not.2 hnonce)).trans (if_pos hcheck))

theorem exec_b85Enc_of_no_room {s : State} (ok : OperandsOk s .b85Enc)
    (hroom : s.regionLen 1 < encodedLength (s.regionLen 0)) :
    exec .b85Enc s = .next (errorEnd s .destTooSmall) :=
  (withOperands_ok s .b85Enc _ ok).trans (if_pos hroom)

end Sys2Proof.Machine

namespace Sys2Proof.Proofs

open Sys2Proof.Machine

/-- Settles O23: the message is what a read of D0 gives, and the one write of the completion is its digest at D1. -/
theorem hashWritesTheDigest : Obligations.HashWritesTheDigest := by
  unfold Obligations.HashWritesTheDigest
  intro s r ok hroom
  exact ⟨s.region 0, _, region_mayRead s 0, exec_hash_ok ok hroom, succeeds_complete_scrub s _ _ _ _,
    (stored_complete s _ _ _ 1 (spritzHash (s.region 0) r)).2, spritzHash_length _ r⟩

/-- Settles O24: the key is what a read of D0 gives, and the one write of the completion is its text at D1. -/
theorem keyidWritesTheKeyIdText : Obligations.KeyidWritesTheKeyIdText := by
  unfold Obligations.KeyidWritesTheKeyIdText
  intro s ok hroom
  exact ⟨s.region 0, _, region_mayRead s 0, exec_keyid_ok ok hroom, succeeds_complete_scrub s _ _ _ _,
    (stored_complete s _ _ _ 1 (keyIdText s.params.b85Variant (s.region 0))).2, keyIdText_length _ _⟩

/-- Settles O52, one length check of one command at a time. -/
theorem lengthChecksEndTheCommand : Obligations.LengthChecksEndTheCommand := by
  unfold Obligations.LengthChecksEndTheCommand
  exact fun s r => ⟨exec_hash_of_no_room, exec_keyid_of_no_room, exec_aeadSeal_of_bad_nonce, exec_aeadSeal_of_no_room,
    exec_aeadOpen_of_bad_nonce, exec_aeadOpen_of_no_room, exec_b85Enc_of_no_room⟩

end Sys2Proof.Proofs
end

section
/-! PROOFS. The AEAD (R210 to R215): opening inverts sealing, the parts of a sealed message, and what AEAD_SEAL and
AEAD_OPEN do with operands that pass their checks. -/

namespace Sys2Proof.Machine

/-! ### TagEqual -/

/-- The OR gathered over a run of byte pairs is 0 exactly when it began at 0 and every pair agrees (R215). -/
theorem foldl_or_zipWith_xor_eq_zero_iff {t u : Bytes} (hlen : t.length = u.length) (acc : Byte) :
    (List.zipWith (· ^^^ ·) t u).foldl (· ||| ·) acc = 0 ↔ acc = 0 ∧ t = u := by
  induction t generalizing u acc with
  | nil =>
    cases u with
    | nil => simp
    | cons y u => cases hlen
  | cons x t ih =>
    cases u with
    | nil => cases hlen
    | cons y u =>
      rw [List.zipWith_cons_cons, List.foldl_cons, ih (Nat.succ.inj hlen), BitVec.ofNat_eq_ofNat,
        BitVec.or_eq_zero_iff, BitVec.xor_eq_zero_iff, List.cons.injEq, and_assoc]

/-- TagEqual of strings of one length says whether they are equal (R215). -/
theorem tagEqual_iff {t u : Bytes} (hlen : t.length = u.length) : tagEqual t u = true ↔ t = u := by
  rw [tagEqual, beq_iff_eq, foldl_or_zipWith_xor_eq_zero_iff hlen]
  exact and_iff_right rfl

/-! ### The keystream -/

/-- The first Drips of a run do not depend on how many follow (R163). -/
theorem drips_take {n m : Nat} (hnm : n ≤ m) (g : Sponge) : (drips m g).1.take n = (drips n g).1 := by
  induction n generalizing m g with
  | zero => rfl
  | succ n ih =>
    obtain ⟨m, rfl⟩ := Nat.exists_eq_add_of_le' (Nat.one_le_of_lt hnm)
    rw [drips, drips, List.take_succ_cons, ih (Nat.le_of_succ_le_succ hnm)]

/-- A shorter keystream begins a longer one (R211). -/
theorem keystream_take {n m : Nat} (hnm : n ≤ m) (k z h : Bytes) :
    (keystream k z h m).take n = keystream k z h n := drips_take hnm _

/-- Byte-wise operations that undo each other with the same second byte do so along a keystream. -/
theorem zipWith_zipWith_cancel {f g : Byte → Byte → Byte} (hfg : ∀ x y, f (g x y) y = x) {m ks : Bytes}
    (hlen : ks.length = m.length) : List.zipWith f (List.zipWith g m ks) ks = m :=
  List.ext_getElem (by simp [hlen]) (by simp [hfg])

/-- Taking the keystream off undoes adding it, and the other way round (R210, R212). -/
theorem eq_zipWith_sub_keystream_iff (k z h c m : Bytes) :
    m = List.zipWith (· - ·) c (keystream k z h c.length) ↔ c = List.zipWith (· + ·) m (keystream k z h m.length) := by
  constructor
  · rintro rfl
    simpa using (zipWith_zipWith_cancel BitVec.sub_add_cancel (keystream_length k z h c.length)).symm
  · rintro rfl
    simpa using (zipWith_zipWith_cancel BitVec.add_sub_cancel (keystream_length k z h m.length)).symm

/-! ### Sealing and opening -/

theorem eq_sealCore_iff (k z h m x : Bytes) (r : Byte) :
    x = sealCore k z h m r ↔
      ∃ c, x = c ++ aeadTag k z h c r ∧ c = List.zipWith (· + ·) m (keystream k z h m.length) := by
  constructor
  · rintro rfl
    exact ⟨_, rfl, rfl⟩
  · rintro ⟨c, rfl, rfl⟩
    rfl

/-- A sealed message is cut after as many bytes as the message has: what follows is the tag over what precedes
(R210). -/
theorem sealCore_drop (k z h m : Bytes) (r : Byte) :
    (sealCore k z h m r).drop m.length = aeadTag k z h ((sealCore k z h m r).take m.length) r := by
  obtain ⟨c, -, hc, hs⟩ := sealCore_parts k z h m r
  rw [hs, List.drop_left' hc, List.take_left' hc]

/-- A byte of the ciphertext is the message's byte plus the keystream's, modulo 256 (R210). -/
theorem sealCore_getElem? {k z h m : Bytes} {r : Byte} {n : Nat} {x y : Byte} (hx : m[n]? = some x)
    (hy : (keystream k z h m.length)[n]? = some y) : (sealCore k z h m r)[n]? = some (x + y) := by
  obtain ⟨c, hc, hlen, hs⟩ := sealCore_parts k z h m r
  obtain ⟨hn, -⟩ := List.getElem?_eq_some_iff.1 hx
  rw [hs, List.getElem?_append_left (hlen ▸ hn), hc, List.getElem?_zipWith, hx, hy]

theorem openCore_of_short {k z h x : Bytes} {r : Byte} (hshort : x.length < r.toNat) : openCore k z h x r = none :=
  if_pos hshort

/-- Opening succeeds exactly on a string followed by the tag over it (R212, R215). -/
theorem openCore_eq_some_iff (k z h x m : Bytes) (r : Byte) :
    openCore k z h x r = some m ↔
      ∃ c, x = c ++ aeadTag k z h c r ∧ m = List.zipWith (· - ·) c (keystream k z h c.length) := by
  rcases openCore_cases k z h x r with ⟨hshort, ho⟩ | ⟨c, t, rfl, ht, hcases⟩
  case inl =>
    rw [ho]
    refine ⟨nofun, ?_⟩
    rintro ⟨c, rfl, -⟩
    rw [List.length_append, aeadTag_length] at hshort
    omega
  case inr =>
    -- the tag's length fixes where the input is cut
    have hcut : ∀ c', c ++ t = c' ++ aeadTag k z h c' r ↔ c = c' ∧ t = aeadTag k z h c' r := fun c' =>
      ⟨fun heq => List.append_inj' heq (ht.trans (aeadTag_length k z h c' r).symm),
        fun ⟨hc, htag⟩ => congrArg₂ _ hc htag⟩
    have htag := tagEqual_iff (ht.trans (aeadTag_length k z h c r).symm)
    simp only [hcut]
    rcases hcases with ⟨hne, ho⟩ | ⟨heq, ho⟩
    · rw [ho]
      refine ⟨nofun, ?_⟩
      rintro ⟨_, ⟨rfl, h⟩, -⟩
      rw [htag.2 h] at hne
      cases hne
    · rw [ho, Option.some.injEq, eq_comm]
      refine ⟨fun hm => ⟨c, ⟨rfl, htag.1 heq⟩, hm⟩, ?_⟩
      rintro ⟨_, ⟨rfl, -⟩, hm⟩
      exact hm

/-! ### The commands -/

/-- Reads made before spend draws only, so a later read still gives what the region may give at the start (U1). -/
theorem UpToDraws.region_mayRead {u s : State} (h : UpToDraws u s) (n : Fin 8) : MayRead s n (u.region n) := by
  rw [h.eq]
  exact Machine.region_mayRead _ n

/-- AEAD_SEAL of any content, with a nonce of 12 bytes and room for its output (R213, R348). -/
theorem exec_aeadSeal_ok {s : State} {r : Byte} (ok : OperandsOk s (.aeadSeal r)) (hnonce : s.regionLen 1 = 12)
    (hroom : s.regionLen 3 + r.toNat ≤ s.regionLen 4) :
    ∃ k z h m d, MayRead s 0 k ∧ MayRead s 1 z ∧ MayRead s 2 h ∧ MayRead s 3 m ∧
      exec (.aeadSeal r) s =
        .next (State.complete { s with draws := d } (BitVec.ofNat 32 (s.regionLen 3 + r.toNat)) 0
          [(4, sealCore k z h m r)]).scrub := by
  have h0 := UpToDraws.refl s
  have h1 := h0.afterRead 0
  have h2 := h1.afterRead 1
  have h3 := h2.afterRead 2
  have h4 := h3.afterRead 3
  refine ⟨_, _, _, _, _, h0.region_mayRead 0, h1.region_mayRead 1, h2.region_mayRead 2, h3.region_mayRead 3,
    Eq.trans ?_ (congrArg (fun u : State => Host.Outcome.next (u.complete _ 0 _).scrub) h4.eq)⟩
  exact (withOperands_ok s (.aeadSeal r) _ ok).trans ((if_neg (not_not.2 hnonce)).trans (if_neg hroom.not_gt))

/-- AEAD_OPEN of operands that are held, with a nonce of 12 bytes, past its room check: the message is stored, or the
failure reported, and either way the Spritz state scrubbed (R214, R348). -/
theorem exec_aeadOpen_of_holds {s : State} {r : Byte} {k z h x : Bytes} (ok : OperandsOk s (.aeadOpen r))
    (hk : Holds s 0 k) (hz : Holds s 1 z) (hh : Holds s 2 h) (hx : Holds s 3 x) (hnonce : z.length = 12)
    (hroom : r.toNat ≤ x.length → x.length - r.toNat ≤ s.regionLen 4) :
    exec (.aeadOpen r) s =
      .next ((openCore k z h x r).elim (scrubbedErrorEnd s .authenticationFailure s.keyring)
        fun m => (s.complete (BitVec.ofNat 32 m.length) 0 [(4, m)]).scrub) := by
  have hnonce' : ¬ s.regionLen 1 ≠ Config.nonceBytes := not_not.2 ((holds_length hz).trans hnonce)
  have hroom' : ¬ (s.regionLen 3 ≥ r.toNat ∧ s.regionLen 3 - r.toNat > s.regionLen 4) := by
    rw [holds_length hx]
    exact fun hbad => (hroom hbad.1).not_gt hbad.2
  refine (withOperands_ok s (.aeadOpen r) _ ok).trans ((if_neg hnonce').trans ((if_neg hroom').trans ?_))
  simp only [holds_afterRead hk, holds_afterRead hz, holds_afterRead hh, holds_afterRead hx, holds_region hk,
    holds_region hz, holds_region hh, holds_region hx]
  cases openCore k z h x r with
  | none => rfl
  | some m => rfl

end Sys2Proof.Machine

namespace Sys2Proof.Proofs

open Sys2Proof.Machine

/-- Settles O25: both sides say that the input is a string followed by its tag, and that string is the message with
the keystream added. -/
theorem openInvertsSeal : Obligations.OpenInvertsSeal := by
  unfold Obligations.OpenInvertsSeal
  intro K Z H X M r
  rw [openCore_eq_some_iff, eq_sealCore_iff]
  simp only [eq_zipWith_sub_keystream_iff]

/-- Settles O26, one part of the sealed message at a time. -/
theorem sealedMessageIsCiphertextThenTag : Obligations.SealedMessageIsCiphertextThenTag := by
  unfold Obligations.SealedMessageIsCiphertextThenTag
  intro K Z H M r g hg
  obtain rfl : g = aeadKeyed K Z H := hg
  refine ⟨sealCore_length K Z H M r, fun n => ⟨rfl, keystream_length K Z H n⟩, fun n x y => sealCore_getElem?,
    fun C hC => ?_, fun n m hnm => (keystream_take hnm K Z H).symm, fun t u => tagEqual_iff⟩
  have hlen : C.length = M.length := by
    rw [hC, List.length_take_of_le (by rw [sealCore_length]; exact Nat.le_add_right _ _)]
  rw [sealCore_drop, ← hC, aeadTag, hlen, absorbLen]

/-- Settles O27: the operands are what reads of D0 to D3 give, and the one write is the sealed message at D4. -/
theorem aeadSealWritesTheSealedMessage : Obligations.AeadSealWritesTheSealedMessage := by
  unfold Obligations.AeadSealWritesTheSealedMessage
  intro s r ok hnonce hroom
  obtain ⟨K, Z, H, M, d, hK, hZ, hH, hM, hexec⟩ := exec_aeadSeal_ok ok hnonce hroom
  exact ⟨K, Z, H, M, _, hK, hZ, hH, hM, hexec, succeeds_complete_scrub s d _ _ _,
    (stored_complete s d _ _ 4 (sealCore K Z H M r)).2, by rw [sealCore_length, hM.1]⟩

/-- Settles O28: what opens is shorter than the input by the tag, so room for it passes the room check. -/
theorem aeadOpenWritesTheVerifiedPlaintext : Obligations.AeadOpenWritesTheVerifiedPlaintext := by
  unfold Obligations.AeadOpenWritesTheVerifiedPlaintext
  intro s r K Z H X M ok hK hZ hH hX hnonce hroom ho
  have hlen := openCore_length ho
  have hexec := exec_aeadOpen_of_holds ok hK hZ hH hX hnonce (by omega)
  rw [ho] at hexec
  exact ⟨_, hexec, succeeds_complete_scrub s s.draws _ _ _, rfl, (stored_complete s s.draws _ _ 4 M).2, hlen⟩

/-- Settles O29: a short input and a failed tag both make OpenCore fail, and neither is stopped by the room check. -/
theorem aeadOpenFailureRevealsNothing : Obligations.AeadOpenFailureRevealsNothing := by
  unfold Obligations.AeadOpenFailureRevealsNothing
  intro s r K Z H X ok hK hZ hH hX hnonce hfail
  obtain ⟨hroom, ho⟩ : (r.toNat ≤ X.length → X.length - r.toNat ≤ s.regionLen 4) ∧ openCore K Z H X r = none := by
    rcases hfail with hshort | ⟨hroom, ho⟩
    · exact ⟨fun hlong => absurd hshort hlong.not_gt, openCore_of_short hshort⟩
    · exact ⟨fun _ => hroom, ho⟩
  have hexec := exec_aeadOpen_of_holds ok hK hZ hH hX hnonce hroom
  rwa [ho] at hexec

end Sys2Proof.Proofs
end

section
/-! PROOFS. What the base-85 codec rests on (R12, R240 to R242): its alphabet, and digits and bytes as positional
numerals. -/

namespace Sys2Proof.Machine

/-! ### The alphabet -/

theorem alphabet_length (v : Fin 6) : (alphabet v).length = 85 := rfl

theorem sym_eq_getElem (v : Fin 6) {d : Nat} (hd : d < 85) :
    sym v d = (alphabet v)[d]'(hd.trans_eq (alphabet_length v).symm) :=
  (List.getElem_eq_getD 0).symm

/-- Each symbol is below its neighbour, in each of the six alphabets (R240). -/
theorem sym_lt_sym_succ (v : Fin 6) : ∀ d < 84, (sym v d).toNat < (sym v (d + 1)).toNat := by
  revert v
  decide

theorem alphabet_ascending (v : Fin 6) : (alphabet v).Pairwise (fun b c => b.toNat < c.toNat) := by
  have : IsTrans Byte (fun b c => b.toNat < c.toNat) := ⟨fun _ _ _ => Nat.lt_trans⟩
  refine List.isChain_iff_pairwise.1 (List.isChain_iff_getElem.2 fun d hd => ?_)
  rw [alphabet_length] at hd
  rw [← sym_eq_getElem v (Nat.lt_of_succ_lt hd), ← sym_eq_getElem v hd]
  exact sym_lt_sym_succ v d (Nat.lt_of_succ_lt_succ hd)

theorem alphabet_nodup (v : Fin 6) : (alphabet v).Nodup :=
  (alphabet_ascending v).imp fun hlt heq => hlt.ne (congrArg BitVec.toNat heq)

/-- Every symbol is printable, and none of the six bytes that every variant excludes (R240). -/
theorem alphabet_bytes (v : Fin 6) : ∀ c ∈ alphabet v, 0x21 ≤ c.toNat ∧ c.toNat ≤ 0x7E ∧
    c ≠ 0x22 ∧ c ≠ 0x24 ∧ c ≠ 0x2F ∧ c ≠ 0x5C ∧ c ≠ 0x5D ∧ c ≠ 0x7D := by
  revert v
  decide

/-- Digit and Sym are inverse to each other (R242). -/
theorem digit_eq_some_iff {v : Fin 6} {c : Byte} {d : Nat} : digit v c = some d ↔ d < 85 ∧ sym v d = c := by
  rw [digit, List.idxOf?_eq_some_iff]
  simp only [alphabet_length]
  constructor
  · rintro ⟨hd, hc, -⟩
    exact ⟨hd, (sym_eq_getElem v hd).trans hc⟩
  · rintro ⟨hd, rfl⟩
    refine ⟨hd, (sym_eq_getElem v hd).symm, fun e he heq => he.ne ?_⟩
    exact (alphabet_nodup v).getElem_inj_iff.1 (heq.trans (sym_eq_getElem v hd))

theorem digit_sym (v : Fin 6) {d : Nat} (hd : d < 85) : digit v (sym v d) = some d := digit_eq_some_iff.2 ⟨hd, rfl⟩

theorem sym_lt_sym (v : Fin 6) {d e : Nat} (hde : d < e) (he : e < 85) : (sym v d).toNat < (sym v e).toNat := by
  rw [sym_eq_getElem v (hde.trans he), sym_eq_getElem v he]
  exact List.pairwise_iff_getElem.1 (alphabet_ascending v) d e _ _ hde

/-- A byte with a digit is one of the alphabet (R242). -/
theorem mem_alphabet_of_digit {v : Fin 6} {c : Byte} {d : Nat} (h : digit v c = some d) : c ∈ alphabet v := by
  obtain ⟨hd, rfl⟩ := digit_eq_some_iff.1 h
  rw [sym_eq_getElem v hd]
  exact List.getElem_mem _

/-- The two symbols whose digit is too large to lead a group (R255). -/
theorem digit_of_bar_or_tilde (v : Fin 6) {c : Byte} (hc : c = 0x7C ∨ c = 0x7E) :
    ∃ d, digit v c = some d ∧ 83 ≤ d := by
  rcases hc with rfl | rfl
  · exact ⟨83, digit_eq_some_iff.2 ⟨by decide, by revert v; decide⟩, le_rfl⟩
  · exact ⟨84, digit_eq_some_iff.2 ⟨by decide, by revert v; decide⟩, by decide⟩

/-! ### Positional values -/

/-- The value of digits is the library's, which takes the least significant digit first. -/
theorem value85_eq_ofDigits (ds : List Nat) : value85 ds = Nat.ofDigits 85 ds.reverse := by
  rw [value85, List.foldl_eq_foldr_reverse, Nat.ofDigits_eq_foldr]
  congr
  funext d n
  change n * 85 + d = d + 85 * n
  ring

theorem beValue_eq_ofDigits (bs : Bytes) : beValue bs = Nat.ofDigits 256 (bs.map BitVec.toNat).reverse := by
  rw [beValue, ← List.foldl_map (f := BitVec.toNat) (g := fun n b => n * 256 + b), List.foldl_eq_foldr_reverse,
    Nat.ofDigits_eq_foldr]
  congr
  funext b n
  change n * 256 + b = b + 256 * n
  ring

theorem byte_digits_lt (bs : Bytes) : ∀ d ∈ (bs.map BitVec.toNat).reverse, d < 256 := by
  intro d hd
  obtain ⟨b, -, rfl⟩ := List.mem_map.1 (List.mem_reverse.1 hd)
  exact b.isLt

theorem value85_append (ds es : List Nat) : value85 (ds ++ es) = value85 ds * 85 ^ es.length + value85 es := by
  simp only [value85_eq_ofDigits, List.reverse_append, Nat.ofDigits_append, List.length_reverse]
  ring

theorem beValue_append (bs cs : Bytes) : beValue (bs ++ cs) = beValue bs * 256 ^ cs.length + beValue cs := by
  simp only [beValue_eq_ofDigits, List.map_append, List.reverse_append, Nat.ofDigits_append, List.length_reverse,
    List.length_map]
  ring

theorem value85_lt {ds : List Nat} (h : ∀ d ∈ ds, d < 85) : value85 ds < 85 ^ ds.length := by
  rw [value85_eq_ofDigits, ← List.length_reverse]
  exact Nat.ofDigits_lt_base_pow_length (by decide) fun d hd => h d (List.mem_reverse.1 hd)

theorem beValue_singleton (b : Byte) : beValue [b] = b.toNat := Nat.zero_add _

theorem beValue_lt (bs : Bytes) : beValue bs < 256 ^ bs.length := by
  rw [beValue_eq_ofDigits, ← List.length_map (f := BitVec.toNat), ← List.length_reverse]
  exact Nat.ofDigits_lt_base_pow_length (by decide) (byte_digits_lt bs)

theorem value85_inj {ds es : List Nat} (hlen : ds.length = es.length) (hds : ∀ d ∈ ds, d < 85)
    (hes : ∀ e ∈ es, e < 85) (h : value85 ds = value85 es) : ds = es := by
  rw [value85_eq_ofDigits, value85_eq_ofDigits] at h
  exact List.reverse_injective (Nat.ofDigits_inj_of_len_eq (by decide) (by simpa using hlen) (by simpa using hds)
    (by simpa using hes) h)

theorem beValue_inj {bs cs : Bytes} (hlen : bs.length = cs.length) (h : beValue bs = beValue cs) : bs = cs := by
  rw [beValue_eq_ofDigits, beValue_eq_ofDigits] at h
  have hdigits := List.reverse_injective
    (Nat.ofDigits_inj_of_len_eq (by decide) (by simpa using hlen) (byte_digits_lt bs) (byte_digits_lt cs) h)
  exact List.map_injective_iff.2 BitVec.toNat_injective hdigits

theorem beValue_zeros (n : Nat) : beValue (List.replicate n 0) = 0 := by
  induction n with
  | zero => rfl
  | succ n ih => exact ih

/-- The largest numeral of `n` digits is 1 below the next power (R253). -/
theorem value85_top_digits (n : Nat) : value85 (List.replicate n 84) + 1 = 85 ^ n := by
  induction n with
  | zero => rfl
  | succ n ih =>
    rw [List.replicate_succ', value85_append, pow_succ, ← ih]
    change value85 (List.replicate n 84) * 85 + 84 + 1 = _
    ring

/-- The bytes of a number stand for it, modulo what they can hold (R12). -/
theorem beValue_bytesBe (n v : Nat) : beValue (bytesBe n v) = v % 256 ^ n := by
  induction n with
  | zero => exact (Nat.mod_one v).symm
  | succ n ih =>
    rw [bytesBe, ← List.singleton_append, beValue_append, ih, bytesBe_length, Nat.mod_pow_succ, beValue_singleton,
      BitVec.toNat_ofNat, Nat.add_comm, Nat.mul_comm]

theorem bytesBe_length_beValue (bs : Bytes) : bytesBe bs.length (beValue bs) = bs :=
  beValue_inj (bytesBe_length _ _) ((beValue_bytesBe _ _).trans (Nat.mod_eq_of_lt (beValue_lt bs)))

/-- The first bytes of a number are those of its quotient (R253). -/
theorem bytesBe_take (n k v : Nat) : (bytesBe (n + k) v).take n = bytesBe n (v / 256 ^ k) := by
  induction n with
  | zero => rfl
  | succ n ih =>
    rw [Nat.succ_add, bytesBe, List.take_succ_cons, ih, bytesBe, Nat.div_div_eq_div_mul, ← pow_add, Nat.add_comm k]

theorem value85_digits85 (n : Nat) : value85 (digits85 n) = n := by
  simp only [value85, digits85, List.foldl_cons, List.foldl_nil]
  omega

@[simp] theorem digits85_length (n : Nat) : (digits85 n).length = 5 := rfl

theorem digits85_lt {n : Nat} (hn : n < 2 ^ 32) : ∀ d ∈ digits85 n, d < 85 := by
  simp only [digits85, List.mem_cons, List.not_mem_nil, or_false, forall_eq_or_imp, forall_eq]
  omega

theorem digits85_value85 {ds : List Nat} (hlen : ds.length = 5) (hds : ∀ d ∈ ds, d < 85)
    (hv : value85 ds < 2 ^ 32) : digits85 (value85 ds) = ds :=
  value85_inj hlen.symm (digits85_lt hv) hds (value85_digits85 _)

/-- Replacing the last `k` digits by the top digit raises a number by less than one unit of the last digit kept
(R253). -/
theorem value85_take_append_top {ds : List Nat} {n k : Nat} (hn : n + k = ds.length) (hds : ∀ d ∈ ds, d < 85) :
    value85 ds ≤ value85 (ds.take n ++ List.replicate k 84) ∧
      value85 (ds.take n ++ List.replicate k 84) < value85 ds + 85 ^ k := by
  have hlen : (ds.drop n).length = k := by rw [List.length_drop, ← hn, Nat.add_sub_cancel_left]
  have hsplit : value85 ds = value85 (ds.take n) * 85 ^ k + value85 (ds.drop n) := by
    rw [← hlen, ← value85_append, List.take_append_drop]
  have hlast : value85 (ds.drop n) < 85 ^ k := hlen ▸ value85_lt fun d hd => hds d (List.mem_of_mem_drop hd)
  have htop := value85_top_digits k
  rw [value85_append, List.length_replicate]
  omega

end Sys2Proof.Machine

namespace Sys2Proof.Proofs

open Sys2Proof.Machine

/-- Settles O30, by the ascent of the alphabet, by which each symbol stands in one place only. -/
theorem alphabetIsAnAscendingBijection : Obligations.AlphabetIsAnAscendingBijection := by
  unfold Obligations.AlphabetIsAnAscendingBijection
  intro v
  exact ⟨fun d => digit_sym v, fun c d => digit_eq_some_iff.1, fun d e => sym_lt_sym v,
    fun c d h => alphabet_bytes v c (mem_alphabet_of_digit h)⟩

end Sys2Proof.Proofs
end

section
/-! PROOFS. The base-85 codec (R250 to R256): one group both ways, strings of groups, and the texts that fail. -/

namespace Sys2Proof.Machine

/-! ### Groups -/

theorem symbolDigits_cons (v : Fin 6) (c : Byte) (cs : Bytes) :
    symbolDigits v (c :: cs) = (digit v c).bind fun d => (symbolDigits v cs).map (d :: ·) := by
  rw [symbolDigits]
  cases digit v c <;> cases symbolDigits v cs <;> rfl

/-- A run of symbols has as its digits exactly those it is the symbols of (R242, R253). -/
theorem symbolDigits_eq_some_iff {v : Fin 6} {q : Bytes} {ds : List Nat} :
    symbolDigits v q = some ds ↔ (∀ d ∈ ds, d < 85) ∧ ds.map (sym v) = q := by
  induction q generalizing ds with
  | nil => cases ds <;> simp [symbolDigits]
  | cons c cs ih =>
    simp only [symbolDigits_cons, Option.bind_eq_some_iff, Option.map_eq_some_iff, digit_eq_some_iff, ih]
    constructor
    · rintro ⟨d, ⟨hd, rfl⟩, es, ⟨hes, rfl⟩, rfl⟩
      exact ⟨List.forall_mem_cons.2 ⟨hd, hes⟩, rfl⟩
    · rintro ⟨hds, hq⟩
      cases ds with
      | nil => cases hq
      | cons d es =>
        obtain ⟨hd, hes⟩ := List.forall_mem_cons.1 hds
        obtain ⟨rfl, rfl⟩ := List.cons.inj hq
        exact ⟨d, ⟨hd, rfl⟩, es, ⟨hes, rfl⟩, rfl⟩

theorem symbolDigits_length {v : Fin 6} {q : Bytes} {ds : List Nat} (h : symbolDigits v q = some ds) :
    ds.length = q.length := by
  obtain ⟨-, rfl⟩ := symbolDigits_eq_some_iff.1 h
  exact (List.length_map _).symm

/-- A group decodes exactly when its bytes are symbols and its padded value is below 2^32 (R253, R255). -/
theorem decodeGroup_eq_some_iff {v : Fin 6} {q g : Bytes} :
    decodeGroup v q = some g ↔ ∃ ds, symbolDigits v q = some ds ∧
      value85 (ds ++ List.replicate (5 - q.length) 84) < 2 ^ 32 ∧
      g = (bytesBe 4 (value85 (ds ++ List.replicate (5 - q.length) 84))).take (q.length - 1) := by
  unfold decodeGroup
  cases symbolDigits v q with
  | none => exact ⟨nofun, nofun⟩
  | some ds =>
    simp only [ge_iff_le, ite_eq_iff, reduceCtorEq, and_false, false_or, Option.some.injEq, exists_eq_left', not_le,
      eq_comm (a := g)]

theorem decodeGroup_of_bad_symbol {v : Fin 6} {q : Bytes} {c : Byte} (hc : c ∈ q) (hbad : digit v c = none) :
    decodeGroup v q = none := by
  refine Option.eq_none_iff_forall_ne_some.2 fun g hg => ?_
  obtain ⟨ds, hds, -⟩ := decodeGroup_eq_some_iff.1 hg
  obtain ⟨hlt, rfl⟩ := symbolDigits_eq_some_iff.1 hds
  obtain ⟨d, hd, rfl⟩ := List.mem_map.1 hc
  rw [digit_sym v (hlt d hd)] at hbad
  cases hbad

theorem decodeGroup_of_overflow {v : Fin 6} {q : Bytes} {ds : List Nat} (hds : symbolDigits v q = some ds)
    (hv : 2 ^ 32 ≤ value85 (ds ++ List.replicate (5 - q.length) 84)) : decodeGroup v q = none := by
  refine Option.eq_none_iff_forall_ne_some.2 fun g hg => ?_
  obtain ⟨es, hes, hlt, -⟩ := decodeGroup_eq_some_iff.1 hg
  cases hds.symm.trans hes
  exact hv.not_gt hlt

/-- A group that starts with digit 83 or 84 overflows, full or not: 83 * 85^4 is over 2^32 (R255). -/
theorem decodeGroup_of_leading {v : Fin 6} {c : Byte} {cs : Bytes} {d : Nat} (hc : digit v c = some d) (hd : 83 ≤ d)
    (hcs : cs.length ≤ 4) : decodeGroup v (c :: cs) = none := by
  cases hes : symbolDigits v cs with
  | none =>
    refine Option.eq_none_iff_forall_ne_some.2 fun g hg => ?_
    obtain ⟨ds, hds, -⟩ := decodeGroup_eq_some_iff.1 hg
    rw [symbolDigits_cons, hc, hes] at hds
    cases hds
  | some es =>
    refine decodeGroup_of_overflow (ds := d :: es) (by rw [symbolDigits_cons, hc, hes]; rfl) ?_
    have hlen : (es ++ List.replicate (5 - (c :: cs).length) 84).length = 4 := by
      rw [List.length_append, List.length_replicate, symbolDigits_length hes, List.length_cons]
      omega
    rw [List.cons_append, ← List.singleton_append, value85_append, hlen]
    calc 2 ^ 32 ≤ 83 * 85 ^ 4 := by decide
      _ ≤ value85 [d] * 85 ^ 4 := Nat.mul_le_mul_right _ (hd.trans_eq (Nat.zero_add d).symm)
      _ ≤ _ := Nat.le_add_right _ _

/-- A number from `g` with its zero padding up to one unit of the last byte of `g` is below 2^32 and begins with `g`. -/
theorem bytesBe_take_eq {g : Bytes} {n k : Nat} (hk : g.length + k = 4) (hlo : beValue g * 256 ^ k ≤ n)
    (hhi : n < (beValue g + 1) * 256 ^ k) : n < 2 ^ 32 ∧ (bytesBe 4 n).take g.length = g := by
  constructor
  · calc n < (beValue g + 1) * 256 ^ k := hhi
      _ ≤ 256 ^ g.length * 256 ^ k := Nat.mul_le_mul_right _ (beValue_lt g)
      _ = 256 ^ 4 := by rw [← pow_add, hk]
      _ = 2 ^ 32 := by decide
  · rw [← hk, bytesBe_take, Nat.div_eq_of_lt_le hlo hhi, bytesBe_length_beValue]

/-- A group of up to 4 bytes is recovered from its symbols: the top digits that stand for those left out raise the
value by less than one unit of its last byte (R251, R253, R256). -/
theorem decodeGroup_encodeGroup (v : Fin 6) {g : Bytes} (hg : g.length ≤ 4) :
    decodeGroup v (encodeGroup v g) = some g := by
  obtain ⟨k, hk⟩ : ∃ k, g.length + k = 4 := ⟨4 - g.length, by omega⟩
  have hzeros : 4 - g.length = k := by omega
  have htop : 5 - (encodeGroup v g).length = k := by rw [encodeGroup_length]; omega
  have hkeep : (encodeGroup v g).length - 1 = g.length := by rw [encodeGroup_length]; omega
  have hval : beValue (g ++ List.replicate (4 - g.length) 0) = beValue g * 256 ^ k := by
    rw [beValue_append, beValue_zeros, List.length_replicate, Nat.add_zero, hzeros]
  obtain ⟨hpad, -⟩ := bytesBe_take_eq hk le_rfl (Nat.mul_lt_mul_of_pos_right (Nat.lt_succ_self _) (by positivity))
  have hdigits := digits85_lt hpad
  obtain ⟨hlo, hhi⟩ := value85_take_append_top (n := g.length + 1) (k := k) (by rw [digits85_length]; omega) hdigits
  rw [value85_digits85] at hlo hhi
  have hunit : beValue g * 256 ^ k + 85 ^ k ≤ (beValue g + 1) * 256 ^ k := by
    rw [Nat.succ_mul]
    exact Nat.add_le_add_left (Nat.pow_le_pow_left (by decide) k) _
  obtain ⟨hlt, htake⟩ := bytesBe_take_eq hk hlo (hhi.trans_le hunit)
  refine decodeGroup_eq_some_iff.2 ⟨(digits85 (beValue g * 256 ^ k)).take (g.length + 1), ?_, ?_⟩
  · exact symbolDigits_eq_some_iff.2 ⟨fun d hd => hdigits d (List.mem_of_mem_take hd), by rw [encodeGroup, hval]⟩
  · rw [htop, hkeep]
    exact ⟨hlt, htake.symm⟩

/-- A full group is recovered from its bytes: full groups are one-to-one on values below 2^32 (R256). -/
theorem encodeGroup_of_decodeGroup {v : Fin 6} {q g : Bytes} (hq : q.length = 5) (h : decodeGroup v q = some g) :
    encodeGroup v g = q := by
  obtain ⟨ds, hds, hlt, rfl⟩ := decodeGroup_eq_some_iff.1 h
  have hlen : ds.length = 5 := (symbolDigits_length hds).trans hq
  obtain ⟨hdigits, rfl⟩ := symbolDigits_eq_some_iff.1 hds
  have hfull : ds ++ List.replicate (5 - (ds.map (sym v)).length) 84 = ds := by rw [hq]; exact List.append_nil ds
  rw [hfull] at hlt ⊢
  have hall : (bytesBe 4 (value85 ds)).take ((ds.map (sym v)).length - 1) = bytesBe 4 (value85 ds) :=
    List.take_of_length_le (by rw [bytesBe_length, hq])
  have hpad : bytesBe 4 (value85 ds) ++ List.replicate (4 - (bytesBe 4 (value85 ds)).length) 0 =
      bytesBe 4 (value85 ds) := by
    rw [bytesBe_length]
    exact List.append_nil _
  rw [hall, encodeGroup, hpad, beValue_bytesBe, Nat.mod_eq_of_lt (hlt.trans_eq (by decide)),
    digits85_value85 hlen hdigits hlt, bytesBe_length, List.take_of_length_le hlen.le]

/-! ### Strings of groups -/

/-- Induction over a string group by group. -/
theorem groups_induction {motive : Bytes → Prop} {n : Nat} (hn : 0 < n) (nil : motive [])
    (group : ∀ x, x ≠ [] → motive (x.drop n) → motive x) (x : Bytes) : motive x := by
  induction hlen : x.length using Nat.strong_induction_on generalizing x with
  | _ len ih =>
    by_cases hx : x = []
    · exact hx ▸ nil
    · have hpos := List.length_pos_of_ne_nil hx
      exact group x hx (ih _ (by rw [List.length_drop]; omega) _ rfl)

/-- Enc85 by its first group, full or not (R250). -/
theorem enc85_of_ne_nil (v : Fin 6) {x : Bytes} (hx : x ≠ []) :
    enc85 v x = encodeGroup v (x.take 4) ++ enc85 v (x.drop 4) := by
  match x, hx with
  | [a], _ | [a, b], _ | [a, b, c], _ => exact (List.append_nil _).symm
  | a :: b :: c :: d :: rest, _ => rfl

/-- The groups of Dec85 by the first, full or not (R253). -/
theorem decodeGroups_of_ne_nil (v : Fin 6) {t : Bytes} (ht : t ≠ []) :
    decodeGroups v t = (decodeGroup v (t.take 5)).bind fun g => (decodeGroups v (t.drop 5)).map (g ++ ·) := by
  match t, ht with
  | [a], _ | [a, b], _ | [a, b, c], _ | [a, b, c, d], _ => simp [decodeGroups]
  | a :: b :: c :: d :: e :: rest, _ =>
    rw [decodeGroups]
    simp only [List.take_succ_cons, List.take_zero, List.drop_succ_cons, List.drop_zero]
    cases decodeGroup v [a, b, c, d, e] <;> rfl

/-- Enc85 cuts into the symbols of its first group and those of the rest. -/
theorem enc85_take_drop (v : Fin 6) {x : Bytes} (hx : x ≠ []) :
    (enc85 v x).take 5 = encodeGroup v (x.take 4) ∧ (enc85 v x).drop 5 = enc85 v (x.drop 4) := by
  have hlen := encodeGroup_length v (x.take 4)
  rw [List.length_take] at hlen
  rw [enc85_of_ne_nil v hx]
  rcases Nat.lt_or_ge x.length 4 with hshort | hfull
  · rw [List.drop_eq_nil_of_le hshort.le]
    exact ⟨(congrArg _ (List.append_nil _)).trans (List.take_of_length_le (by omega)),
      (congrArg _ (List.append_nil _)).trans (List.drop_eq_nil_of_le (by omega))⟩
  · exact ⟨List.take_left' (by omega), List.drop_left' (by omega)⟩

theorem decodeGroups_enc85 (v : Fin 6) (x : Bytes) : decodeGroups v (enc85 v x) = some x := by
  induction x using groups_induction (n := 4) (by decide) with
  | nil => rfl
  | group x hx ih =>
    obtain ⟨htake, hdrop⟩ := enc85_take_drop v hx
    have hne : enc85 v x ≠ [] := by
      rw [enc85_of_ne_nil v hx]
      exact List.append_ne_nil_of_left_ne_nil (List.ne_nil_of_length_pos (by rw [encodeGroup_length]; omega)) _
    rw [decodeGroups_of_ne_nil v hne, htake, hdrop, decodeGroup_encodeGroup v (List.length_take_le 4 x), ih]
    exact congrArg some (List.take_append_drop 4 x)

theorem enc85_of_decodeGroups {v : Fin 6} {t y : Bytes} (ht : t.length % 5 = 0) (h : decodeGroups v t = some y) :
    enc85 v y = t := by
  induction t using groups_induction (n := 5) (by decide) generalizing y with
  | nil => cases h; rfl
  | group t hne ih =>
    have hpos := List.length_pos_of_ne_nil hne
    have hfull : (t.take 5).length = 5 := by rw [List.length_take]; omega
    rw [decodeGroups_of_ne_nil v hne, Option.bind_eq_some_iff] at h
    obtain ⟨g, hg, h⟩ := h
    obtain ⟨z, hz, rfl⟩ := Option.map_eq_some_iff.1 h
    have hlen : g.length = 4 := by rw [decodeGroup_length hg, hfull]; rfl
    rw [enc85_of_ne_nil v (List.append_ne_nil_of_left_ne_nil (List.ne_nil_of_length_pos (by omega)) _),
      List.take_left' hlen, List.drop_left' hlen, encodeGroup_of_decodeGroup hfull hg,
      ih (by rw [List.length_drop]; omega) hz, List.take_append_drop]

/-- The first group that fails ends the decoding (R253). -/
theorem decodeGroups_of_first {v : Fin 6} {t : Bytes} (ht : t ≠ []) (h : decodeGroup v (t.take 5) = none) :
    decodeGroups v t = none := by
  rw [decodeGroups_of_ne_nil v ht, h]
  rfl

/-- A failure in a later group ends the decoding too (R253). -/
theorem decodeGroups_of_rest {v : Fin 6} {t : Bytes} (ht : t ≠ []) (h : decodeGroups v (t.drop 5) = none) :
    decodeGroups v t = none := by
  rw [decodeGroups_of_ne_nil v ht, h]
  exact Option.bind_fun_none _

/-- What fails after full groups fails with them before it (R253). -/
theorem decodeGroups_append_of_full {v : Fin 6} {pre t : Bytes} (hpre : pre.length % 5 = 0)
    (h : decodeGroups v t = none) : decodeGroups v (pre ++ t) = none := by
  induction pre using groups_induction (n := 5) (by decide) with
  | nil => exact h
  | group pre hne ih =>
    have hpos := List.length_pos_of_ne_nil hne
    have hrest : decodeGroups v ((pre ++ t).drop 5) = none := by
      rw [List.drop_append_of_le_length (by omega)]
      exact ih (by rw [List.length_drop]; omega)
    exact decodeGroups_of_rest (List.append_ne_nil_of_left_ne_nil hne _) hrest

theorem decodeGroups_of_bad_symbol {v : Fin 6} {t : Bytes} {c : Byte} (hc : c ∈ t) (hbad : digit v c = none) :
    decodeGroups v t = none := by
  induction t using groups_induction (n := 5) (by decide) with
  | nil => cases hc
  | group t hne ih =>
    rw [← List.take_append_drop 5 t, List.mem_append] at hc
    rcases hc with hfirst | hrest
    · exact decodeGroups_of_first hne (decodeGroup_of_bad_symbol hfirst hbad)
    · exact decodeGroups_of_rest hne (ih hrest)

/-! ### Dec85 -/

theorem dec85_of_dangling {v : Fin 6} {t : Bytes} (ht : t.length % 5 = 1) : dec85 v t = none := if_pos ht

theorem dec85_of_not_dangling {v : Fin 6} {t : Bytes} (ht : t.length % 5 ≠ 1) : dec85 v t = decodeGroups v t :=
  if_neg ht

theorem dec85_of_decodeGroups_none {v : Fin 6} {t : Bytes} (h : decodeGroups v t = none) : dec85 v t = none := by
  rw [dec85, h, ite_self]

/-- No encoding has a dangling symbol (R252). -/
theorem encodedLength_mod (n : Nat) : encodedLength n % 5 ≠ 1 := by
  rw [encodedLength]
  split_ifs <;> omega

theorem dec85_enc85 (v : Fin 6) (x : Bytes) : dec85 v (enc85 v x) = some x := by
  rw [dec85_of_not_dangling (by rw [enc85_length]; exact encodedLength_mod _), decodeGroups_enc85]

theorem enc85_of_dec85 {v : Fin 6} {t y : Bytes} (ht : t.length % 5 = 0) (h : dec85 v t = some y) : enc85 v y = t :=
  enc85_of_decodeGroups ht (by rwa [dec85_of_not_dangling (by omega)] at h)

/-- A full group of value 2^32 or more fails wherever it stands (R255). -/
theorem dec85_of_overflow {v : Fin 6} {pre g post : Bytes} {ds : List Nat} (hpre : pre.length % 5 = 0)
    (hg : g.length = 5) (hds : symbolDigits v g = some ds) (hv : 2 ^ 32 ≤ value85 ds) :
    dec85 v (pre ++ g ++ post) = none := by
  have hgroup : decodeGroup v g = none := by
    refine decodeGroup_of_overflow hds ?_
    rw [hg]
    exact hv.trans_eq (congrArg value85 (List.append_nil ds).symm)
  rw [List.append_assoc]
  refine dec85_of_decodeGroups_none (decodeGroups_append_of_full hpre (decodeGroups_of_first ?_ ?_))
  · exact List.append_ne_nil_of_left_ne_nil (List.ne_nil_of_length_pos (by omega)) _
  · rwa [List.take_left' hg]

/-- A group that starts with digit 83 or 84 fails wherever it stands (R255). -/
theorem dec85_of_leading {v : Fin 6} {pre post : Bytes} {c : Byte} {d : Nat} (hpre : pre.length % 5 = 0)
    (hc : digit v c = some d) (hd : 83 ≤ d) : dec85 v (pre ++ c :: post) = none :=
  dec85_of_decodeGroups_none (decodeGroups_append_of_full hpre (decodeGroups_of_first (List.cons_ne_nil _ _)
    (decodeGroup_of_leading hc hd (List.length_take_le 4 post))))

end Sys2Proof.Machine

namespace Sys2Proof.Proofs

open Sys2Proof.Machine

/-- Settles O31: an encoding's length is R252's formula, of which the four lengths are values; a decoding's is
R254's. -/
theorem base85LengthsAreTheFormulas : Obligations.Base85LengthsAreTheFormulas := by
  unfold Obligations.Base85LengthsAreTheFormulas
  intro v x t
  simp only [enc85_length]
  exact ⟨⟨rfl, encodedLength_mod _, fun h => h ▸ rfl, fun h => h ▸ rfl, fun h => h ▸ rfl, fun h => h ▸ rfl, rfl⟩,
    dec85_of_dangling, fun y => dec85_length, rfl⟩

/-- Settles O32, group by group; the two texts of ff by evaluation. -/
theorem base85RoundTrips : Obligations.Base85RoundTrips := by
  unfold Obligations.Base85RoundTrips
  intro v
  refine ⟨dec85_enc85 v, fun t y => enc85_of_dec85, ?_⟩
  revert v
  decide

/-- Settles O33: the group with the bad symbol or the overflow fails, and its failure ends the decoding. -/
theorem badSymbolsAndOverflowFail : Obligations.BadSymbolsAndOverflowFail := by
  unfold Obligations.BadSymbolsAndOverflowFail
  intro v t
  refine ⟨fun c hc hbad => dec85_of_decodeGroups_none (decodeGroups_of_bad_symbol hc hbad), ?_, ?_⟩
  · rintro pre g post ds rfl hpre hg hds hv
    exact dec85_of_overflow hpre hg hds hv
  · rintro pre post c rfl hpre hc
    obtain ⟨d, hd, h83⟩ := digit_of_bar_or_tilde v hc
    exact dec85_of_leading hpre hd h83

end Sys2Proof.Proofs
end

section
/-! PROOFS. The commands that decode a text or encode one (R257, R258, R279): B85_ENC, B85_DEC, and the errors of
KR_LOOKUP. -/

namespace Sys2Proof.Machine

/-! ### B85_ENC and B85_DEC -/

/-- B85_ENC of any content, with room for its text (R257). -/
theorem exec_b85Enc_ok {s : State} (ok : OperandsOk s .b85Enc)
    (hroom : encodedLength (s.regionLen 0) ≤ s.regionLen 1) :
    exec .b85Enc s =
      .next ((s.afterRead 0).complete (BitVec.ofNat 32 (encodedLength (s.regionLen 0))) 0
        [(1, enc85 s.params.b85Variant (s.region 0))]) :=
  (withOperands_ok s .b85Enc _ ok).trans (if_neg hroom.not_gt)

theorem exec_b85Dec_of_dangling {s : State} {x : Bytes} (ok : OperandsOk s .b85Dec) (hx : Holds s 0 x)
    (hmod : x.length % 5 = 1) : exec .b85Dec s = .next (errorEnd s .invalidEncoding) := by
  rw [← holds_length hx] at hmod
  exact (withOperands_ok s .b85Dec _ ok).trans (if_pos hmod)

theorem exec_b85Dec_of_no_room {s : State} {x : Bytes} (ok : OperandsOk s .b85Dec) (hx : Holds s 0 x)
    (hmod : x.length % 5 ≠ 1) (hroom : s.regionLen 1 < decodedLength x.length) :
    exec .b85Dec s = .next (errorEnd s .destTooSmall) := by
  rw [← holds_length hx] at hmod hroom
  exact (withOperands_ok s .b85Dec _ ok).trans ((if_neg hmod).trans (if_pos hroom))

/-- B85_DEC of a text that is held, past both length checks: its bytes are stored, or the failure reported (R258). -/
theorem exec_b85Dec_of_room {s : State} {x : Bytes} (ok : OperandsOk s .b85Dec) (hx : Holds s 0 x)
    (hmod : x.length % 5 ≠ 1) (hroom : decodedLength x.length ≤ s.regionLen 1) :
    exec .b85Dec s =
      .next ((dec85 s.params.b85Variant x).elim (errorEnd s .invalidEncoding)
        fun y => s.complete (BitVec.ofNat 32 (decodedLength x.length)) 0 [(1, y)]) := by
  have hmod' : ¬ s.regionLen 0 % 5 = 1 := by rwa [holds_length hx]
  have hroom' : ¬ decodedLength (s.regionLen 0) > s.regionLen 1 := by rw [holds_length hx]; exact hroom.not_gt
  refine (withOperands_ok s .b85Dec _ ok).trans ((if_neg hmod').trans ((if_neg hroom').trans ?_))
  rw [holds_region hx, holds_afterRead hx, holds_length hx]
  cases dec85 s.params.b85Variant x with
  | none => rfl
  | some y => rfl

/-! ### KR_LOOKUP -/

/-- A lookup that fails is the end of KR_LOOKUP (R277, R279). -/
theorem exec_krLookup_error {s : State} {x : Bytes} {e : ErrorKind} (ok : OperandsOk s .krLookup) (hx : Holds s 0 x)
    (h : lookupKey s.params.b85Variant s.keyring.entries x = .error e) :
    exec .krLookup s = .next (errorEnd s e) := by
  refine (withOperands_ok s .krLookup _ ok).trans ?_
  rw [holds_region hx, holds_afterRead hx, h]
  rfl

theorem exec_krLookup_of_no_room {s : State} {x key : Bytes} {n : Nat} (ok : OperandsOk s .krLookup)
    (hx : Holds s 0 x) (h : lookupKey s.params.b85Variant s.keyring.entries x = .ok (n, key))
    (hroom : s.regionLen 1 < key.length) : exec .krLookup s = .next (errorEnd s .destTooSmall) := by
  refine (withOperands_ok s .krLookup _ ok).trans ?_
  rw [holds_region hx, holds_afterRead hx, h]
  exact if_pos hroom

theorem lookupKey_of_undecodable {v : Fin 6} {es : List KeyEntry} {x : Bytes} (hx : dec85 v x = none) :
    lookupKey v es x = .error .invalidEncoding := by
  rcases lookupKey_cases v es x with ⟨-, hl⟩ | ⟨d, hd, -⟩
  · exact hl
  · rw [hx] at hd; cases hd

/-- A digest of another length, or of no entry, is not found (R277). -/
theorem lookupKey_of_unknown {v : Fin 6} {es : List KeyEntry} {x d : Bytes} (hx : dec85 v x = some d)
    (hbad : d.length ≠ 8 ∨ ∀ e ∈ es, e.id ≠ d) : lookupKey v es x = .error .lookupFailure := by
  rcases lookupKey_cases v es x with ⟨hnone, -⟩ | ⟨d', hd, ⟨-, hl⟩ | ⟨n, hn, hlen, hid, -⟩⟩
  · rw [hx] at hnone; cases hnone
  · exact hl
  · rw [hx] at hd
    cases hd
    rcases hbad with hne | hnone
    · exact absurd hlen hne
    · exact absurd hid (hnone _ (List.getElem_mem hn))

end Sys2Proof.Machine

namespace Sys2Proof.Proofs

open Sys2Proof.Machine

/-- Settles O34: the bytes encoded are what a read of D0 gives, and the one write of the completion is their text. -/
theorem b85EncWritesTheText : Obligations.B85EncWritesTheText := by
  unfold Obligations.B85EncWritesTheText
  intro s ok hroom
  exact ⟨s.region 0, _, region_mayRead s 0, exec_b85Enc_ok ok hroom, succeeds_complete s _ _ _ _,
    (stored_complete s _ _ _ 1 (enc85 s.params.b85Variant (s.region 0))).1, by rw [enc85_length, region_length]⟩

/-- Settles O35: what a text decodes to has the length of R254, so room for it passes both length checks. -/
theorem b85DecWritesTheBytes : Obligations.B85DecWritesTheBytes := by
  unfold Obligations.B85DecWritesTheBytes
  intro s x y ok hx hy hroom
  obtain ⟨hmod, hlen⟩ := dec85_length hy
  have hexec := exec_b85Dec_of_room ok hx hmod (hlen ▸ hroom)
  rw [hy, ← hlen] at hexec
  exact ⟨_, hexec, succeeds_complete s s.draws _ _ _, rfl, (stored_complete s s.draws _ _ 1 y).1⟩

/-- Settles O41, check by check of B85_DEC, and by the ways a lookup ends. -/
theorem decodingCommandErrors : Obligations.DecodingCommandErrors := by
  unfold Obligations.DecodingCommandErrors
  refine ⟨fun s x ok hx => ⟨exec_b85Dec_of_dangling ok hx, exec_b85Dec_of_no_room ok hx, fun hmod hroom hd => ?_⟩,
    fun s x ok hx => ⟨fun hd => ?_, fun d hd hbad => ?_, fun n e hok he hd hroom => ?_⟩⟩
  · have hexec := exec_b85Dec_of_room ok hx hmod hroom
    rwa [hd] at hexec
  · exact exec_krLookup_error ok hx (lookupKey_of_undecodable hd)
  · exact exec_krLookup_error ok hx (lookupKey_of_unknown hd hbad)
  · exact exec_krLookup_of_no_room ok hx (lookupKey_of_entry hok he hd) hroom

end Sys2Proof.Proofs
end

section
/-! PROOFS. Key material read line by line (R270, R274, R276): what each line does to a load, which line decides a
load's error, and what a load of longer material keeps (R281). -/

namespace Sys2Proof.Machine

/-! ### One line -/

theorem loadLines_cons_of_blank {p : Params} {line : Bytes} {rest : List Bytes} {es : List KeyEntry}
    {cur : Option Nat} (ht : firstToken line = none) :
    loadLines p (line :: rest) es cur = loadLines p rest es cur := by
  rw [loadLines, ht]

/-- A line with a token registers the key of its token, and the load goes on from there (R270). -/
theorem loadLines_cons_of_token {p : Params} {line t : Bytes} {rest : List Bytes} {es : List KeyEntry}
    {cur : Option Nat} (ht : firstToken line = some t) :
    loadLines p (line :: rest) es cur =
      (tokenKey p t).bind fun key =>
        (registerKey p.krMaxEntries es { id := keyIdDigest key, key := key }).bind fun r =>
          loadLines p rest r.1 (some r.2) := by
  rw [loadLines, ht]
  dsimp only
  cases tokenKey p t with
  | error e => rfl
  | ok key =>
    dsimp only [Except.bind]
    cases registerKey p.krMaxEntries es { id := keyIdDigest key, key := key } with
    | error e => rfl
    | ok r => rfl

/-! ### Lines that fail -/

theorem tokenKey_of_undecodable {p : Params} {t : Bytes} (hd : dec85 p.b85Variant t = none) :
    tokenKey p t = .error .invalidEncoding := by
  rw [tokenKey, hd]

theorem tokenKey_of_long {p : Params} {t key : Bytes} (hd : dec85 p.b85Variant t = some key)
    (hlong : p.keyMaxBytes < key.length) : tokenKey p t = .error .capacityExceeded := by
  rw [tokenKey, hd]
  exact if_pos hlong

theorem tokenKey_of_admitted {p : Params} {t key : Bytes} (hd : dec85 p.b85Variant t = some key)
    (hlen : key.length ≤ p.keyMaxBytes) : tokenKey p t = .ok key := by
  rw [tokenKey, hd]
  exact if_neg hlen.not_gt

/-- A new id finds no room in a full store (R274). -/
theorem registerKey_of_full {max : Nat} {es : List KeyEntry} {new : KeyEntry} (hfull : es.length = max)
    (hfresh : ∀ x ∈ es, x.id ≠ new.id) : registerKey max es new = .error .capacityExceeded := by
  rcases registerKey_cases max es new with ⟨n, hn, hsame, -⟩ | ⟨-, -, hr⟩ | ⟨-, hroom, -⟩
  · exact absurd hsame (hfresh _ (List.getElem_mem hn))
  · exact hr
  · exact absurd hfull hroom

section
variable {p : Params} {line t key : Bytes} {rest : List Bytes} {es : List KeyEntry} {cur : Option Nat}

theorem loadLines_cons_of_undecodable (ht : firstToken line = some t) (hd : dec85 p.b85Variant t = none) :
    loadLines p (line :: rest) es cur = .error .invalidEncoding := by
  rw [loadLines_cons_of_token ht, tokenKey_of_undecodable hd]
  rfl

theorem loadLines_cons_of_long (ht : firstToken line = some t) (hd : dec85 p.b85Variant t = some key)
    (hlong : p.keyMaxBytes < key.length) : loadLines p (line :: rest) es cur = .error .capacityExceeded := by
  rw [loadLines_cons_of_token ht, tokenKey_of_long hd hlong]
  rfl

/-- A key new to a full store fails the load, for one capacity or the other (R276). -/
theorem loadLines_cons_of_full (ht : firstToken line = some t) (hd : dec85 p.b85Variant t = some key)
    (hfull : es.length = p.krMaxEntries) (hfresh : ∀ x ∈ es, x.id ≠ keyIdDigest key) :
    loadLines p (line :: rest) es cur = .error .capacityExceeded := by
  rcases Nat.lt_or_ge p.keyMaxBytes key.length with hlong | hlen
  · exact loadLines_cons_of_long ht hd hlong
  · rw [loadLines_cons_of_token ht, tokenKey_of_admitted hd hlen]
    dsimp only [Except.bind]
    rw [registerKey_of_full hfull hfresh]

end

/-- A failure after lines that loaded is the failure of the load, whatever lines follow it (R270). -/
theorem loadKeyring_error_of_rest {p : Params} {m : Bytes} {pre rest : List Bytes} {es : List KeyEntry}
    {cur : Option Nat} {e : ErrorKind} (hm : lines m = pre ++ rest) (hpre : loadLines p pre [] none = .ok (es, cur))
    (hrest : loadLines p rest es cur = .error e) : loadKeyring p m = .error e := by
  have hlines : loadLines p (lines m) [] none = .error e := by
    rw [hm, loadLines_append, hpre]
    exact hrest
  rw [loadKeyring, hlines]

/-! ### Material without a key -/

theorem loadLines_blank {p : Params} {ls : List Bytes} {es : List KeyEntry} {cur : Option Nat}
    (hblank : ls.filterMap firstToken = []) : loadLines p ls es cur = .ok (es, cur) := by
  induction ls with
  | nil => rfl
  | cons line rest ih =>
    have ht : firstToken line = none := List.filterMap_eq_nil_iff.1 hblank line (.head _)
    rw [List.filterMap_cons_none ht] at hblank
    rw [loadLines_cons_of_blank ht, ih hblank]

/-- NoUsableKeys is the error of material whose lines are all blank, and of no other (R276). -/
theorem loadKeyring_noUsableKeys_iff (p : Params) (m : Bytes) :
    loadKeyring p m = .error .noUsableKeys ↔ keyTokens m = [] := by
  refine ⟨fun h => ?_, fun h => by rw [loadKeyring, loadLines_blank h]⟩
  rcases loadKeyring_cases p m with ⟨e, hlines, hl⟩ | ⟨es, hlines, -⟩ | ⟨es, n, -, hl⟩
  · rw [hl] at h
    cases h
    rcases loadLines_error hlines with he | he <;> cases he
  · cases hlast : (keyTokens m).getLast? with
    | none => exact List.getLast?_eq_none_iff.1 hlast
    | some t =>
      obtain ⟨_, _, -, hcur, -⟩ := loadLines_current hlast hlines
      cases hcur
  · rw [hl] at h
    cases h

/-! ### Longer material -/

/-- What is at an index stays there under its id, and only the entry registered takes its place (R274). -/
theorem registerKey_getElem? {max : Nat} {es es' : List KeyEntry} {new e : KeyEntry} {c n : Nat}
    (h : registerKey max es new = .ok (es', c)) (he : es[n]? = some e) :
    ∃ e', es'[n]? = some e' ∧ e'.id = e.id ∧ (e' = e ∨ e' = new) := by
  obtain ⟨hn, rfl⟩ := List.getElem?_eq_some_iff.1 he
  rcases registerKey_cases max es new with
    ⟨k, hk, hsame, hr⟩ | ⟨-, -, hr⟩ | ⟨-, -, hr⟩ <;> rw [hr] at h <;> cases h
  · by_cases hcn : c = n
    · subst hcn
      exact ⟨new, List.getElem?_set_self hk, hsame.symm, .inr rfl⟩
    · exact ⟨es[n], by rw [List.getElem?_set_ne hcn, he], rfl, .inl rfl⟩
  · exact ⟨es[n], by rw [List.getElem?_append_left hn, he], rfl, .inl rfl⟩

/-- All that a line with a token can do in a load that succeeds: register its key (R270). -/
theorem loadLines_cons_token_ok {p : Params} {line t : Bytes} {rest : List Bytes} {es : List KeyEntry}
    {cur : Option Nat} {r : List KeyEntry × Option Nat} (ht : firstToken line = some t)
    (h : loadLines p (line :: rest) es cur = .ok r) :
    ∃ key es1 c, dec85 p.b85Variant t = some key ∧
      registerKey p.krMaxEntries es { id := keyIdDigest key, key := key } = .ok (es1, c) ∧
      loadLines p rest es1 (some c) = .ok r := by
  rw [loadLines_cons_of_token ht] at h
  rcases tokenKey_cases p t with ⟨-, hk⟩ | ⟨key, hd, ⟨-, hk⟩ | ⟨-, hk⟩⟩ <;> rw [hk] at h
  · cases h
  · cases h
  · dsimp only [Except.bind] at h
    cases hreg : registerKey p.krMaxEntries es { id := keyIdDigest key, key := key } with
    | error e => rw [hreg] at h; cases h
    | ok q => rw [hreg] at h; exact ⟨key, q.1, q.2, hd, hreg, h⟩

/-- A load keeps every entry at its index under its id, and its key unless one of the lines registers that id
(R274). -/
theorem loadLines_getElem? {p : Params} {ls : List Bytes} {es es' : List KeyEntry} {cur cur' : Option Nat} {n : Nat}
    {e : KeyEntry} (h : loadLines p ls es cur = .ok (es', cur')) (he : es[n]? = some e) :
    ∃ e', es'[n]? = some e' ∧ e'.id = e.id ∧
      (e' = e ∨ ∃ t ∈ ls.filterMap firstToken, dec85 p.b85Variant t = some e'.key ∧ keyIdDigest e'.key = e.id) := by
  induction ls generalizing es cur e with
  | nil => cases h; exact ⟨e, he, rfl, .inl rfl⟩
  | cons line rest ih =>
    cases ht : firstToken line with
    | none =>
      rw [loadLines_cons_of_blank ht] at h
      rw [List.filterMap_cons_none ht]
      exact ih h he
    | some t =>
      obtain ⟨key, es1, c, hd, hreg, hrest⟩ := loadLines_cons_token_ok ht h
      obtain ⟨e1, he1, hid1, hwhich⟩ := registerKey_getElem? hreg he
      obtain ⟨e', he', hid', hkept | ⟨u, hu, hdu, hidu⟩⟩ := ih hrest he1 <;> rw [List.filterMap_cons_some ht]
      · subst hkept
        refine ⟨e', he', hid1, hwhich.imp_right fun hnew => ?_⟩
        subst hnew
        exact ⟨t, List.mem_cons_self, hd, hid1⟩
      · exact ⟨e', he', hid'.trans hid1, .inr ⟨u, List.mem_cons_of_mem t hu, hdu, hidu.trans hid1⟩⟩

/-- Lines appended to key material come after its own (R271). -/
theorem lines_append_lf (m1 m2 : Bytes) : lines (m1 ++ [0x0A] ++ m2) = lines m1 ++ lines m2 := by
  rw [List.append_assoc]
  exact splitOn_append 0x0A m1 m2

/-- Where two materials load, one a beginning of the other, the second load goes on from the first keyring (R270,
R281). -/
theorem loadLines_of_extension {p : Params} {m1 m2 : Bytes} {kr1 kr2 : Keyring} (h1 : loadKeyring p m1 = .ok kr1)
    (h2 : loadKeyring p (m1 ++ [0x0A] ++ m2) = .ok kr2) :
    loadLines p (lines m2) kr1.entries (some kr1.cur) = .ok (kr2.entries, some kr2.cur) := by
  have hlines := loadLines_of_loadKeyring_ok h2
  rw [lines_append_lf, loadLines_append, loadLines_of_loadKeyring_ok h1] at hlines
  exact hlines

end Sys2Proof.Machine

namespace Sys2Proof.Proofs

open Sys2Proof.Machine

/-- Settles O37: the loop stops at the first line that fails, and only blank lines leave it without a current key. -/
theorem loadFailsAtTheFirstBadLine : Obligations.LoadFailsAtTheFirstBadLine := by
  unfold Obligations.LoadFailsAtTheFirstBadLine
  intro p m
  refine ⟨loadKeyring_noUsableKeys_iff p m, fun pre line post es cur t hm hpre ht => ?_⟩
  refine ⟨fun hd => ?_, fun key hd => ⟨fun hlong => ?_, fun hfull hfresh => ?_⟩⟩
  · exact loadKeyring_error_of_rest hm hpre (loadLines_cons_of_undecodable ht hd)
  · exact loadKeyring_error_of_rest hm hpre (loadLines_cons_of_long ht hd hlong)
  · exact loadKeyring_error_of_rest hm hpre (loadLines_cons_of_full ht hd hfull hfresh)

/-- Settles O38: the load of the longer material goes on from the first keyring, by induction on the appended
lines. -/
theorem rotationKeepsEarlierKeys : Obligations.RotationKeepsEarlierKeys := by
  unfold Obligations.RotationKeepsEarlierKeys
  intro p m1 m2 kr1 kr2 h1 h2 n e he
  exact loadLines_getElem? (loadLines_of_extension h1 h2) he

end Sys2Proof.Proofs
end

section
/-! PROOFS. FRAME_PARSE (R320, R321, R325): how the parsing of a token ends, and how the command ends with it. -/

namespace Sys2Proof.Machine

/-! ### Parsing -/

/-- A token of four fields under material that loads is parsed by its fields (R320). -/
theorem parseToken_of_fields {p : Params} {m x f1 f2 f3 f4 : Bytes} {kr : Keyring}
    (hx : splitFields x = [f1, f2, f3, f4]) (h : loadKeyring p m = .ok kr) :
    parseToken p m x = parseFields p.b85Variant kr f1 f2 f3 f4 := by
  rw [parseToken, hx]
  dsimp only
  rw [h]

theorem parseToken_of_load_error {p : Params} {m x : Bytes} {e : ErrorKind} (hx : (splitFields x).length = 4)
    (h : loadKeyring p m = .error e) : parseToken p m x = .error e := by
  rcases parseToken_cases p m x with ⟨hne, -⟩ | ⟨f1, f2, f3, f4, -, ⟨e', hl, hp⟩ | ⟨kr, hl, -⟩⟩
  · exact absurd hx hne
  · rw [h] at hl
    cases hl
    exact hp
  · rw [h] at hl
    cases hl

/-- Only a token of four fields parses (R320). -/
theorem splitFields_length_of_parseToken_ok {p : Params} {m x : Bytes} {parts : TokenParts}
    (h : parseToken p m x = .ok parts) : (splitFields x).length = 4 := by
  rcases parseToken_cases p m x with ⟨-, hp⟩ | ⟨f1, f2, f3, f4, hx, -⟩
  · rw [hp] at h
    cases h
  · rw [hx]
    rfl

section
variable {v : Fin 6} {kr : Keyring} {f1 f2 f3 f4 : Bytes}

theorem parseFields_of_lookup_error {e : ErrorKind} (h : lookupKey v kr.entries f1 = .error e) :
    parseFields v kr f1 f2 f3 f4 = .error e := by
  rw [parseFields, h]

/-- With the key found, a field that does not decode comes before the nonce's length (R320). -/
theorem parseFields_of_undecodable {n : Nat} {key : Bytes} (h : lookupKey v kr.entries f1 = .ok (n, key))
    (hd : dec85 v f2 = none ∨ dec85 v f3 = none ∨ dec85 v f4 = none) :
    parseFields v kr f1 f2 f3 f4 = .error .invalidEncoding := by
  rcases parseFields_cases v kr f1 f2 f3 f4 with ⟨e, hl, -⟩ | ⟨_, _, -, ⟨-, hp⟩ | ⟨z, hdr, c, h2, h3, h4, -⟩⟩
  · rw [h] at hl
    cases hl
  · exact hp
  · simp [h2, h3, h4] at hd

/-- With the key found and the fields decoded, the length of the nonce decides (R325). -/
theorem parseFields_of_decoded {n : Nat} {key z h c : Bytes} (hl : lookupKey v kr.entries f1 = .ok (n, key))
    (h2 : dec85 v f2 = some z) (h3 : dec85 v f3 = some h) (h4 : dec85 v f4 = some c) :
    parseFields v kr f1 f2 f3 f4 =
      if z.length ≠ Config.nonceBytes then .error .malformedMessage
      else .ok { key := key, nonce := z, header := h, sealed := c } := by
  rw [parseFields, hl, h2, h3, h4]

end

/-! ### The command -/

/-- The state in which FRAME_PARSE ends with this answer of ParseToken (R321). -/
def frameParseEnd (s : State) (answer : Except ErrorKind TokenParts) : State :=
  match answer with
  | .error e => scrubbedErrorEnd s e Keyring.empty
  | .ok parts => frameParseFinish s parts

section
variable {s : State} {m x : Bytes}

/-- A failed field count is a pre-check (R321, R347). -/
theorem exec_frameParse_of_field_count (ok : OperandsOk s .frameParse) (hx : Holds s 1 x)
    (hcount : (splitFields x).length ≠ 4) : exec .frameParse s = .next (errorEnd s .malformedMessage) := by
  refine (withOperands_ok s .frameParse _ ok).trans ?_
  rw [holds_region hx, holds_afterRead hx]
  exact if_pos hcount

/-- FRAME_PARSE of a token of four fields ends as its parsing does (R321). -/
theorem exec_frameParse_of_fields (ok : OperandsOk s .frameParse) (hm : Holds s 0 m) (hx : Holds s 1 x)
    (hcount : (splitFields x).length = 4) :
    exec .frameParse s = .next (frameParseEnd s (parseToken s.params m x)) := by
  refine (withOperands_ok s .frameParse _ ok).trans ?_
  rw [holds_region hx, holds_afterRead hx]
  refine (if_neg (not_not.2 hcount)).trans ?_
  dsimp only
  rw [holds_region hm, holds_afterRead hm, holds_region hx, holds_afterRead hx]
  cases parseToken s.params m x with
  | error e => rfl
  | ok parts => rfl

theorem exec_frameParse_error {e : ErrorKind} (ok : OperandsOk s .frameParse) (hm : Holds s 0 m) (hx : Holds s 1 x)
    (hcount : (splitFields x).length = 4) (h : parseToken s.params m x = .error e) :
    exec .frameParse s = .next (scrubbedErrorEnd s e Keyring.empty) := by
  rw [exec_frameParse_of_fields ok hm hx hcount, h, frameParseEnd]

theorem exec_frameParse_ok {parts : TokenParts} (ok : OperandsOk s .frameParse) (hm : Holds s 0 m)
    (hx : Holds s 1 x) (h : parseToken s.params m x = .ok parts) :
    exec .frameParse s = .next (frameParseFinish s parts) := by
  rw [exec_frameParse_of_fields ok hm hx (splitFields_length_of_parseToken_ok h), h, frameParseEnd]

end

/-- Parts without room, the header or the plaintext, end FRAME_PARSE before it opens the message (R321). -/
theorem frameParseFinish_of_no_room {s : State} {parts : TokenParts}
    (h : s.regionLen 2 < parts.header.length ∨
      32 ≤ parts.sealed.length ∧ s.regionLen 3 < parts.sealed.length - 32) :
    frameParseFinish s parts = scrubbedErrorEnd s .destTooSmall Keyring.empty := by
  unfold frameParseFinish
  by_cases hheader : s.regionLen 2 < parts.header.length
  · exact if_pos hheader
  · exact (if_neg hheader).trans (if_pos (h.resolve_left hheader))

end Sys2Proof.Machine

namespace Sys2Proof.Proofs

open Sys2Proof.Machine

/-- Settles O49: past the field count, FRAME_PARSE ends with the error of the parsing, and the parsing with that of
the load, of the lookup or of a field; parts that parse still need their room. -/
theorem frameParseErrors : Obligations.FrameParseErrors := by
  unfold Obligations.FrameParseErrors
  intro s m x ok hm hx
  have failed : ∀ e, (splitFields x).length = 4 → parseToken s.params m x = .error e →
      exec .frameParse s = .next (scrubbedErrorEnd s e Keyring.empty) :=
    fun e => exec_frameParse_error ok hm hx
  refine ⟨exec_frameParse_of_field_count ok hx, fun e hcount hl => failed e hcount (parseToken_of_load_error hcount hl),
    fun f1 f2 f3 f4 kr hsplit hload => ?_, failed, fun parts hp hroom => ?_⟩
  · have hcount : (splitFields x).length = 4 := by rw [hsplit]; rfl
    have hparse := parseToken_of_fields hsplit hload
    refine ⟨fun hd => ?_, fun d hd hbad => ?_, fun e he hd => ?_⟩
    · exact failed _ hcount (hparse.trans (parseFields_of_lookup_error (lookupKey_of_undecodable hd)))
    · exact failed _ hcount (hparse.trans (parseFields_of_lookup_error (lookupKey_of_unknown hd hbad)))
    · obtain ⟨n, hn⟩ := List.mem_iff_getElem?.1 he
      obtain ⟨hok, -⟩ := loadKeyring_ok hload
      have hfound := lookupKey_of_entry hok hn hd
      refine ⟨fun hnone => failed _ hcount (hparse.trans (parseFields_of_undecodable hfound hnone)),
        fun z h c h2 h3 h4 => ?_⟩
      rw [parseFields_of_decoded hfound h2 h3 h4] at hparse
      exact ⟨fun hz => failed _ hcount (hparse.trans (if_pos hz)), fun hz => hparse.trans (if_neg (not_not.2 hz))⟩
  · rw [exec_frameParse_ok ok hm hx hp, frameParseFinish_of_no_room hroom]
    rfl

end Sys2Proof.Proofs
end

section
/-! PROOFS. Header lists (R303, R304, R306): the entries a list is made of, and the mapping they are inserted into. -/

namespace Sys2Proof.Machine

/-! ### The order of keys -/

theorem bytesBefore_cons_self (a : Byte) (as bs : Bytes) : bytesBefore (a :: as) (a :: bs) = bytesBefore as bs :=
  if_pos rfl

theorem bytesBefore_cons_of_ne {a b : Byte} (h : a ≠ b) (as bs : Bytes) :
    bytesBefore (a :: as) (b :: bs) = true ↔ a < b := by
  rw [bytesBefore, if_neg h, decide_eq_true_iff]

theorem bytesBefore_trans {x y z : Bytes} (hxy : bytesBefore x y = true) (hyz : bytesBefore y z = true) :
    bytesBefore x z = true := by
  induction x generalizing y z with
  | nil =>
    cases z with
    | nil => cases y <;> cases hyz
    | cons c z => rfl
  | cons a x ih =>
    cases y with
    | nil => cases hxy
    | cons b y =>
      cases z with
      | nil => cases hyz
      | cons c z =>
        by_cases hab : a = b <;> by_cases hbc : b = c
        · subst hab hbc
          rw [bytesBefore_cons_self] at hxy hyz ⊢
          exact ih hxy hyz
        · subst hab
          rw [bytesBefore_cons_of_ne hbc] at hyz ⊢
          exact hyz
        · subst hbc
          rw [bytesBefore_cons_of_ne hab] at hxy ⊢
          exact hxy
        · rw [bytesBefore_cons_of_ne hab] at hxy
          rw [bytesBefore_cons_of_ne hbc] at hyz
          have hac : a < c := BitVec.lt_trans hxy hyz
          exact (bytesBefore_cons_of_ne (BitVec.ne_of_lt hac) x z).2 hac

/-- Of two different keys one comes before the other (R306). -/
theorem bytesBefore_of_not_before {x y : Bytes} (hne : x ≠ y) (h : ¬ bytesBefore x y = true) :
    bytesBefore y x = true := by
  induction x generalizing y with
  | nil =>
    cases y with
    | nil => exact absurd rfl hne
    | cons b y => exact absurd rfl h
  | cons a x ih =>
    cases y with
    | nil => rfl
    | cons b y =>
      by_cases hab : a = b
      · subst hab
        rw [bytesBefore_cons_self] at h ⊢
        exact ih (fun hxy => hne (congrArg _ hxy)) h
      · rw [bytesBefore_cons_of_ne hab] at h
        rw [bytesBefore_cons_of_ne (Ne.symm hab)]
        exact BitVec.lt_of_le_ne (BitVec.not_lt.1 h) (Ne.symm hab)

/-! ### Insertion into a mapping -/

theorem mapValue_cons (e : Bytes × Bytes) (rest : List (Bytes × Bytes)) (j : Bytes) :
    mapValue (e :: rest) j = if e.1 = j then some e.2 else mapValue rest j := rfl

theorem mapInsert_cons (e : Bytes × Bytes) (rest : List (Bytes × Bytes)) (k v : Bytes) :
    mapInsert (e :: rest) k v =
      if k = e.1 then (k, v) :: rest
      else if bytesBefore k e.1 then (k, v) :: e :: rest
      else e :: mapInsert rest k v := rfl

/-- The value inserted is the one its key gives, and no other key's value changes (R304). -/
theorem mapValue_mapInsert (hm : List (Bytes × Bytes)) (k v j : Bytes) :
    mapValue (mapInsert hm k v) j = if k = j then some v else mapValue hm j := by
  induction hm with
  | nil => rfl
  | cons e rest ih =>
    rw [mapInsert_cons]
    by_cases hke : k = e.1
    · rw [if_pos hke, mapValue_cons, mapValue_cons, ← hke]
      split_ifs <;> rfl
    · rw [if_neg hke]
      by_cases hbefore : bytesBefore k e.1 = true
      · rw [if_pos hbefore, mapValue_cons]
      · rw [if_neg hbefore, mapValue_cons, ih, mapValue_cons]
        by_cases hej : e.1 = j
        · rw [if_pos hej, if_pos hej, if_neg (hej ▸ hke)]
        · rw [if_neg hej, if_neg hej]

/-- A second value for a key takes the place of the first (R304, R305). -/
theorem mapInsert_mapInsert (hm : List (Bytes × Bytes)) (k v w : Bytes) :
    mapInsert (mapInsert hm k v) k w = mapInsert hm k w := by
  induction hm with
  | nil => exact if_pos rfl
  | cons e rest ih =>
    rw [mapInsert_cons, mapInsert_cons]
    by_cases hke : k = e.1
    · rw [if_pos hke, if_pos hke]
      exact if_pos rfl
    · rw [if_neg hke, if_neg hke]
      by_cases hbefore : bytesBefore k e.1 = true
      · rw [if_pos hbefore, if_pos hbefore]
        exact if_pos rfl
      · rw [if_neg hbefore, if_neg hbefore, mapInsert_cons, if_neg hke, if_neg hbefore, ih]

theorem mem_mapInsert_self (hm : List (Bytes × Bytes)) (k v : Bytes) : (k, v) ∈ mapInsert hm k v := by
  induction hm with
  | nil => exact List.mem_singleton_self _
  | cons e rest ih =>
    rw [mapInsert_cons]
    split_ifs
    · exact List.mem_cons_self
    · exact List.mem_cons_self
    · exact List.mem_cons_of_mem _ ih

theorem eq_or_mem_of_mem_mapInsert {hm : List (Bytes × Bytes)} {k v : Bytes} {d : Bytes × Bytes}
    (h : d ∈ mapInsert hm k v) : d = (k, v) ∨ d ∈ hm := by
  induction hm with
  | nil => exact .inl (List.mem_singleton.1 h)
  | cons e rest ih =>
    rw [mapInsert_cons] at h
    split_ifs at h
    · exact (List.mem_cons.1 h).imp_right (List.mem_cons_of_mem _)
    · exact List.mem_cons.1 h
    · rcases List.mem_cons.1 h with rfl | hrest
      · exact .inr List.mem_cons_self
      · exact (ih hrest).imp_right (List.mem_cons_of_mem _)

/-- The keys of a mapping strictly ascend, as R306 serialises them. -/
def KeysAscend (hm : List (Bytes × Bytes)) : Prop := hm.Pairwise fun d e => bytesBefore d.1 e.1 = true

theorem KeysAscend.map_fst {hm : List (Bytes × Bytes)} (h : KeysAscend hm) :
    (hm.map Prod.fst).Pairwise (fun j k => bytesBefore j k = true) :=
  List.pairwise_map.2 h

/-- An insertion puts its key in its place (R306). -/
theorem KeysAscend.mapInsert {hm : List (Bytes × Bytes)} (h : KeysAscend hm) (k v : Bytes) :
    KeysAscend (mapInsert hm k v) := by
  induction hm with
  | nil => exact List.pairwise_singleton _ _
  | cons e rest ih =>
    obtain ⟨hfirst, hrest⟩ := List.pairwise_cons.1 h
    rw [mapInsert_cons]
    split_ifs with hke hbefore
    · exact List.pairwise_cons.2 ⟨fun d hd => hke ▸ hfirst d hd, hrest⟩
    · refine List.pairwise_cons.2 ⟨fun d hd => ?_, h⟩
      rcases List.mem_cons.1 hd with rfl | hd
      · exact hbefore
      · exact bytesBefore_trans hbefore (hfirst d hd)
    · refine List.pairwise_cons.2 ⟨fun d hd => ?_, ih hrest⟩
      rcases eq_or_mem_of_mem_mapInsert hd with rfl | hd
      · exact bytesBefore_of_not_before hke hbefore
      · exact hfirst d hd

/-- A mapping with entries inserted one after the other (R304). -/
def insertEntries (hm es : List (Bytes × Bytes)) : List (Bytes × Bytes) :=
  es.foldl (fun hm e => mapInsert hm e.1 e.2) hm

theorem insertEntries_concat (hm es : List (Bytes × Bytes)) (e : Bytes × Bytes) :
    insertEntries hm (es ++ [e]) = mapInsert (insertEntries hm es) e.1 e.2 := List.foldl_concat ..

theorem keysAscend_insertEntries (es : List (Bytes × Bytes)) : KeysAscend (insertEntries [] es) :=
  List.foldlRecOn (motive := KeysAscend) es _ List.Pairwise.nil fun _ h e _ => h.mapInsert e.1 e.2

/-- The last entry of a key gives its value (R304). -/
theorem mapValue_insertEntries (es : List (Bytes × Bytes)) (k : Bytes) :
    mapValue (insertEntries [] es) k = mapValue es.reverse k := by
  induction es using List.reverseRecOn with
  | nil => rfl
  | append_singleton es e ih =>
    rw [insertEntries_concat, mapValue_mapInsert, ih, List.reverse_concat, mapValue_cons]

/-! ### Header lists -/

/-- A field written as R303 lays it out is read back, with what follows it. -/
theorem takeField_field {k : Bytes} (hk : k.length < 2 ^ 16) (rest : Bytes) :
    takeField (bytesBe 2 k.length ++ k ++ rest) = some (k, rest) := by
  have hlen : beValue (bytesBe 2 k.length) = k.length := (beValue_bytesBe 2 _).trans (Nat.mod_eq_of_lt hk)
  rw [List.append_assoc]
  simp only [bytesBe, List.cons_append, List.nil_append, takeField] at hlen ⊢
  rw [hlen, if_neg (by simp), List.take_left, List.drop_left]

theorem headerEntry_append (e : Bytes × Bytes) (rest : Bytes) :
    headerEntry e ++ rest = bytesBe 2 e.1.length ++ e.1 ++ (bytesBe 2 e.2.length ++ e.2 ++ rest) := by
  simp only [headerEntry, List.append_assoc]

theorem parseEntries_nil (fuel : Nat) (hm : List (Bytes × Bytes)) : parseEntries fuel [] hm = some hm := by
  cases fuel <;> rfl

/-- A turn of the loop of ParseHeaderList on a list that is not at its end (R304). -/
theorem parseEntries_succ {x : Bytes} (hx : x ≠ []) (fuel : Nat) (hm : List (Bytes × Bytes)) :
    parseEntries (fuel + 1) x hm =
      (takeField x).bind fun kr => (takeField kr.2).bind fun vr => parseEntries fuel vr.2 (mapInsert hm kr.1 vr.1) := by
  cases x with
  | nil => exact absurd rfl hx
  | cons b bs =>
    rw [parseEntries]
    cases takeField (b :: bs) with
    | none => rfl
    | some kr =>
      dsimp only [Option.bind]
      cases takeField kr.2 <;> rfl

theorem parseEntries_headerEntry {e : Bytes × Bytes} (he : EntryFits e) (fuel : Nat) (rest : Bytes)
    (hm : List (Bytes × Bytes)) :
    parseEntries (fuel + 1) (headerEntry e ++ rest) hm = parseEntries fuel rest (mapInsert hm e.1 e.2) := by
  obtain ⟨hkey, hvalue⟩ := he
  have hne : headerEntry e ++ rest ≠ [] := List.cons_ne_nil _ _
  rw [parseEntries_succ hne, headerEntry_append, takeField_field hkey, Option.bind_some,
    takeField_field hvalue, Option.bind_some]

/-- Entries one after the other parse, if there is fuel for each (R303, R304). -/
theorem parseEntries_flatMap {es : List (Bytes × Bytes)} (hes : ∀ e ∈ es, EntryFits e) {fuel : Nat}
    (hfuel : es.length ≤ fuel) (hm : List (Bytes × Bytes)) :
    parseEntries fuel (es.flatMap headerEntry) hm = some (insertEntries hm es) := by
  induction es generalizing fuel hm with
  | nil => exact parseEntries_nil fuel hm
  | cons e es ih =>
    obtain ⟨he, hrest⟩ := List.forall_mem_cons.1 hes
    obtain ⟨fuel, rfl⟩ := Nat.exists_eq_add_of_le' (Nat.one_le_of_lt hfuel)
    rw [List.flatMap_cons, parseEntries_headerEntry he, ih hrest (Nat.le_of_succ_le_succ hfuel)]
    rfl

/-- All that the loop can do when it succeeds: read entries one after the other, to the end of the list (R304). -/
theorem parseEntries_eq_some {fuel : Nat} {x : Bytes} {hm hm' : List (Bytes × Bytes)}
    (h : parseEntries fuel x hm = some hm') :
    ∃ es, (∀ e ∈ es, EntryFits e) ∧ x = es.flatMap headerEntry ∧ hm' = insertEntries hm es := by
  induction fuel generalizing x hm with
  | zero =>
    cases x with
    | nil => cases h; exact ⟨[], nofun, rfl, rfl⟩
    | cons b bs => cases h
  | succ fuel ih =>
    by_cases hx : x = []
    · subst hx
      cases h
      exact ⟨[], nofun, rfl, rfl⟩
    · simp only [parseEntries_succ hx, Option.bind_eq_some_iff] at h
      obtain ⟨⟨k, afterKey⟩, hk, ⟨v, afterValue⟩, hv, hrest⟩ := h
      obtain ⟨hkey, rfl⟩ := takeField_eq hk
      obtain ⟨hvalue, rfl⟩ := takeField_eq hv
      obtain ⟨es, hes, rfl, rfl⟩ := ih hrest
      exact ⟨(k, v) :: es, List.forall_mem_cons.2 ⟨⟨hkey, hvalue⟩, hes⟩,
        by rw [List.flatMap_cons, headerEntry_append], rfl⟩

/-- Every entry takes bytes, so a list is fuel enough for its own entries. -/
theorem length_le_length_flatMap_headerEntry (es : List (Bytes × Bytes)) :
    es.length ≤ (es.flatMap headerEntry).length := by
  induction es with
  | nil => exact le_rfl
  | cons e es ih =>
    rw [List.flatMap_cons, List.length_append, headerEntry, List.length_cons]
    simp only [List.length_append, bytesBe_length]
    omega

/-- ParseHeaderList succeeds exactly on entries one after the other (R303, R304). -/
theorem parseHeaderList_eq_some_iff {b : Bytes} {hm : List (Bytes × Bytes)} :
    parseHeaderList b = some hm ↔
      ∃ es, (∀ e ∈ es, EntryFits e) ∧ b = es.flatMap headerEntry ∧ hm = insertEntries [] es := by
  refine ⟨parseEntries_eq_some, ?_⟩
  rintro ⟨es, hes, rfl, rfl⟩
  exact parseEntries_flatMap hes (length_le_length_flatMap_headerEntry es) []

end Sys2Proof.Machine

namespace Sys2Proof.Proofs

open Sys2Proof.Machine

/-- Settles O42: the mapping is that of the entries inserted one after the other. -/
theorem headerListParsesToAnAscendingMapping : Obligations.HeaderListParsesToAnAscendingMapping := by
  unfold Obligations.HeaderListParsesToAnAscendingMapping
  refine ⟨fun es hes => ⟨insertEntries [] es, ?_, (keysAscend_insertEntries es).map_fst, mapValue_insertEntries es⟩,
    fun b hm h => ?_⟩
  · exact parseHeaderList_eq_some_iff.2 ⟨es, hes, rfl, rfl⟩
  · obtain ⟨es, hes, hb, -⟩ := parseHeaderList_eq_some_iff.1 h
    exact ⟨es, hes, hb⟩

end Sys2Proof.Proofs
end

section
/-! PROOFS. The AAD (R305 to R308): what Esc gives, and the scope's entry in the serialised mapping. -/

namespace Sys2Proof.Machine

/-! ### Esc -/

theorem hexDigit_ge {n : Byte} (hn : n < 16) : 0x30 ≤ (hexDigit n).toNat := by
  unfold hexDigit
  split_ifs with hdec <;> bv_omega

theorem escByte_of_plain {b : Byte} (hlow : 0x20 ≤ b.toNat) (hquote : b ≠ 0x22) (hslash : b ≠ 0x5C) :
    escByte b = [b] := by
  unfold escByte
  rw [if_neg hquote, if_neg hslash, if_neg (by bv_omega), if_neg (by bv_omega), if_neg (by bv_omega),
    if_neg (by bv_omega), if_neg (by bv_omega), if_neg (by bv_omega)]

/-- All that Esc can make of a byte (R307): the byte itself, a backslash and one byte, or a backslash, `u00` and two
hex digits. -/
theorem escByte_cases (b : Byte) :
    (escByte b = [b] ∧ 0x20 ≤ b.toNat ∧ b ≠ 0x22) ∨
    (∃ c : Byte, escByte b = [0x5C, c] ∧ 0x20 ≤ c.toNat) ∨
    escByte b = [0x5C, 0x75, 0x30, 0x30, hexDigit (b / 16), hexDigit (b % 16)] := by
  unfold escByte
  split_ifs with hquote hslash h1 h2 h3 h4 h5 hlow
  case neg => exact .inl ⟨rfl, by bv_omega, hquote⟩
  iterate 7 exact .inr (.inl ⟨_, rfl, by decide⟩) -- the bytes with an escape of their own
  exact .inr (.inr rfl)

/-- No control byte, and a backslash before every quote (R307). -/
def Escaped (x : Bytes) : Prop :=
  (∀ b ∈ x, 0x20 ≤ b.toNat) ∧ ∀ k : Nat, x[k]? = some 0x22 → 0 < k ∧ x[k - 1]? = some 0x5C

theorem Escaped.nil : Escaped [] := ⟨nofun, nofun⟩

theorem Escaped.append {x y : Bytes} (hx : Escaped x) (hy : Escaped y) : Escaped (x ++ y) := by
  obtain ⟨hxlow, hxquote⟩ := hx
  obtain ⟨hylow, hyquote⟩ := hy
  refine ⟨fun b hb => (List.mem_append.1 hb).elim (hxlow b) (hylow b), fun k hk => ?_⟩
  rcases Nat.lt_or_ge k x.length with hlt | hge
  · rw [List.getElem?_append_left hlt] at hk
    rw [List.getElem?_append_left (Nat.sub_lt_of_lt hlt)]
    exact hxquote k hk
  · rw [List.getElem?_append_right hge] at hk
    obtain ⟨hpos, hbefore⟩ := hyquote _ hk
    rw [List.getElem?_append_right (by omega), Nat.sub_right_comm]
    exact ⟨by omega, hbefore⟩

theorem Escaped.singleton {b : Byte} (hlow : 0x20 ≤ b.toNat) (hquote : b ≠ 0x22) : Escaped [b] := by
  refine ⟨fun c hc => List.mem_singleton.1 hc ▸ hlow, fun k hk => ?_⟩
  obtain ⟨_, hb⟩ := List.getElem?_eq_some_iff.1 hk
  rw [List.getElem_singleton] at hb
  exact absurd hb hquote

/-- A backslash makes any byte but a control byte safe. -/
theorem Escaped.backslash {c : Byte} (hlow : 0x20 ≤ c.toNat) : Escaped [0x5C, c] := by
  refine ⟨List.forall_mem_cons.2 ⟨by decide, fun b hb => List.mem_singleton.1 hb ▸ hlow⟩, fun k hk => ?_⟩
  match k, hk with
  | 1, _ => exact ⟨Nat.one_pos, rfl⟩

theorem nibbles_lt (b : Byte) : b / 16 < 16 ∧ b % 16 < 16 := by
  refine ⟨?_, BitVec.umod_lt b (by decide)⟩
  rw [BitVec.lt_def, BitVec.toNat_udiv]
  exact Nat.div_lt_of_lt_mul b.isLt

theorem escaped_escByte (b : Byte) : Escaped (escByte b) := by
  have digit : ∀ n : Byte, n < 16 → Escaped [hexDigit n] := fun n hn => by
    have hge := hexDigit_ge hn
    exact .singleton (by omega) (by bv_omega)
  rcases escByte_cases b with ⟨hb, hlow, hquote⟩ | ⟨c, hb, hlow⟩ | hb <;> rw [hb]
  · exact .singleton hlow hquote
  · exact .backslash hlow
  · have hunicode : Escaped ([0x5C, 0x75] ++ [0x30] ++ [0x30]) :=
      (Escaped.backslash (by decide)).append (.singleton (by decide) (by decide)) |>.append
        (.singleton (by decide) (by decide))
    obtain ⟨hhigh, hlow⟩ := nibbles_lt b
    exact hunicode.append (digit _ hhigh) |>.append (digit _ hlow)

theorem escBytes_cons (b : Byte) (x : Bytes) : escBytes (b :: x) = escByte b ++ escBytes x := List.flatMap_cons

theorem escaped_escBytes (x : Bytes) : Escaped (escBytes x) := by
  induction x with
  | nil => exact .nil
  | cons b x ih => exact escBytes_cons b x ▸ (escaped_escByte b).append ih

theorem escBytes_of_plain {x : Bytes} (hx : ∀ b ∈ x, 0x20 ≤ b.toNat ∧ b ≠ 0x22 ∧ b ≠ 0x5C) : escBytes x = x := by
  induction x with
  | nil => rfl
  | cons b x ih =>
    obtain ⟨⟨hlow, hquote, hslash⟩, hrest⟩ := List.forall_mem_cons.1 hx
    rw [escBytes_cons, escByte_of_plain hlow hquote hslash, ih hrest, List.singleton_append]

theorem escByte_length_pos (b : Byte) : 1 ≤ (escByte b).length := by
  rcases escByte_cases b with ⟨hb, -⟩ | ⟨c, hb, -⟩ | hb <;> rw [hb] <;> exact Nat.le_add_left 1 _

theorem length_le_length_escBytes (x : Bytes) : x.length ≤ (escBytes x).length := by
  induction x with
  | nil => exact le_rfl
  | cons b x ih =>
    have hpos := escByte_length_pos b
    rw [escBytes_cons, List.length_append, List.length_cons]
    omega

/-! ### The serialised mapping -/

theorem serializeEntries_cons (e : Bytes × Bytes) (rest : List (Bytes × Bytes)) :
    ∃ after, serializeEntries (e :: rest) = serializeEntry e ++ after ∧ serializeEntries rest <:+ after := by
  cases rest with
  | nil => exact ⟨[], (List.append_nil _).symm, List.nil_suffix⟩
  | cons d rest => exact ⟨_, List.append_assoc _ _ _, List.suffix_append _ _⟩

/-- Every entry of a mapping stands in its serialisation (R306). -/
theorem serializeEntry_infix {hm : List (Bytes × Bytes)} {e : Bytes × Bytes} (he : e ∈ hm) :
    serializeEntry e <:+: serializeEntries hm := by
  induction hm with
  | nil => cases he
  | cons d rest ih =>
    obtain ⟨after, hd, hrest⟩ := serializeEntries_cons d rest
    rw [hd]
    rcases List.mem_cons.1 he with rfl | he
    · exact (List.prefix_append _ _).isInfix
    · exact (ih he).trans (hrest.trans (List.suffix_append _ _)).isInfix

theorem serializeMap_ends (hm : List (Bytes × Bytes)) :
    (serializeMap hm).head? = some 0x7B ∧ (serializeMap hm).getLast? = some 0x7D :=
  ⟨rfl, List.getLast?_concat⟩

/-! ### ComposeAAD -/

theorem composeAad_eq_none_iff (b scope : Bytes) : composeAad b scope = none ↔ parseHeaderList b = none :=
  Option.map_eq_none_iff

/-- An AAD is the serialisation of a mapping that holds the scope (R305, R308). -/
theorem composeAad_eq_some {b scope h : Bytes} (hh : composeAad b scope = some h) :
    ∃ hm, h = serializeMap hm ∧ (Config.scopeField, scope) ∈ hm := by
  obtain ⟨hm, -, rfl⟩ := Option.map_eq_some_iff.1 hh
  exact ⟨_, rfl, mem_mapInsert_self hm _ _⟩

theorem serializeEntry_scope (scope : Bytes) :
    serializeEntry (Config.scopeField, scope) =
      [0x22, 0x73, 0x63, 0x6F, 0x70, 0x65, 0x22, 0x3A, 0x22] ++ escBytes scope ++ [0x22] := by
  have hplain : escBytes Config.scopeField = Config.scopeField := escBytes_of_plain (by decide)
  rw [serializeEntry, hplain]
  rfl

/-- An entry appended to a list that parses is inserted last (R303, R304). -/
theorem parseHeaderList_append_entry {b : Bytes} {hm : List (Bytes × Bytes)} {e : Bytes × Bytes}
    (hb : parseHeaderList b = some hm) (he : EntryFits e) :
    parseHeaderList (b ++ headerEntry e) = some (mapInsert hm e.1 e.2) := by
  obtain ⟨es, hes, rfl, rfl⟩ := parseHeaderList_eq_some_iff.1 hb
  refine parseHeaderList_eq_some_iff.2 ⟨es ++ [e], ?_, ?_, (insertEntries_concat _ _ _).symm⟩
  · exact List.forall_mem_append.2 ⟨hes, List.forall_mem_singleton.2 he⟩
  · rw [List.flatMap_append, List.flatMap_singleton]

theorem scopeField_length : Config.scopeField.length < 2 ^ 16 := by decide

/-- The scope that is injected takes the place of one the caller appended (R305). -/
theorem composeAad_append_scope {b v : Bytes} (scope : Bytes) (hb : parseHeaderList b ≠ none)
    (hv : v.length < 2 ^ 16) :
    composeAad (b ++ headerEntry (Config.scopeField, v)) scope = composeAad b scope := by
  obtain ⟨hm, hparse⟩ := Option.ne_none_iff_exists'.1 hb
  have happend := parseHeaderList_append_entry (e := (Config.scopeField, v)) hparse ⟨scopeField_length, hv⟩
  rw [composeAad, composeAad, happend, hparse, Option.map_some, Option.map_some, mapInsert_mapInsert]

end Sys2Proof.Machine

namespace Sys2Proof.Proofs

open Sys2Proof.Machine

/-- Settles O43: the scope is the last entry inserted, and every entry stands in the serialisation. -/
theorem aadContainsTheScopeEntry : Obligations.AadContainsTheScopeEntry := by
  unfold Obligations.AadContainsTheScopeEntry
  refine fun b scope => ⟨composeAad_eq_none_iff b scope, fun h hh => ?_, fun v => composeAad_append_scope scope⟩
  obtain ⟨hm, rfl, hscope⟩ := composeAad_eq_some hh
  obtain ⟨hfirst, hlast⟩ := serializeMap_ends hm
  obtain ⟨before, after, hinfix⟩ := serializeEntry_infix hscope
  refine ⟨hfirst, hlast, [0x7B] ++ before, after ++ [0x7D], ?_⟩
  rw [← serializeEntry_scope, serializeMap, ← hinfix]
  simp only [List.append_assoc]

/-- Settles O44, byte by byte: Esc makes of each byte an escaped string, and escaped strings join to one. -/
theorem escapingIsSafeAndKeepsPlainText : Obligations.EscapingIsSafeAndKeepsPlainText := by
  unfold Obligations.EscapingIsSafeAndKeepsPlainText
  exact fun x => ⟨escBytes_of_plain, length_le_length_escBytes x, escaped_escBytes x⟩

end Sys2Proof.Proofs
end

section
/-! PROOFS. FRAME_AAD and FRAME_SEAL (R310 to R314): their checks in order, and what they end with. -/

namespace Sys2Proof.Machine

/-! ### FRAME_AAD -/

section
variable {s : State} {b scope : Bytes}

/-- FRAME_AAD of operands that are held comes to its AAD (R310). -/
theorem exec_frameAad_of_holds (ok : OperandsOk s .frameAad) (hb : Holds s 0 b) (hscope : Holds s 1 scope) :
    exec .frameAad s =
      (composeAad b scope).elim (.next (errorEnd s .invalidHeaderList)) fun h =>
        if h.length > s.regionLen 2 then .next (errorEnd s .destTooSmall)
        else .next (s.complete (BitVec.ofNat 32 h.length) 0 [(2, h)]) := by
  refine (withOperands_ok s .frameAad _ ok).trans ?_
  simp only [holds_region hb, holds_afterRead hb, holds_region hscope, holds_afterRead hscope]
  cases composeAad b scope with
  | none => rfl
  | some h => rfl

theorem exec_frameAad_of_bad_list (ok : OperandsOk s .frameAad) (hb : Holds s 0 b) (hscope : Holds s 1 scope)
    (hbad : composeAad b scope = none) : exec .frameAad s = .next (errorEnd s .invalidHeaderList) := by
  rw [exec_frameAad_of_holds ok hb hscope, hbad, Option.elim_none]

theorem exec_frameAad_of_no_room {h : Bytes} (ok : OperandsOk s .frameAad) (hb : Holds s 0 b)
    (hscope : Holds s 1 scope) (hh : composeAad b scope = some h) (hroom : s.regionLen 2 < h.length) :
    exec .frameAad s = .next (errorEnd s .destTooSmall) := by
  rw [exec_frameAad_of_holds ok hb hscope, hh, Option.elim_some, if_pos hroom]

theorem exec_frameAad_ok {h : Bytes} (ok : OperandsOk s .frameAad) (hb : Holds s 0 b) (hscope : Holds s 1 scope)
    (hh : composeAad b scope = some h) (hroom : h.length ≤ s.regionLen 2) :
    exec .frameAad s = .next (s.complete (BitVec.ofNat 32 h.length) 0 [(2, h)]) := by
  rw [exec_frameAad_of_holds ok hb hscope, hh, Option.elim_some, if_neg hroom.not_gt]

end

/-! ### FRAME_SEAL -/

/-- The state in which FRAME_SEAL ends with this answer of LoadKeyring, for the AAD `h`: the nonce and the plaintext
are read only after the load (R312). -/
def frameSealEnd (s : State) (h : Bytes) (answer : Except ErrorKind Keyring) : State :=
  match answer with
  | .error e => scrubbedErrorEnd s e Keyring.empty
  | .ok kr =>
    let s1 := s.afterRead 3
    let s2 := s1.afterRead 4
    (s2.clearKeyring.complete (BitVec.ofNat 32 (tokenLength h.length (s.regionLen 4))) 0
      [(5, composeToken s.params.b85Variant kr (s.region 3) h (s1.region 4))]).scrub

section
variable {s : State} {m b scope h : Bytes}

theorem exec_frameSeal_of_bad_nonce (ok : OperandsOk s .frameSeal) (hnonce : s.regionLen 3 ≠ 12) :
    exec .frameSeal s = .next (errorEnd s .badLength) :=
  (withOperands_ok s .frameSeal _ ok).trans (if_pos hnonce)

theorem exec_frameSeal_of_bad_list (ok : OperandsOk s .frameSeal) (hnonce : s.regionLen 3 = 12) (hb : Holds s 1 b)
    (hscope : Holds s 2 scope) (hbad : composeAad b scope = none) :
    exec .frameSeal s = .next (errorEnd s .invalidHeaderList) := by
  refine (withOperands_ok s .frameSeal _ ok).trans ((if_neg (not_not.2 hnonce)).trans ?_)
  simp only [holds_region hb, holds_afterRead hb, holds_region hscope, holds_afterRead hscope, hbad]
  rfl

theorem exec_frameSeal_of_no_room (ok : OperandsOk s .frameSeal) (hnonce : s.regionLen 3 = 12) (hb : Holds s 1 b)
    (hscope : Holds s 2 scope) (hh : composeAad b scope = some h)
    (hroom : s.regionLen 5 < tokenLength h.length (s.regionLen 4)) :
    exec .frameSeal s = .next (errorEnd s .destTooSmall) := by
  refine (withOperands_ok s .frameSeal _ ok).trans ((if_neg (not_not.2 hnonce)).trans ?_)
  simp only [holds_region hb, holds_afterRead hb, holds_region hscope, holds_afterRead hscope, hh]
  exact if_pos hroom

/-- Past its pre-checks FRAME_SEAL ends as its load does (R312, R314). -/
theorem exec_frameSeal_of_room (ok : OperandsOk s .frameSeal) (hnonce : s.regionLen 3 = 12) (hm : Holds s 0 m)
    (hb : Holds s 1 b) (hscope : Holds s 2 scope) (hh : composeAad b scope = some h)
    (hroom : tokenLength h.length (s.regionLen 4) ≤ s.regionLen 5) :
    exec .frameSeal s = .next (frameSealEnd s h (loadKeyring s.params m)) := by
  refine (withOperands_ok s .frameSeal _ ok).trans ((if_neg (not_not.2 hnonce)).trans ?_)
  simp only [holds_region hb, holds_afterRead hb, holds_region hscope, holds_afterRead hscope, hh, holds_region hm,
    holds_afterRead hm]
  refine (if_neg hroom.not_gt).trans ?_
  cases loadKeyring s.params m with
  | error e => rfl
  | ok kr => rfl

/-- The end of FRAME_SEAL after a load that succeeds, of a nonce and a plaintext that are held (R312, R314). -/
theorem frameSealEnd_ok {z pt : Bytes} {kr : Keyring} (hz : Holds s 3 z) (hpt : Holds s 4 pt) :
    frameSealEnd s h (.ok kr) =
      (s.clearKeyring.complete (BitVec.ofNat 32 (tokenLength h.length pt.length)) 0
        [(5, composeToken s.params.b85Variant kr z h pt)]).scrub := by
  simp only [frameSealEnd, holds_region hz, holds_afterRead hz, holds_region hpt, holds_afterRead hpt,
    holds_length hpt]

end

/-- The token of a loaded keyring's current entry is as long as R311 says. -/
theorem composeToken_length_of_load {p : Params} {m z : Bytes} {kr : Keyring} (hload : loadKeyring p m = .ok kr)
    (hz : z.length = 12) (h pt : Bytes) :
    (composeToken p.b85Variant kr z h pt).length = tokenLength h.length pt.length := by
  obtain ⟨hok, hcur⟩ := loadKeyring_ok hload
  exact composeToken_length _ h pt (hok.current_id_length hcur) hz

/-- The end of a command that leaves the store empty and the Spritz state scrubbed, with one write (R314, R349). -/
theorem clearKeyring_complete_scrub (s : State) (r0 r1 : Word) (n : Fin 8) (out : Bytes) :
    Succeeds s (s.clearKeyring.complete r0 r1 [(n, out)]).scrub r0 r1 Sponge.init Keyring.empty ∧
      Stored s (s.clearKeyring.complete r0 r1 [(n, out)]).scrub n out :=
  ⟨rfl, stored_commit s n out⟩

end Sys2Proof.Machine

namespace Sys2Proof.Proofs

open Sys2Proof.Machine

/-- Settles O45: the one write of the completion is the AAD at D2. -/
theorem frameAadWritesTheAad : Obligations.FrameAadWritesTheAad := by
  unfold Obligations.FrameAadWritesTheAad
  intro s b scope h ok hb hscope hh hroom
  exact ⟨_, exec_frameAad_ok ok hb hscope hh hroom, succeeds_complete s s.draws _ _ _, rfl, stored_commit s 2 h⟩

/-- Settles O46: past its pre-checks the command ends as the load does, and the one write of the completion is the
token at D5. -/
theorem frameSealWritesTheToken : Obligations.FrameSealWritesTheToken := by
  unfold Obligations.FrameSealWritesTheToken
  intro s m b scope z pt h kr ok hm hb hscope hz hpt hlen hh hload hroom
  have htoken := composeToken_length_of_load hload hlen h pt
  rw [← holds_length hpt] at hroom
  have hexec := exec_frameSeal_of_room ok ((holds_length hz).trans hlen) hm hb hscope hh hroom
  rw [hload, frameSealEnd_ok hz hpt, ← htoken] at hexec
  obtain ⟨hsucceeds, hstored⟩ := clearKeyring_complete_scrub s
    (BitVec.ofNat 32 (composeToken s.params.b85Variant kr z h pt).length) 0 5
    (composeToken s.params.b85Variant kr z h pt)
  exact ⟨_, hexec, hsucceeds, rfl, hstored, htoken⟩

/-- Settles O53, check by check. -/
theorem framerChecksInOrder : Obligations.FramerChecksInOrder := by
  unfold Obligations.FramerChecksInOrder
  refine fun s m b scope => ⟨fun ok hb hscope => ⟨exec_frameAad_of_bad_list ok hb hscope,
    fun h => exec_frameAad_of_no_room ok hb hscope⟩, exec_frameSeal_of_bad_nonce, fun ok hb hscope hnonce =>
    ⟨exec_frameSeal_of_bad_list ok hnonce hb hscope, fun h hh =>
      ⟨exec_frameSeal_of_no_room ok hnonce hb hscope hh, fun hroom hm e hload => ?_⟩⟩⟩
  have hexec := exec_frameSeal_of_room ok hnonce hm hb hscope hh hroom
  rwa [hload] at hexec

end Sys2Proof.Proofs
end

section
/-! PROOFS. Tokens (R309, R311, R320, R324): the fields of a composed token, and what parsing it gives. -/

namespace Sys2Proof.Machine

/-- The separator is no symbol of base 85, so no field contains it (R240, R311). -/
theorem fieldSep_not_mem_enc85 (v : Fin 6) (x : Bytes) : Config.fieldSep ∉ enc85 v x := by
  intro hmem
  have hdigit : digit v Config.fieldSep = none := by
    refine Option.eq_none_iff_forall_ne_some.2 fun d hd => ?_
    obtain ⟨-, -, -, -, hsep, -⟩ := alphabet_bytes v _ (mem_alphabet_of_digit hd)
    exact hsep rfl
  have hfail := decodeGroups_of_bad_symbol hmem hdigit
  rw [decodeGroups_enc85] at hfail
  cases hfail

/-- A token splits into the fields it is composed of (R309, R311). -/
theorem splitFields_composeToken (v : Fin 6) (kr : Keyring) (z h pt : Bytes) :
    splitFields (composeToken v kr z h pt) =
      [enc85 v kr.current.id, enc85 v z, enc85 v h,
        enc85 v (sealCore kr.current.key z h pt Config.protoTagBytes)] := by
  have field : ∀ x, splitOn Config.fieldSep (enc85 v x) = [enc85 v x] := fun x =>
    splitOn_single _ _ (fieldSep_not_mem_enc85 v x)
  simp only [splitFields, composeToken, List.append_assoc, List.cons_append, List.nil_append, splitOn_append,
    field]

/-- The identifier of a store's current entry, encoded, looks its key up (R275, R277). -/
theorem lookupKey_current {p : Params} {kr : Keyring} (hok : KeyringOk p kr) (hcur : kr.cur < kr.entries.length)
    (v : Fin 6) : lookupKey v kr.entries (enc85 v kr.current.id) = .ok (kr.cur, kr.current.key) := by
  have hentry : kr.entries[kr.cur]? = some kr.current := by
    rw [Keyring.current, List.getD_eq_getElem _ _ hcur, List.getElem?_eq_getElem hcur]
  exact lookupKey_of_entry hok hentry (dec85_enc85 v _)

/-- A token parses, under the material whose keyring composed it, to what it was composed of (R324). -/
theorem parseToken_composeToken {p : Params} {m z : Bytes} {kr : Keyring} (hload : loadKeyring p m = .ok kr)
    (hz : z.length = 12) (h pt : Bytes) :
    parseToken p m (composeToken p.b85Variant kr z h pt) =
      .ok { key := kr.current.key, nonce := z, header := h,
            sealed := sealCore kr.current.key z h pt Config.protoTagBytes } := by
  obtain ⟨hok, hcur⟩ := loadKeyring_ok hload
  rw [parseToken_of_fields (splitFields_composeToken _ kr z h pt) hload,
    parseFields_of_decoded (lookupKey_current hok hcur _) (dec85_enc85 _ z) (dec85_enc85 _ h) (dec85_enc85 _ _)]
  exact if_neg (not_not.2 hz)

end Sys2Proof.Machine

namespace Sys2Proof.Proofs

open Sys2Proof.Machine

/-- Settles O50: each field decodes to what it encodes, the identifier is the current entry's, and opening inverts
sealing. -/
theorem sealParseIdentity : Obligations.SealParseIdentity := by
  unfold Obligations.SealParseIdentity
  intro p m b scope z pt h kr hload _ hz
  exact ⟨_, parseToken_composeToken hload hz h pt, rfl, rfl, (openInvertsSeal _ _ _ _ _ _).2 rfl⟩

end Sys2Proof.Proofs
end

section
/-! PROOFS. FRAME_PARSE with room for what it returns (R314, R321, R322): header and plaintext of a token that verifies,
the header alone of one that does not. -/

namespace Sys2Proof.Machine

/-- With room for header and plaintext FRAME_PARSE ends as the opening does (R321, R322). -/
theorem frameParseFinish_of_room {s : State} {parts : TokenParts} (hheader : parts.header.length ≤ s.regionLen 2)
    (hplain : parts.sealed.length - 32 ≤ s.regionLen 3) :
    frameParseFinish s parts =
      (openCore parts.key parts.nonce parts.header parts.sealed 32).elim
        ((s.clearKeyring.commit [(2, parts.header)]).finish (errorCode .authenticationFailure)
          (BitVec.ofNat 32 parts.header.length) 0).scrub
        fun p => (s.clearKeyring.complete (BitVec.ofNat 32 parts.header.length) (BitVec.ofNat 32 p.length)
          [(2, parts.header), (3, p)]).scrub := by
  have htag : Config.protoTagBytes = 32 := rfl
  rw [frameParseFinish, htag]
  refine (if_neg hheader.not_gt).trans ((if_neg fun hbad => hplain.not_gt hbad.2).trans ?_)
  cases openCore parts.key parts.nonce parts.header parts.sealed 32 with
  | none => rfl
  | some p => rfl

theorem commit_pair_dmem (s : State) (m n : Fin 8) (x y : Bytes) :
    (s.commit [(m, x), (n, y)]).dmem = (s.dmem.writeBytes (s.regionAddr m) x).writeBytes (s.regionAddr n) y := rfl

/-- The last write of a commit is read back whole. -/
theorem commit_pair_read_second (s : State) (m n : Fin 8) (x y : Bytes) {k : Nat} (hk : k < y.length) :
    (s.commit [(m, x), (n, y)]).dmem.read (s.regionAddr n + k) = y[k]? := by
  rw [commit_pair_dmem, memory_read_writeBytes, if_pos (by omega), Nat.add_sub_cancel_left]

/-- A second write into a region apart leaves the first (R85). -/
theorem commit_pair_read_first {s : State} {m n : Fin 8} {x y : Bytes} (hapart : Apart s m n)
    (hx : x.length ≤ s.regionLen m) (hy : y.length ≤ s.regionLen n) {k : Nat} (hk : k < x.length) :
    (s.commit [(m, x), (n, y)]).dmem.read (s.regionAddr m + k) = x[k]? := by
  have hout : ¬ (s.regionAddr n ≤ s.regionAddr m + k ∧ s.regionAddr m + k < s.regionAddr n + y.length) :=
    fun ⟨hlo, hhi⟩ => hapart (s.regionAddr m + k) ⟨⟨by omega, by omega⟩, hlo, by omega⟩
  rw [commit_pair_dmem, memory_read_writeBytes, if_neg hout, memory_read_writeBytes, if_pos (by omega),
    Nat.add_sub_cancel_left]

/-- Outside both writes of a commit no byte changes (R86). -/
theorem commit_pair_read_outside (s : State) {m n : Fin 8} {x y : Bytes} {a : Nat}
    (hm : ¬ (s.regionAddr m ≤ a ∧ a < s.regionAddr m + x.length))
    (hn : ¬ (s.regionAddr n ≤ a ∧ a < s.regionAddr n + y.length)) :
    (s.commit [(m, x), (n, y)]).dmem.read a = s.dmem.read a :=
  commit_read_outside s _ a (List.forall_mem_cons.2 ⟨hm, List.forall_mem_singleton.2 hn⟩)

end Sys2Proof.Machine

namespace Sys2Proof.Proofs

open Sys2Proof.Machine

/-- Settles O47: the two writes of the completion go to destinations that are apart. -/
theorem frameParseWritesHeaderAndPlaintext : Obligations.FrameParseWritesHeaderAndPlaintext := by
  unfold Obligations.FrameParseWritesHeaderAndPlaintext
  intro s m x p parts ok hm hx hparse hopen hheader hplain
  have hlen : p.length + 32 = parts.sealed.length := openCore_length hopen
  have hexec := exec_frameParse_ok ok hm hx hparse
  rw [frameParseFinish_of_room hheader (by omega), hopen, Option.elim_some] at hexec
  have hapart : Apart s 2 3 := by
    obtain ⟨-, -, hdests⟩ := ok
    exact hdests 2 (.head _) 3 (.tail _ (.head _)) (by decide)
  exact ⟨_, hexec, rfl, rfl, fun k => commit_pair_read_first (s := s) hapart hheader hplain,
    fun k => commit_pair_read_second s 2 3 parts.header p, fun a => commit_pair_read_outside s⟩

/-- Settles O48: a failed opening commits the header alone. -/
theorem frameParseReturnsTheHeaderOnAuthFailure : Obligations.FrameParseReturnsTheHeaderOnAuthFailure := by
  unfold Obligations.FrameParseReturnsTheHeaderOnAuthFailure
  intro s m x parts ok hm hx hparse hopen hheader hplain
  have hexec := exec_frameParse_ok ok hm hx hparse
  rw [frameParseFinish_of_room hheader hplain, hopen, Option.elim_none] at hexec
  exact ⟨_, hexec, rfl, stored_commit s 2 parts.header⟩

end Sys2Proof.Proofs
end

section
/-! PROOFS. The commands without operands that touch at most one piece of state: NOP (R330), KR_CLEAR (R280) and
SP_INIT (R170). -/

namespace Sys2Proof.Machine

/-- The completion of a command that writes no memory records its results and nothing else (R349). -/
theorem complete_nil (s : State) (r0 r1 : Word) :
    s.complete r0 r1 [] = { s with pend := none, done := true, ecode := 0, res0 := r0, res1 := r1 } := rfl

theorem exec_nop (s : State) :
    exec .nop s = .next { s with pend := none, done := true, ecode := 0, res0 := 0, res1 := 0 } :=
  congrArg Host.Outcome.next (complete_nil s 0 0)

theorem exec_krClear (s : State) :
    exec .krClear s =
      .next { s with
        pend := none, done := true, ecode := 0, res0 := 0, res1 := 0, keyring := { entries := [], cur := 0 } } :=
  congrArg Host.Outcome.next (complete_nil s.clearKeyring 0 0)

theorem exec_spInit (s : State) :
    exec .spInit s =
      .next { s with pend := none, done := true, ecode := 0, res0 := 0, res1 := 0, sponge := Sponge.init } :=
  congrArg Host.Outcome.next (setSponge_complete_nil s Sponge.init 0 0)

end Sys2Proof.Machine

namespace Sys2Proof.Proofs

open Sys2Proof.Machine

/-- Settles O16, command by command; the box of the initial Spritz state is the identity. -/
theorem nopKrClearAndSpInitComplete : Obligations.NopKrClearAndSpInitComplete := by
  unfold Obligations.NopKrClearAndSpInitComplete
  intro s
  exact ⟨exec_nop s, exec_krClear s, Sponge.init, exec_spInit s, rfl, rfl, rfl, rfl, rfl, rfl, at_init⟩

end Sys2Proof.Proofs
end

section
/-! PROOFS. The Spritz state at the end of a command (R347, R348), from the ways a command ends: a high-level command
scrubs it unless a pre-check stops it, and six commands never touch it. -/

namespace Sys2Proof.Machine

/-- The commands that neither use nor scrub the Spritz state (R348). -/
def LeavesSponge (i : Instr) : Prop :=
  i = .nop ∨ i = .b85Enc ∨ i = .b85Dec ∨ i = .krLookup ∨ i = .krClear ∨ i = .frameAad

theorem LeavesSponge.not_highLevel {i : Instr} (h : LeavesSponge i) : highLevel i = false := by
  rcases h with rfl | rfl | rfl | rfl | rfl | rfl <;> rfl

theorem spongeAfter_of_leavesSponge {i : Instr} (h : LeavesSponge i) (s : State) : spongeAfter i s = s.sponge := by
  rcases h with rfl | rfl | rfl | rfl | rfl | rfl <;> rfl

theorem spongeAfter_of_highLevel {i : Instr} (h : highLevel i = true) (s : State) : spongeAfter i s = Sponge.init := by
  cases i with
  | hash | keyid | aeadSeal | aeadOpen | krLoad | frameSeal | frameParse => rfl
  | nop | spInit | spAbsorb | spAbsorbImm | spAbsorbStop | spShuffle | spSqueeze | spDrip | b85Enc | b85Dec | krLookup
  | krClear | frameAad => cases h

/-- A failed pre-check touches neither the Spritz state nor the store; the other failures are a high-level command's,
and scrub; a success leaves what the command makes of the Spritz state (R347 to R349). -/
theorem Ends.sponge_cases {s t : State} {i : Instr} (h : Ends s i t) :
    (t.ecode ≠ 0 ∧ t.sponge = s.sponge ∧ t.keyring = s.keyring) ∨
    (highLevel i = true ∧ t.sponge = Sponge.init) ∨
    t.sponge = spongeAfter i s := by
  cases h with
  | refused => exact .inl ⟨errorCode_ne_zero _, rfl, rfl⟩
  | authFailed | headerReturned => exact .inr (.inl ⟨rfl, rfl⟩)
  | loadFailed d hi => rcases hi with rfl | rfl | rfl <;> exact .inr (.inl ⟨rfl, rfl⟩)
  | succeeded => exact .inr (.inr rfl)

theorem Ends.sponge_of_highLevel {s t : State} {i : Instr} (h : Ends s i t) (hi : highLevel i = true) :
    t.sponge = Sponge.init ∨ (t.ecode ≠ 0 ∧ t.sponge = s.sponge ∧ t.keyring = s.keyring) := by
  rcases h.sponge_cases with hrefused | ⟨-, hscrubbed⟩ | hsucceeded
  · exact .inr hrefused
  · exact .inl hscrubbed
  · exact .inl (hsucceeded.trans (spongeAfter_of_highLevel hi s))

theorem Ends.sponge_of_leavesSponge {s t : State} {i : Instr} (h : Ends s i t) (hi : LeavesSponge i) :
    t.sponge = s.sponge := by
  rcases h.sponge_cases with ⟨-, hsame, -⟩ | ⟨hhigh, -⟩ | hsucceeded
  · exact hsame
  · exact absurd (hi.not_highLevel.symm.trans hhigh) Bool.false_ne_true
  · exact hsucceeded.trans (spongeAfter_of_leavesSponge hi s)

end Sys2Proof.Machine

namespace Sys2Proof.Proofs

open Sys2Proof.Machine

/-- Settles O57, by the ways a command ends. -/
theorem highLevelCommandsScrub : Obligations.HighLevelCommandsScrub := by
  unfold Obligations.HighLevelCommandsScrub
  exact fun _ _ _ h => ⟨(exec_ends h).sponge_of_highLevel, (exec_ends h).sponge_of_leavesSponge⟩

end Sys2Proof.Proofs
end

section
/-! PROOFS. Reset (R380): every value of the reset table, for a reset at the start and for one asserted in any state,
and the invariant. -/

namespace Sys2Proof.Machine

/-- The value of four bytes put together, the lowest last (R38). -/
theorem append_bytes_eq_ofNat (b3 b2 b1 b0 : Byte) :
    (b3 ++ b2 ++ b1 ++ b0 : Word) =
      BitVec.ofNat 32 (b0.toNat + b1.toNat * 2 ^ 8 + b2.toNat * 2 ^ 16 + b3.toNat * 2 ^ 24) := by
  have hshift (n : Nat) (b : Byte) : n <<< 8 ||| b.toNat = n * 2 ^ 8 + b.toNat := by
    rw [← Nat.shiftLeft_add_eq_or_of_lt b.isLt, Nat.shiftLeft_eq]
  apply BitVec.eq_of_toNat_eq
  simp only [BitVec.toNat_append, hshift, BitVec.toNat_ofNat]
  omega

/-- Word `m` of REG.SP_S after reset: `S[v] = v` in every byte (R38, R380). -/
theorem window_init (m : Fin 64) : Sponge.init.window m =
    BitVec.ofNat 32 (4 * m.val + (4 * m.val + 1) * 2 ^ 8 + (4 * m.val + 2) * 2 ^ 16 + (4 * m.val + 3) * 2 ^ 24) := by
  have hbyte (b : Nat) (hb : b < 4) : (BitVec.ofNat 8 (4 * m.val + b)).toNat = 4 * m.val + b :=
    Nat.mod_eq_of_lt (by omega)
  have h0 := hbyte 0 (by decide)
  rw [Nat.add_zero] at h0
  simp only [Sponge.window, at_init, append_bytes_eq_ofNat, h0, hbyte 1, hbyte 2, hbyte 3, Nat.reduceLT]

/-- STATUS reads 0 when idle with every flag clear and no code (R33). -/
theorem statusWord_of_clear {s : State} (hpend : s.pend = none) (hdone : s.done = false) (hwerr : s.werr = false)
    (hcode : s.ecode = 0) : s.statusWord = 0 := by
  simp [State.statusWord, State.busy, State.err, hpend, hdone, hwerr, hcode]

theorem ijkz_init : Sponge.init.ijkz = 0 :=
  append_bytes_eq_ofNat 0 0 0 0

theorem aw_init : Sponge.init.aw = 0x100 :=
  (aw_eq_commandWord Sponge.init).trans (by decide : commandWord 0 1 = 0x100)

/-- A reset asserted in any state gives the reset table (R380). -/
theorem reassertReset_atReset (s : State) : AtReset s.params s.reassertReset where
  params := rfl
  pend := rfl
  id := rfl
  cmd := rfl
  status := statusWord_of_clear rfl rfl rfl rfl
  results := ⟨rfl, rfl⟩
  keyringRegs := ⟨rfl, rfl⟩
  spongeRegs := ⟨ijkz_init, aw_init⟩
  descriptors n := by simp [State.readReg]
  window := window_init
  reservedOffsets := rfl
  indices := ⟨rfl, rfl, rfl, rfl, rfl, rfl⟩
  permutation := at_init
  keyring := ⟨rfl, rfl⟩
  dmem _ := rfl

/-- The state after the first reset is one that asserting reset again would not change. -/
theorem reassertReset_resetWith (p : Params) : (State.resetWith p).reassertReset = State.resetWith p := rfl

theorem resetWith_atReset (p : Params) : AtReset p (State.resetWith p) :=
  reassertReset_resetWith p ▸ reassertReset_atReset (State.resetWith p)

theorem step_of_agenda_reset {s : State} {rest : List Turn} (h : s.agenda = .reset :: rest) :
    step s = .next (State.reassertReset { s with agenda := rest }) := by
  rw [step, h]

end Sys2Proof.Machine

namespace Sys2Proof.Proofs

open Sys2Proof.Machine

/-- Settles O5: every reset is a reset asserted in some state. -/
theorem resetGivesTheResetTable : Obligations.ResetGivesTheResetTable := by
  unfold Obligations.ResetGivesTheResetTable
  refine ⟨resetWith_atReset, resetWith_atReset Config.params, fun s rest h => ?_⟩
  exact ⟨_, step_of_agenda_reset h, reassertReset_atReset { s with agenda := rest }, rfl, rfl⟩

/-- Settles O59, for any build parameters and so for those of `State.reset`. -/
theorem resetHasTheInvariant : Obligations.ResetHasTheInvariant := by
  unfold Obligations.ResetHasTheInvariant
  exact ⟨resetWith_inv, resetWith_inv Config.params⟩

end Sys2Proof.Proofs
end
